-- ==== Sys2Proof/Word.lean ====
section
/-! DEFINITION. The word types of the engine: 32-bit bus words (10_state.md R32), bytes (R60), the 256-bit operand
registers (R57) and the 64-bit byte counter (R51). -/
namespace Sys2Proof

/-- A 32-bit register or bus word. -/
abbrev Word := BitVec 32

/-- One byte of the data buffer or of a byte string. -/
abbrev Byte := BitVec 8

/-- The value of a 256-bit operand register. -/
abbrev U256 := BitVec 256

/-- The value of the SM3 byte counter CNT. -/
abbrev U64 := BitVec 64

end Sys2Proof
end

