-- ==== Sys2Proof/Syntax.lean ====
section
/-! DEFINITION. The commands (30_encoding.md R147), one constructor per row of the opcode table, and the four fields
of a command word (R141). -/
namespace Sys2Proof

/-- The modulus a field command works with, chosen by MSEL (30_encoding.md R143). -/
inductive Modulus where
  /-- MSEL = 0: the field prime p. -/
  | p
  /-- MSEL = 1: the group order n. -/
  | n
  deriving DecidableEq, Repr

/-- The fields of a command word (30_encoding.md R141). -/
structure CmdFields where
  /-- RSV, bits 31..10. -/
  rsv : BitVec 22
  /-- PAD, bit 9. -/
  pad : Bool
  /-- MSEL, bit 8. -/
  msel : Bool
  /-- OP, bits 7..0. -/
  op : Byte
  deriving DecidableEq, Repr

/-- The 24 commands (30_encoding.md R147). The mode bits that are free in a row are its arguments; operands come
from fixed registers (R145). -/
inductive Instr where
  | nop
  | zeroize
  | fadd (m : Modulus)
  | fsub (m : Modulus)
  | fmul (m : Modulus)
  | finv (m : Modulus)
  | fred (m : Modulus)
  | padd
  | pdbl
  | pmul
  | pmulg
  | pchk
  | keygen
  | sign
  | signk
  | verify
  | sm3init
  | sm3upd
  | sm3fin
  | sm4key
  | ecbenc
  | ecbdec
  | cbcenc (pad : Bool)
  | cbcdec (pad : Bool)
  deriving DecidableEq, Repr

end Sys2Proof
end

