-- ==== Sys2Proof/WellFormed.lean ====
section
/-! DEFINITION. When the fields of a command word are well formed (30_encoding.md R143-R150): four checks, each a
Bool. A word that fails one is ILLEGAL. -/
namespace Sys2Proof

/-- The OP values the opcode map assigns (30_encoding.md R147, R150). -/
def assignedOps : List Byte :=
  [0x00, 0x01] ++ [0x10, 0x11, 0x12, 0x13, 0x14] ++ [0x20, 0x21, 0x22, 0x23, 0x24] ++
  [0x30, 0x31, 0x32, 0x33] ++ [0x40, 0x41, 0x42] ++ [0x50, 0x51, 0x52, 0x53, 0x54]

/-- RSV must be zero (30_encoding.md R146). -/
def CmdFields.rsvZero (f : CmdFields) : Bool := f.rsv == 0

/-- OP must be assigned (30_encoding.md R150). -/
def CmdFields.opAssigned (f : CmdFields) : Bool := assignedOps.contains f.op

/-- MSEL may be 1 only for a field command, OP 0x10-0x14 (30_encoding.md R143). -/
def CmdFields.mselAllowed (f : CmdFields) : Bool :=
  !f.msel || ([0x10, 0x11, 0x12, 0x13, 0x14] : List Byte).contains f.op

/-- PAD may be 1 only for CBCENC and CBCDEC, OP 0x53 and 0x54 (30_encoding.md R144). -/
def CmdFields.padAllowed (f : CmdFields) : Bool :=
  !f.pad || ([0x53, 0x54] : List Byte).contains f.op

/-- All four checks: the word selects a row of the opcode map (30_encoding.md R148). -/
def CmdFields.wellFormed (f : CmdFields) : Bool :=
  f.rsvZero && f.opAssigned && f.mselAllowed && f.padAllowed

end Sys2Proof
end

