-- ==== Sys2Proof/Decode.lean ====
section
/-! DEFINITION. The decoder, total on every 32-bit command word and rejecting by name (30_encoding.md R148-R150), and
the encoder, written from the encodings of R147. -/
namespace Sys2Proof

/-- Why a command word is ILLEGAL (30_encoding.md R148). -/
inductive DecodeReject where
  /-- RSV is not zero (R146). -/
  | reservedBits
  /-- OP is unassigned (R150). -/
  | unassignedOp
  /-- MSEL = 1 outside OP 0x10-0x14 (R143). -/
  | mselNotAllowed
  /-- PAD = 1 outside OP 0x53-0x54 (R144). -/
  | padNotAllowed
  deriving DecidableEq, Repr

/-- The fields of a word (30_encoding.md R141). -/
def unpackCmd (w : Word) : CmdFields :=
  { rsv := w.extractLsb' 10 22, pad := w.getLsbD 9, msel := w.getLsbD 8, op := w.extractLsb' 0 8 }

/-- The word of given fields (30_encoding.md R141). -/
def packCmd (f : CmdFields) : Word :=
  f.rsv ++ BitVec.ofBool f.pad ++ BitVec.ofBool f.msel ++ f.op

/-- A row whose MSEL and PAD must both be 0. -/
def plainRow (f : CmdFields) (i : Instr) : Except DecodeReject Instr :=
  if f.msel then .error .mselNotAllowed else if f.pad then .error .padNotAllowed else .ok i

/-- A field row: MSEL chooses the modulus and PAD must be 0 (30_encoding.md R143). -/
def fieldRow (f : CmdFields) (i : Modulus → Instr) : Except DecodeReject Instr :=
  if f.pad then .error .padNotAllowed else .ok (i (if f.msel then .n else .p))

/-- A CBC row: PAD is free and MSEL must be 0 (30_encoding.md R144). -/
def cbcRow (f : CmdFields) (i : Bool → Instr) : Except DecodeReject Instr :=
  if f.msel then .error .mselNotAllowed else .ok (i f.pad)

/-- The row of the opcode map that OP selects (30_encoding.md R147), its mode bits checked. -/
def decodeOp (f : CmdFields) : Except DecodeReject Instr :=
  match f.op with
  | 0x00#8 => plainRow f .nop
  | 0x01#8 => plainRow f .zeroize
  | 0x10#8 => fieldRow f .fadd
  | 0x11#8 => fieldRow f .fsub
  | 0x12#8 => fieldRow f .fmul
  | 0x13#8 => fieldRow f .finv
  | 0x14#8 => fieldRow f .fred
  | 0x20#8 => plainRow f .padd
  | 0x21#8 => plainRow f .pdbl
  | 0x22#8 => plainRow f .pmul
  | 0x23#8 => plainRow f .pmulg
  | 0x24#8 => plainRow f .pchk
  | 0x30#8 => plainRow f .keygen
  | 0x31#8 => plainRow f .sign
  | 0x32#8 => plainRow f .signk
  | 0x33#8 => plainRow f .verify
  | 0x40#8 => plainRow f .sm3init
  | 0x41#8 => plainRow f .sm3upd
  | 0x42#8 => plainRow f .sm3fin
  | 0x50#8 => plainRow f .sm4key
  | 0x51#8 => plainRow f .ecbenc
  | 0x52#8 => plainRow f .ecbdec
  | 0x53#8 => cbcRow f .cbcenc
  | 0x54#8 => cbcRow f .cbcdec
  | _ => .error .unassignedOp

/-- The decoder of the command word (30_encoding.md R148): RSV first, then OP's row. -/
def decode (w : Word) : Except DecodeReject Instr :=
  if (unpackCmd w).rsv = 0 then decodeOp (unpackCmd w) else .error .reservedBits

/-- The fields with RSV, MSEL and PAD zero. -/
def plainFields (op : Byte) : CmdFields := { rsv := 0, pad := false, msel := false, op := op }

/-- MSEL of a modulus (30_encoding.md R143). -/
def Modulus.msel : Modulus → Bool
  | .p => false
  | .n => true

/-- The fields that encode a command (30_encoding.md R147). -/
def Instr.fields : Instr → CmdFields
  | .nop => plainFields 0x00
  | .zeroize => plainFields 0x01
  | .fadd m => { plainFields 0x10 with msel := m.msel }
  | .fsub m => { plainFields 0x11 with msel := m.msel }
  | .fmul m => { plainFields 0x12 with msel := m.msel }
  | .finv m => { plainFields 0x13 with msel := m.msel }
  | .fred m => { plainFields 0x14 with msel := m.msel }
  | .padd => plainFields 0x20
  | .pdbl => plainFields 0x21
  | .pmul => plainFields 0x22
  | .pmulg => plainFields 0x23
  | .pchk => plainFields 0x24
  | .keygen => plainFields 0x30
  | .sign => plainFields 0x31
  | .signk => plainFields 0x32
  | .verify => plainFields 0x33
  | .sm3init => plainFields 0x40
  | .sm3upd => plainFields 0x41
  | .sm3fin => plainFields 0x42
  | .sm4key => plainFields 0x50
  | .ecbenc => plainFields 0x51
  | .ecbdec => plainFields 0x52
  | .cbcenc pad => { plainFields 0x53 with pad := pad }
  | .cbcdec pad => { plainFields 0x54 with pad := pad }

/-- A command is well formed when the fields that encode it pass every check (30_encoding.md R148). -/
def Instr.wellFormed (i : Instr) : Bool := i.fields.wellFormed

/-- The command word of an instruction (30_encoding.md R147, R152). -/
def encode (i : Instr) : Word := packCmd i.fields

/-- The instruction the decoder reads from a table row's bits: one 32-bit word, the bits above `nbits` zero. -/
def decodeTableWord (nbits w : Nat) : Option Instr :=
  match decode (BitVec.ofNat 32 (w % 2 ^ nbits)) with
  | .ok i => some i
  | .error _ => none

end Sys2Proof
end

