-- ==== Sys2Proof/Machine/Arith.lean ====
section
/-! DEFINITION. The domain parameters (42_curve.md R230) and exact arithmetic modulo p or n (00_scope.md R10,
41_field.md R200-R202). -/
namespace Sys2Proof.Machine

/-- The field prime p (42_curve.md R230). -/
def sm2p : Nat := 0xFFFFFFFEFFFFFFFFFFFFFFFFFFFFFFFFFFFFFFFF00000000FFFFFFFFFFFFFFFF

/-- The curve coefficient a (42_curve.md R230). -/
def sm2a : Nat := 0xFFFFFFFEFFFFFFFFFFFFFFFFFFFFFFFFFFFFFFFF00000000FFFFFFFFFFFFFFFC

/-- The curve coefficient b (42_curve.md R230). -/
def sm2b : Nat := 0x28E9FA9E9D9F5E344D5A9E4BCF6509A7F39789F515AB8F92DDBCBD414D940E93

/-- The group order n (42_curve.md R230). -/
def sm2n : Nat := 0xFFFFFFFEFFFFFFFFFFFFFFFFFFFFFFFF7203DF6B21C6052B53BBF40939D54123

/-- The x coordinate of the base point G (42_curve.md R230). -/
def sm2gx : Nat := 0x32C4AE2C1F1981195F9904466A39C9948FE30BBFF2660BE1715A4589334C74C7

/-- The y coordinate of the base point G (42_curve.md R230). -/
def sm2gy : Nat := 0xBC3736A2F4F6779C59BDCEE36B692153D0A9877CC62A474002DF32E52139F0A0

/-- The modulus M of a field command (41_field.md R200). -/
def modulus : Modulus → Nat
  | .p => sm2p
  | .n => sm2n

/-- `x mod m`, in [0, m) for every integer x, negative ones too (00_scope.md R10). -/
def zmod (x : Int) (m : Nat) : Nat := (x % (m : Int)).toNat

/-- `b ^ e mod m` by squaring, for an exponent below 2 ^ fuel. -/
def powMod (m : Nat) : Nat → Nat → Nat → Nat
  | 0, _, _ => 1 % m
  | fuel + 1, b, e =>
    if e % 2 = 1 then b * powMod m fuel (b * b % m) (e / 2) % m
    else powMod m fuel (b * b % m) (e / 2)

/-- `inv_m(x)` for a prime m below 2 ^ 256 (00_scope.md R10), by Fermat's exponent m - 2 (41_field.md R202 leaves the
method open; log entry 8). -/
def invMod (m x : Nat) : Nat := powMod m 256 x (m - 2)

end Sys2Proof.Machine
end

