-- ==== Sys2Proof/Machine/Group.lean ====
section
/-! DEFINITION. The curve group (42_curve.md R231-R238) and the SM2 signature equations (43_sm2.md R273, R274, R291). -/
namespace Sys2Proof.Machine

/-- A point: O, or affine coordinates (42_curve.md R232). -/
inductive Point where
  | inf
  | aff (x y : Nat)
  deriving DecidableEq, Repr

/-- The base point G (42_curve.md R238). -/
def pointG : Point := .aff sm2gx sm2gy

/-- `Valid(P)` (42_curve.md R233): O, or both coordinates below p and on the curve. -/
def pointValid : Point → Bool
  | .inf => true
  | .aff x y =>
    decide (x < sm2p) && decide (y < sm2p) &&
      decide (zmod ((y * y : Int) - (x * x * x + sm2a * x + sm2b)) sm2p = 0)

/-- The slope of `ecAdd` (42_curve.md R234): the tangent when x1 = x2, else the chord. -/
def ecSlope (x1 y1 x2 y2 : Nat) : Nat :=
  if x1 = x2 then zmod ((3 * (x1 * x1) + sm2a : Int) * invMod sm2p (zmod (2 * y1) sm2p)) sm2p
  else zmod (((y2 : Int) - y1) * invMod sm2p (zmod ((x2 : Int) - x1) sm2p)) sm2p

/-- The group law `ecAdd` (42_curve.md R234). -/
def ecAdd : Point → Point → Point
  | .inf, q => q
  | .aff x1 y1, .inf => .aff x1 y1
  | .aff x1 y1, .aff x2 y2 =>
    if x1 = x2 ∧ (y1 + y2) % sm2p = 0 then .inf
    else
      let l := ecSlope x1 y1 x2 y2
      let x3 := zmod ((l * l : Int) - x1 - x2) sm2p
      .aff x3 (zmod ((l : Int) * ((x1 : Int) - x3) - y1) sm2p)

/-- `ecDbl(P) = ecAdd(P, P)` (42_curve.md R235). -/
def ecDbl (q : Point) : Point := ecAdd q q

/-- The loop of `ecMul` over the bits i-1, ..., 0 of k, from the point reached so far (42_curve.md R236). -/
def ecMulFrom (k : Nat) (q : Point) : Nat → Point → Point
  | 0, r => r
  | i + 1, r =>
    let r2 := ecDbl r
    ecMulFrom k q i (if k.testBit i then ecAdd r2 q else r2)

/-- `ecMul(k, P)` for a 256-bit k (42_curve.md R236). -/
def ecMul (k : Nat) (q : Point) : Point := ecMulFrom k q 256 .inf

/-- The x coordinate; O has none, and no rule reads one (log entry 9). -/
def Point.x : Point → Nat
  | .inf => 0
  | .aff x _ => x

/-- The y coordinate; O has none, and no rule reads one (log entry 9). -/
def Point.y : Point → Nat
  | .inf => 0
  | .aff _ y => y

/-- A private scalar is signable iff 1 ≤ d ≤ n - 2 (43_sm2.md R273). -/
def signable (d : Nat) : Bool := decide (1 ≤ d) && decide (d ≤ sm2n - 2)

/-- The nonce range 1 ≤ k ≤ n - 1 (43_sm2.md R280). -/
def nonceOk (k : Nat) : Bool := decide (1 ≤ k) && decide (k ≤ sm2n - 1)

/-- `SignCore(e, d, k)` (43_sm2.md R274): the signature (r, s), or none for RETRY. -/
def signCore (e d k : Nat) : Option (Nat × Nat) :=
  let r := (e + (ecMul k pointG).x) % sm2n
  if r = 0 ∨ r + k = sm2n then none
  else
    let s := zmod ((invMod sm2n (1 + d) : Int) * ((k : Int) - r * d)) sm2n
    if s = 0 then none else some (r, s)

/-- The point s·G + t·Q of verification (43_sm2.md R291). -/
def verifyPoint (s t : Nat) (q : Point) : Point := ecAdd (ecMul s pointG) (ecMul t q)

/-- `Verify(E, r, s, Q)` (43_sm2.md R291). -/
def sm2Verify (e r s : Nat) (q : Point) : Bool :=
  if !(nonceOk r) || !(nonceOk s) then false
  else if q = .inf ∨ pointValid q = false then false
  else
    let t := (r + s) % sm2n
    if t = 0 then false
    else
      match verifyPoint s t q with
      | .inf => false
      | .aff x1 _ => decide ((e % sm2n + x1) % sm2n = r)

end Sys2Proof.Machine
end

