-- ==== Sys2Proof/Machine/Bytes.lean ====
section
/-! DEFINITION. Byte strings, words and integers, all big-endian (00_scope.md R9-R11, 20_memory.md R102-R104). -/
namespace Sys2Proof.Machine

/-- BE32 of four bytes, the first the most significant (00_scope.md R11). -/
def be32 (b0 b1 b2 b3 : Byte) : Word := b0 ++ b1 ++ b2 ++ b3

/-- W2OS: the four bytes of a word, most significant first (00_scope.md R11). -/
def w2os (w : Word) : List Byte :=
  [w.extractLsb' 24 8, w.extractLsb' 16 8, w.extractLsb' 8 8, w.extractLsb' 0 8]

/-- BE32 of the bytes 4i..4i+3 of a byte string. -/
def wordAt (bs : List Byte) (i : Nat) : Word :=
  be32 (bs.getD (4 * i) 0) (bs.getD (4 * i + 1) 0) (bs.getD (4 * i + 2) 0) (bs.getD (4 * i + 3) 0)

/-- OS2I: the big-endian integer of a byte string (00_scope.md R11). -/
def os2i (bs : List Byte) : Nat := bs.foldl (fun acc b => 256 * acc + b.toNat) 0

/-- I2OS: the L-byte big-endian string of an integer (00_scope.md R11). -/
def i2os (x : Nat) : Nat → List Byte
  | 0 => []
  | l + 1 => BitVec.ofNat 8 (x / 256 ^ l) :: i2os x l

/-- The first `k` pieces of `n` bytes of a byte string. -/
def pieces (n : Nat) : Nat → List Byte → List (List Byte)
  | 0, _ => []
  | k + 1, bs => bs.take n :: pieces n k (bs.drop n)

/-- Word j of a 256-bit register, word 0 the most significant (10_state.md R58). -/
def word256 (x : U256) (j : Fin 8) : Word := x.extractLsb' (224 - 32 * j.val) 32

/-- A 256-bit register with word j replaced (10_state.md R58). -/
def setWord256 (x : U256) (j : Fin 8) (v : Word) : U256 :=
  let low := 224 - 32 * j.val
  (x &&& ~~~((0xFFFFFFFF : U256) <<< low)) ||| (v.setWidth 256 <<< low)

end Sys2Proof.Machine
end

