-- ==== Sys2Proof/Config.lean ====
section
/-! DEFINITION. What the spec fixes for this hardware once (00_scope.md R8), the open parameter BASE, and the free
values, which no definition gives a value. -/
namespace Sys2Proof

/-- The value the ID register always reads (10_state.md R31). -/
def Config.idValue : Word := 0x534D0100

/-- DBUF_SIZE, the bytes of the data buffer (00_scope.md R8, 10_state.md R60). -/
def Config.dbufSize : Nat := 4096

/-- The bytes of the host window (20_memory.md R100). -/
def Config.windowSize : Nat := 8192

/-- The reset value of RETRY (10_state.md R49). -/
def Config.retryReset : Word := 0x00000010

/-- BASE, the bus address of the window: an OPEN platform parameter (00_scope.md R8, 93 U7). -/
opaque Config.base : Nat

/-- ANY_32: the value of the n-th draw, for a host read while busy of a register the command may write
(70_reset_and_hazards.md R462, 93 U1). A free value: it has no body (log entry 4). -/
opaque Config.freeWord : Nat → Word

/-- The byte the n-th draw gives for an unspecified DBUF byte (70_reset_and_hazards.md R450, 93 U2).
A free value: it has no body (log entry 5). -/
opaque Config.freeByte : Nat → Byte

end Sys2Proof
end

