-- ==== Sys2Proof/Machine/State.lean ====
section
/-! DEFINITION. The state of the engine as plain data (10_state.md R65), its reset values (R32, 70_reset_and_hazards.md
R450), and the reasons a step can stop. -/
namespace Sys2Proof.Machine

/-- The phase of the engine (10_state.md R62, 40_control.md R170). -/
inductive Phase where
  /-- STATUS.BUSY = 0. -/
  | idle
  /-- BUSY = 1, RNGW = 0. -/
  | run
  /-- BUSY = 1, RNGW = 1: waiting on the entropy source. -/
  | waitRng
  deriving DecidableEq, Repr

/-- The SM3 context state STATUS.SM3ST (10_state.md R45). -/
inductive Sm3St where
  | idle
  | active
  | final
  deriving DecidableEq, Repr

/-- The error codes (60_exceptions.md R401). Codes 8-15 are never produced and have no constructor (93 U14). -/
inductive ErrCode where
  | none
  | illegalCmd
  | invalidParams
  | randomSource
  | validation
  | signingFailed
  | invalidBlockLength
  | state
  deriving DecidableEq, Repr

/-- The stored fields of STATUS (10_state.md R39), but SM3ST, which lives with the SM3 context (44_sm3.md R319). -/
structure Status where
  busy : Bool
  done : Bool
  err : Bool
  vok : Bool
  rngw : Bool
  errcode : ErrCode
  deriving DecidableEq, Repr

/-- PFLAGS (10_state.md R50). -/
structure PFlags where
  pinf : Bool
  qinf : Bool
  rinf : Bool
  deriving DecidableEq, Repr

/-- The SM3 chaining state V = (V_0, ..., V_7) (10_state.md R53). -/
structure Sm3Words where
  v0 : Word
  v1 : Word
  v2 : Word
  v3 : Word
  v4 : Word
  v5 : Word
  v6 : Word
  v7 : Word
  deriving DecidableEq, Repr

/-- The SM3 context (44_sm3.md R319): SM3ST, V, CNT, PBUF and PLEN. -/
structure Sm3Ctx where
  st : Sm3St
  v : Sm3Words
  cnt : U64
  pbuf : Vector Byte 64
  plen : Fin 64
  deriving DecidableEq, Repr

/-- Four 32-bit words: a 16-byte block or key, word 0 first (45_sm4.md R350; 10_state.md R54, R55). -/
structure Block where
  w0 : Word
  w1 : Word
  w2 : Word
  w3 : Word
  deriving DecidableEq, Repr

/-- The SM4 registers: SM4KEY, SM4CV and SM4RK (10_state.md R54-R56). -/
structure Sm4Ctx where
  key : Block
  cv : Block
  rk : Vector Word 32
  deriving DecidableEq, Repr

/-- The fifteen 256-bit operand registers (10_state.md R57). -/
structure Opnds where
  a : U256
  b : U256
  c : U256
  k : U256
  px : U256
  py : U256
  qx : U256
  qy : U256
  rx : U256
  ry : U256
  d : U256
  e : U256
  sr : U256
  ss : U256
  hd : U256
  deriving DecidableEq, Repr

/-- One answer of the entropy source to a draw (10_state.md R70). -/
inductive RngAnswer where
  | value (v : Nat)
  | wait
  | fail
  deriving DecidableEq, Repr

/-- What a bus access does. -/
inductive AccessKind where
  | read
  | write (data : Word)
  deriving DecidableEq, Repr

/-- One bus access (20_memory.md R105): its offset from BASE (negative below the window), its width in bits, whether
every byte strobe is asserted, and what it does. -/
structure Access where
  off : Int
  bits : Nat
  strobes : Bool
  kind : AccessKind
  deriving DecidableEq, Repr

/-- The bus's response to an access: the error response, and the data of a read (20_memory.md R105, R122). -/
structure BusResp where
  err : Bool
  rdata : Word
  deriving DecidableEq, Repr

/-- Which agent moves in a step (10_state.md R30). -/
inductive Turn where
  /-- The engine takes one step. -/
  | engine
  /-- The host makes one access. -/
  | host (a : Access)
  /-- A host access and an engine step fall in the same step (60_exceptions.md R417). -/
  | both (a : Access)
  /-- The platform's reset input (70_reset_and_hazards.md R450). -/
  | hardReset
  deriving DecidableEq, Repr

/-- DBUF as (offset, byte) pairs, offsets strictly rising; an offset not listed holds an unspecified byte
(10_state.md R65: `none`). -/
abbrev Memory := List Host.Cell

/-- The state (10_state.md R65, R62). The last four fields are the model's own: the coming turns of the agents, the
coming answers of the entropy source, the counter of the free values, and the bus's last response. -/
structure State where
  /-- CTRL.IE (R34). -/
  ie : Bool
  /-- CMD (R38). -/
  cmd : Word
  /-- STATUS (R39). -/
  status : Status
  /-- IRQSTAT.DONE (R46). -/
  irqDone : Bool
  /-- SRC (R47). -/
  src : Word
  /-- DST (R47). -/
  dst : Word
  /-- LEN (R47). -/
  len : Word
  /-- OUTLEN (R48). -/
  outlen : Word
  /-- RETRY (R49). -/
  retry : Word
  /-- PFLAGS (R50). -/
  pflags : PFlags
  /-- The SM3 context (R51-R53, R63). -/
  sm3 : Sm3Ctx
  /-- The SM4 registers (R54-R56). -/
  sm4 : Sm4Ctx
  /-- The operand registers (R57). -/
  opnd : Opnds
  /-- DBUF (R60). -/
  dbuf : Memory
  /-- CMDL, the latched command word (R33). -/
  cmdl : Word
  /-- PHASE (R62). -/
  phase : Phase
  /-- SIGN's count of attempts that returned RETRY (R62, 43_sm2.md R281). -/
  attempt : Nat
  /-- The nonce k of SIGN's current attempt, from its draw until it is discarded (R62, 43_sm2.md R281; log entry 16). -/
  nonce : Option Nat
  /-- The coming turns of the agents; when none is left, the engine moves (log entry 1). -/
  turns : List Turn
  /-- The coming answers of the entropy source; when none is left, it withholds (log entry 3). -/
  rng : List RngAnswer
  /-- How many free values have been drawn (log entries 4 and 5). -/
  draws : Nat
  /-- The bus's response to the last access (20_memory.md R122). -/
  resp : Option BusResp
  deriving DecidableEq, Repr

/-- STATUS after reset (10_state.md R39). -/
def Status.reset : Status :=
  { busy := false, done := false, err := false, vok := false, rngw := false, errcode := .none }

/-- PFLAGS after reset (10_state.md R50). -/
def PFlags.reset : PFlags := { pinf := false, qinf := false, rinf := false }

/-- Eight zero words. -/
def Sm3Words.zero : Sm3Words := ⟨0, 0, 0, 0, 0, 0, 0, 0⟩

/-- PBUF cleared to 64 zero bytes (10_state.md R63). -/
def pbufZero : Vector Byte 64 := Vector.replicate 64 0

/-- The SM3 context after reset (70_reset_and_hazards.md R450). -/
def Sm3Ctx.reset : Sm3Ctx :=
  { st := .idle, v := Sm3Words.zero, cnt := 0, pbuf := pbufZero, plen := 0 }

/-- Four zero words. -/
def Block.zero : Block := ⟨0, 0, 0, 0⟩

/-- The SM4 registers after reset (70_reset_and_hazards.md R450). -/
def Sm4Ctx.reset : Sm4Ctx :=
  { key := Block.zero, cv := Block.zero, rk := Vector.replicate 32 0 }

/-- The operand registers after reset (10_state.md R57). -/
def Opnds.reset : Opnds := ⟨0, 0, 0, 0, 0, 0, 0, 0, 0, 0, 0, 0, 0, 0, 0⟩

/-- The machine right after hardware reset (70_reset_and_hazards.md R450, 10_state.md R32): no DBUF byte is listed,
so every one is unspecified. The model's own fields are empty (log entry 14). -/
def State.reset : State :=
  { ie := false
    cmd := 0
    status := Status.reset
    irqDone := false
    src := 0
    dst := 0
    len := 0
    outlen := 0
    retry := Config.retryReset
    pflags := PFlags.reset
    sm3 := Sm3Ctx.reset
    sm4 := Sm4Ctx.reset
    opnd := Opnds.reset
    dbuf := []
    cmdl := 0
    phase := .idle
    attempt := 0
    nonce := none
    turns := []
    rng := []
    draws := 0
    resp := none }

/-- Why a step stops with a fault. No step of this hardware does: an error is a command's outcome
(60_exceptions.md R400), and a rejected bus access has the bus's error response and no other effect
(20_memory.md R105, 60_exceptions.md R406), which the model keeps in `State.resp`. So there is no constructor. -/
inductive Fault where
  deriving DecidableEq, Repr

/-- Why a step is refused. -/
inductive Refusal where
  /-- Raised by an arm of `exec` whose instruction has no meaning yet; no arm does. Safe: the model stops. -/
  | notModelled (mnemonic : String)
  deriving DecidableEq, Repr

end Sys2Proof.Machine
end

