-- ==== Sys2Proof/Machine/Flags.lean ====
section
/-! DEFINITION. The words the flags make (10_state.md R34, R39, R46, R50), and the interrupt output (R71). -/
namespace Sys2Proof.Machine

/-- The number of an error code (60_exceptions.md R401). -/
def ErrCode.code : ErrCode → BitVec 4
  | .none => 0
  | .illegalCmd => 1
  | .invalidParams => 2
  | .randomSource => 3
  | .validation => 4
  | .signingFailed => 5
  | .invalidBlockLength => 6
  | .state => 7

/-- The number of an SM3 context state (10_state.md R45). -/
def Sm3St.code : Sm3St → BitVec 2
  | .idle => 0
  | .active => 1
  | .final => 2

/-- The STATUS word (10_state.md R39): from bit 31 down, reserved zeros, ERRCODE, a reserved zero, SM3ST, RNGW, VOK,
ERR, DONE, BUSY. -/
def statusWord (st : Status) (sm3st : Sm3St) : Word :=
  (0 : BitVec 20) ++ st.errcode.code ++ (0 : BitVec 1) ++ sm3st.code ++ BitVec.ofBool st.rngw ++
    BitVec.ofBool st.vok ++ BitVec.ofBool st.err ++ BitVec.ofBool st.done ++ BitVec.ofBool st.busy

/-- The CTRL word: IE in bit 2, START and SRST read 0 (10_state.md R34). -/
def ctrlWord (ie : Bool) : Word := (0 : BitVec 29) ++ BitVec.ofBool ie ++ (0 : BitVec 2)

/-- The IRQSTAT word (10_state.md R46). -/
def irqstatWord (d : Bool) : Word := (0 : BitVec 31) ++ BitVec.ofBool d

/-- The PFLAGS word (10_state.md R50). -/
def pflagsWord (f : PFlags) : Word :=
  (0 : BitVec 29) ++ BitVec.ofBool f.rinf ++ BitVec.ofBool f.qinf ++ BitVec.ofBool f.pinf

/-- PFLAGS as a host write sets it: the three low bits, the others ignored (10_state.md R50). -/
def PFlags.ofWord (v : Word) : PFlags := ⟨v.getLsbD 0, v.getLsbD 1, v.getLsbD 2⟩

/-- The interrupt output irq = IRQSTAT.DONE & CTRL.IE (10_state.md R71). -/
def State.irq (s : State) : Bool := s.irqDone && s.ie

end Sys2Proof.Machine
end

