-- ==== Sys2Proof/Machine/Ops.lean ====
section
/-! DEFINITION. The shared operations: DBUF, free values, the operand registers by name, the start of a command, its
completion with and without an error (40_control.md R171, R175), and what both resets clear. -/
namespace Sys2Proof.Machine

/-- The canonical form of DBUF: offsets strictly rising and inside the buffer (10_state.md R60). -/
abbrev Memory.wf (m : Memory) : Prop :=
  (m.map Prod.fst).Pairwise (· < ·) ∧ ∀ c ∈ m, c.1 < Config.dbufSize

/-- The byte at an offset; none where it is unspecified (10_state.md R65). -/
def Memory.read : Memory → Nat → Option Byte
  | [], _ => none
  | c :: m, x => if c.1 = x then some c.2 else Memory.read m x

/-- One byte written, the offsets kept rising. -/
def Memory.write : Memory → Nat → Byte → Memory
  | [], x, v => [(x, v)]
  | c :: m, x, v =>
    if x < c.1 then (x, v) :: c :: m
    else if x = c.1 then (x, v) :: m
    else c :: Memory.write m x v

/-- A byte string written from an offset on: `MemWrite` (00_scope.md R13). -/
def Memory.writeBytes : Memory → Nat → List Byte → Memory
  | m, _, [] => m
  | m, x, b :: bs => Memory.writeBytes (Memory.write m x b) (x + 1) bs

/-- The bytes of [x, x + l) made unspecified (70_reset_and_hazards.md R451). -/
def Memory.forget (m : Memory) (x l : Nat) : Memory :=
  m.filter (fun c => !(decide (x ≤ c.1) && decide (c.1 < x + l)))

/-- DBUF with every byte defined and zero (40_control.md R182). -/
def Memory.zeroed : Memory := (List.range Config.dbufSize).map (fun x => (x, (0 : Byte)))

/-- The byte a read of an offset gives: the byte held, or the `i`-th coming draw where it is unspecified
(70_reset_and_hazards.md R450, 93 U2; log entry 5). -/
def State.byteAt (s : State) (x i : Nat) : Byte :=
  (Memory.read s.dbuf x).getD (Config.freeByte (s.draws + i))

/-- `MemRead(x, l)` (00_scope.md R13). -/
def State.memRead (s : State) (x l : Nat) : List Byte :=
  (List.range l).map (fun i => s.byteAt (x + i) i)

/-- `n` draws used. -/
def State.drew (s : State) (n : Nat) : State := { s with draws := s.draws + n }

/-- `MemWrite` (00_scope.md R13). -/
def State.memWrite (s : State) (x : Nat) (bs : List Byte) : State :=
  { s with dbuf := Memory.writeBytes s.dbuf x bs }

/-- The names of the operand registers (10_state.md R57), in offset order. -/
inductive Opnd where
  | a | b | c | k | px | py | qx | qy | rx | ry | d | e | sr | ss | hd
  deriving DecidableEq, Repr

/-- The operand register at 0x100 + 0x20 * i (10_state.md R57). -/
def Opnd.ofIndex : Nat → Opnd
  | 0 => .a
  | 1 => .b
  | 2 => .c
  | 3 => .k
  | 4 => .px
  | 5 => .py
  | 6 => .qx
  | 7 => .qy
  | 8 => .rx
  | 9 => .ry
  | 10 => .d
  | 11 => .e
  | 12 => .sr
  | 13 => .ss
  | _ => .hd

/-- An operand register by name (10_state.md R57). -/
def Opnds.get (o : Opnds) : Opnd → U256
  | .a => o.a
  | .b => o.b
  | .c => o.c
  | .k => o.k
  | .px => o.px
  | .py => o.py
  | .qx => o.qx
  | .qy => o.qy
  | .rx => o.rx
  | .ry => o.ry
  | .d => o.d
  | .e => o.e
  | .sr => o.sr
  | .ss => o.ss
  | .hd => o.hd

/-- An operand register written (10_state.md R57). -/
def Opnds.set (o : Opnds) (r : Opnd) (v : U256) : Opnds :=
  match r with
  | .a => { o with a := v }
  | .b => { o with b := v }
  | .c => { o with c := v }
  | .k => { o with k := v }
  | .px => { o with px := v }
  | .py => { o with py := v }
  | .qx => { o with qx := v }
  | .qy => { o with qy := v }
  | .rx => { o with rx := v }
  | .ry => { o with ry := v }
  | .d => { o with d := v }
  | .e => { o with e := v }
  | .sr => { o with sr := v }
  | .ss => { o with ss := v }
  | .hd => { o with hd := v }

/-- Word i of four (10_state.md R54, R55). -/
def Block.word (x : Block) (i : Fin 4) : Word :=
  match i with
  | 0 => x.w0
  | 1 => x.w1
  | 2 => x.w2
  | 3 => x.w3

/-- Word i of four written. -/
def Block.setWord (x : Block) (i : Fin 4) (v : Word) : Block :=
  match i with
  | 0 => { x with w0 := v }
  | 1 => { x with w1 := v }
  | 2 => { x with w2 := v }
  | 3 => { x with w3 := v }

/-- V_i (10_state.md R53). -/
def Sm3Words.word (x : Sm3Words) (i : Fin 8) : Word :=
  match i with
  | 0 => x.v0
  | 1 => x.v1
  | 2 => x.v2
  | 3 => x.v3
  | 4 => x.v4
  | 5 => x.v5
  | 6 => x.v6
  | 7 => x.v7

/-- `StartCommand()` (40_control.md R171): CMD is latched into CMDL and the old outcome is cleared. No in-flight value
is held at a start. -/
def State.startCommand (s : State) : State :=
  { s with
    cmdl := s.cmd
    status := { s.status with busy := true, done := false, err := false, vok := false, errcode := .none }
    phase := .run
    attempt := 0
    nonce := none }

/-- `Complete(outcome)` (40_control.md R175), on a state that already holds the command's result writes: the error
code (none for success) and VOK are reported, and in-flight values are discarded (10_state.md R62). -/
def State.complete (s : State) (code : ErrCode) (vok : Bool) : State :=
  { s with
    status :=
      { busy := false, done := true, err := decide (code ≠ .none), vok := vok, rngw := false, errcode := code }
    irqDone := true
    phase := .idle
    attempt := 0
    nonce := none }

/-- `done`: a successful completion (00_scope.md R14). -/
def State.done (s : State) : State := s.complete .none false

/-- `raise`: taking an error, which ends the command (00_scope.md R14, 60_exceptions.md R400, R410). There is no
handler and no saved state; the return from it is the next `State.startCommand` (R411). -/
def State.raise (s : State) (code : ErrCode) : State := s.complete code false

/-- The engine waits for the entropy source (10_state.md R70): PHASE and RNGW say so, and nothing completes. -/
def State.waitRng (s : State) : State :=
  { s with status := { s.status with rngw := true }, phase := .waitRng }

/-- Every register, field and hidden value at its reset value; DBUF and what reset does not touch are kept
(70_reset_and_hazards.md R450, R451, R453). -/
def State.cleared (s : State) : State :=
  { State.reset with dbuf := s.dbuf, turns := s.turns, rng := s.rng, draws := s.draws, resp := s.resp }

/-- `HardReset()` (70_reset_and_hazards.md R450): DBUF becomes unspecified as well. -/
def State.hardReset (s : State) : State := { s.cleared with dbuf := [] }

end Sys2Proof.Machine
end

