-- ==== Sys2Proof/Machine/Operands.lean ====
section
/-! DEFINITION. The operand forms of the commands (30_encoding.md R145): field operands, points in registers, DBUF
regions, the checks of each, and the draws of the entropy source. -/
namespace Sys2Proof.Machine

/-- A register value as an element below the modulus (41_field.md R201). -/
def canonical (m : Modulus) (x : U256) : Bool := decide (x.toNat < modulus m)

/-- A point in two registers and an infinity flag (42_curve.md R232). -/
def pointOf (inf : Bool) (x y : U256) : Point := if inf then .inf else .aff x.toNat y.toNat

/-- Pt(P) (42_curve.md R232). -/
def State.ptP (s : State) : Point := pointOf s.pflags.pinf s.opnd.px s.opnd.py

/-- Pt(Q) (42_curve.md R232). -/
def State.ptQ (s : State) : Point := pointOf s.pflags.qinf s.opnd.qx s.opnd.qy

/-- `WriteR` (42_curve.md R237): the result point into RX, RY and RINF. -/
def State.writeR (s : State) (q : Point) : State :=
  match q with
  | .inf => { s with pflags := { s.pflags with rinf := true }, opnd := { s.opnd with rx := 0, ry := 0 } }
  | .aff x y =>
    { s with
      pflags := { s.pflags with rinf := false }
      opnd := { s.opnd with rx := BitVec.ofNat 256 x, ry := BitVec.ofNat 256 y } }

/-- A DBUF region is valid (20_memory.md R112): unbounded arithmetic, no wrap. -/
def validRegion (off len : Nat) : Bool :=
  decide (off ≤ Config.dbufSize) && decide (len ≤ Config.dbufSize - off)

/-- The regions of an SM4 mode command start together or are disjoint; a region of length 0 is disjoint from every
region (20_memory.md R113; log entry 12). -/
def regionsAgree (src len dst outlen : Nat) : Bool :=
  decide (dst = src) || decide (dst + outlen ≤ src) || decide (src + len ≤ dst) ||
    decide (len = 0) || decide (outlen = 0)

/-- CBCENC's output length: a whole pad block is added to whole blocks (45_sm4.md R370). -/
def cbcEncLen (pad : Bool) (len : Nat) : Nat := if pad then len + 16 - len % 16 else len

/-- The output length of an SM4 mode command (45_sm4.md R365, R366, R370, R375); none for another command. -/
def modeOutLen (i : Instr) (len : Nat) : Option Nat :=
  match i with
  | .ecbenc => some len
  | .ecbdec => some len
  | .cbcenc pad => some (cbcEncLen pad len)
  | .cbcdec _ => some len
  | _ => none

/-- The length an SM4 mode command does not take (45_sm4.md R365, R370, R375). -/
def badBlockLength (i : Instr) (len : Nat) : Bool :=
  match i with
  | .cbcenc true => false
  | .cbcdec true => decide (len % 16 ≠ 0) || decide (len = 0)
  | _ => decide (len % 16 ≠ 0)

/-- Checks 1-4 of an SM4 mode command, in order (45_sm4.md R361), for its output length. -/
def modeChecks (i : Instr) (outlen : Nat) (s : State) : ErrCode :=
  let src := s.src.toNat
  let dst := s.dst.toNat
  let len := s.len.toNat
  if !(validRegion src len) then .invalidParams
  else if !(validRegion dst outlen) then .invalidParams
  else if !(regionsAgree src len dst outlen) then .invalidParams
  else if badBlockLength i len then .invalidBlockLength
  else .none

/-- What a draw of RandScalar(lo, hi) gives (10_state.md R70). -/
inductive Draw where
  | got (v : Nat)
  | wait
  | fail
  deriving DecidableEq, Repr

/-- An answer of the source to RandScalar(lo, hi) (00_scope.md R15). The source gives no value outside the range; a
listed answer that is outside it is read as withheld (log entry 3). -/
def RngAnswer.draw (lo hi : Nat) : RngAnswer → Draw
  | .value v => if lo ≤ v ∧ v ≤ hi then .got v else .wait
  | .wait => .wait
  | .fail => .fail

end Sys2Proof.Machine
end

