-- ==== Sys2Proof/Machine/Bus.lean ====
section
/-! DEFINITION. The host's accesses to the register window (20_memory.md R105, R122; 10_state.md R32) and the soft
reset (70_reset_and_hazards.md R451). -/
namespace Sys2Proof.Machine

/-- What a word offset of the window names (10_state.md R32). -/
inductive Reg where
  | id | ctrl | cmd | status | irqstat | src | dst | len | outlen | retry | pflags
  | sm3cnth | sm3cntl | sm3pend
  | sm3v (i : Fin 8)
  | sm4key (i : Fin 4)
  | sm4cv (i : Fin 4)
  | sm4rk (i : Fin 32)
  | opnd (r : Opnd) (j : Fin 8)
  | dbuf (x : Nat)
  | reserved
  deriving DecidableEq, Repr

/-- The registers at the offsets of 0x040 and above (10_state.md R32). -/
def regAbove (off : Nat) : Reg :=
  if off < 0x040 then .reserved
  else if off < 0x060 then .sm3v (Fin.ofNat 8 ((off - 0x040) / 4))
  else if off < 0x070 then .sm4key (Fin.ofNat 4 ((off - 0x060) / 4))
  else if off < 0x080 then .sm4cv (Fin.ofNat 4 ((off - 0x070) / 4))
  else if off < 0x100 then .sm4rk (Fin.ofNat 32 ((off - 0x080) / 4))
  else if off < 0x2E0 then
    .opnd (Opnd.ofIndex ((off - 0x100) / 0x20)) (Fin.ofNat 8 ((off - 0x100) % 0x20 / 4))
  else if off < 0x1000 then .reserved
  else .dbuf (off - 0x1000)

/-- The register at a word offset (10_state.md R32). -/
def regAt (off : Nat) : Reg :=
  match off with
  | 0x000 => .id
  | 0x004 => .ctrl
  | 0x008 => .cmd
  | 0x00C => .status
  | 0x010 => .irqstat
  | 0x014 => .src
  | 0x018 => .dst
  | 0x01C => .len
  | 0x020 => .outlen
  | 0x024 => .retry
  | 0x028 => .pflags
  | 0x02C => .sm3cnth
  | 0x030 => .sm3cntl
  | 0x034 => .sm3pend
  | _ => regAbove off

/-- The registers that read exactly while a command runs, and the reserved offsets (70_reset_and_hazards.md R462,
20_memory.md R122). -/
def Reg.exactWhileBusy : Reg → Bool
  | .id | .ctrl | .cmd | .status | .irqstat | .src | .dst | .len | .retry | .reserved => true
  | _ => false

/-- How many free values an exact read may draw: one for each byte of a DBUF word (log entry 5). -/
def Reg.readDraws : Reg → Nat
  | .dbuf _ => 4
  | _ => 0

/-- The stored word a read returns (20_memory.md R122, R101; 10_state.md R58). -/
def State.regRead (s : State) (r : Reg) : Word :=
  match r with
  | .id => Config.idValue
  | .ctrl => ctrlWord s.ie
  | .cmd => s.cmd
  | .status => statusWord s.status s.sm3.st
  | .irqstat => irqstatWord s.irqDone
  | .src => s.src
  | .dst => s.dst
  | .len => s.len
  | .outlen => s.outlen
  | .retry => s.retry
  | .pflags => pflagsWord s.pflags
  | .sm3cnth => s.sm3.cnt.extractLsb' 32 32
  | .sm3cntl => s.sm3.cnt.extractLsb' 0 32
  | .sm3pend => BitVec.ofNat 32 s.sm3.plen.val
  | .sm3v i => s.sm3.v.word i
  | .sm4key i => s.sm4.key.word i
  | .sm4cv i => s.sm4.cv.word i
  | .sm4rk i => s.sm4.rk[i]
  | .opnd r j => word256 (s.opnd.get r) j
  | .dbuf x => be32 (s.byteAt x 0) (s.byteAt (x + 1) 1) (s.byteAt (x + 2) 2) (s.byteAt (x + 3) 3)
  | .reserved => 0

/-- `HostRead` (20_memory.md R122): the only change is the response and the draws used. -/
def State.hostRead (s : State) (r : Reg) : State :=
  if s.status.busy && !r.exactWhileBusy then
    { s.drew 1 with resp := some ⟨false, Config.freeWord s.draws⟩ }
  else { s.drew r.readDraws with resp := some ⟨false, s.regRead r⟩ }

/-- What a running SM4 mode command whose checks 1-4 passed may have written: its output region
(70_reset_and_hazards.md R451). -/
def State.abortedRegion (s : State) : Option (Nat × Nat) :=
  if s.phase = .idle then none
  else
    match decode s.cmdl with
    | .ok i =>
      match modeOutLen i s.len.toNat with
      | some outlen => if modeChecks i outlen s = .none then some (s.dst.toNat, outlen) else none
      | none => none
    | .error _ => none

/-- `SoftReset()` (70_reset_and_hazards.md R451): DBUF is kept but for the output region of an aborted SM4 mode
command, which becomes unspecified (log entry 7). -/
def State.softReset (s : State) : State :=
  match s.abortedRegion with
  | some (x, l) => { s.cleared with dbuf := Memory.forget s.dbuf x l }
  | none => s.cleared

/-- A write to CTRL (20_memory.md R122): SRST first and alone, then IE, then START while idle (R461). -/
def State.writeCtrl (s : State) (v : Word) : State :=
  if v.getLsbD 1 then s.softReset
  else
    let t := { s with ie := v.getLsbD 2 }
    if v.getLsbD 0 && !s.status.busy then t.startCommand else t

/-- A write to IRQSTAT: writing 1 to bit 0 clears DONE (10_state.md R46). -/
def State.writeIrqstat (s : State) (v : Word) : State :=
  if v.getLsbD 0 then { s with irqDone := false } else s

/-- A write to a register while the engine is idle (20_memory.md R122): a read-only or reserved offset ignores it. -/
def State.regWrite (s : State) (r : Reg) (v : Word) : State :=
  match r with
  | .cmd => { s with cmd := v }
  | .src => { s with src := v }
  | .dst => { s with dst := v }
  | .len => { s with len := v }
  | .retry => { s with retry := v }
  | .pflags => { s with pflags := PFlags.ofWord v }
  | .sm4key i => { s with sm4 := { s.sm4 with key := s.sm4.key.setWord i v } }
  | .sm4cv i => { s with sm4 := { s.sm4 with cv := s.sm4.cv.setWord i v } }
  | .sm4rk i => { s with sm4 := { s.sm4 with rk := s.sm4.rk.set i.val v i.isLt } }
  | .opnd r j => { s with opnd := s.opnd.set r (setWord256 (s.opnd.get r) j v) }
  | .dbuf x => s.memWrite x (w2os v)
  | .id | .ctrl | .status | .irqstat | .outlen | .sm3cnth | .sm3cntl | .sm3pend | .sm3v _ | .reserved => s

/-- The effect of a host write (20_memory.md R122): CTRL and IRQSTAT always, every other register only while idle
(70_reset_and_hazards.md R460). -/
def State.writeEffect (s : State) (r : Reg) (v : Word) : State :=
  match r with
  | .ctrl => s.writeCtrl v
  | .irqstat => s.writeIrqstat v
  | r => if s.status.busy then s else s.regWrite r v

/-- `HostWrite` (20_memory.md R122) with the bus's response. -/
def State.hostWrite (s : State) (r : Reg) (v : Word) : State :=
  { s.writeEffect r v with resp := some ⟨false, 0⟩ }

/-- The window takes an access: all 32 bits of an aligned word inside it (20_memory.md R105, R106). -/
def Access.accepted (a : Access) : Bool :=
  decide (0 ≤ a.off) && decide (a.off < Config.windowSize) && decide (a.off % 4 = 0) &&
    decide (a.bits = 32) && a.strobes

/-- A bus access: a rejected one has the error response, data 0, and no other effect (20_memory.md R105,
60_exceptions.md R406; log entry 6). -/
def State.busAccess (s : State) (a : Access) : State :=
  if a.accepted then
    match a.kind with
    | .read => s.hostRead (regAt a.off.toNat)
    | .write v => s.hostWrite (regAt a.off.toNat) v
  else { s with resp := some ⟨true, 0⟩ }

/-- An aligned 32-bit read of a window offset. -/
def Access.rd (off : Nat) : Access := { off := off, bits := 32, strobes := true, kind := .read }

/-- An aligned 32-bit write of a window offset. -/
def Access.wr (off : Nat) (v : Word) : Access := { off := off, bits := 32, strobes := true, kind := .write v }

/-- The access at a bus address of the platform (00_scope.md R8: BASE is open). -/
def Access.atAddress (addr bits : Nat) (strobes : Bool) (kind : AccessKind) : Access :=
  { off := (addr : Int) - Config.base, bits := bits, strobes := strobes, kind := kind }

end Sys2Proof.Machine
end

