-- ==== Sys2Proof/Machine/Control.lean ====
section
/-! DEFINITION. The control commands (40_control.md R180, R182). -/
namespace Sys2Proof.Machine

/-- NOP (40_control.md R180). -/
def execNop (s : State) : Host.Outcome State Fault Refusal := .next s.done

/-- What ZEROIZE clears (40_control.md R182): operands, PFLAGS, the SM4 registers, the SM3 context, OUTLEN and DBUF. -/
def State.zeroized (s : State) : State :=
  { s with
    opnd := Opnds.reset
    pflags := PFlags.reset
    sm4 := Sm4Ctx.reset
    sm3 := Sm3Ctx.reset
    outlen := 0
    dbuf := Memory.zeroed }

/-- ZEROIZE (40_control.md R182). -/
def execZeroize (s : State) : Host.Outcome State Fault Refusal := .next s.zeroized.done

end Sys2Proof.Machine
end

