-- ==== Sys2Proof/Machine/Curve.lean ====
section
/-! DEFINITION. The curve commands (42_curve.md R245-R250). -/
namespace Sys2Proof.Machine

/-- PADD (42_curve.md R245). -/
def execPadd (s : State) : Host.Outcome State Fault Refusal :=
  .next
    (if pointValid s.ptP && pointValid s.ptQ then (s.writeR (ecAdd s.ptP s.ptQ)).done
    else s.raise .validation)

/-- PDBL (42_curve.md R246). -/
def execPdbl (s : State) : Host.Outcome State Fault Refusal :=
  .next (if pointValid s.ptP then (s.writeR (ecDbl s.ptP)).done else s.raise .validation)

/-- PMUL (42_curve.md R247). -/
def execPmul (s : State) : Host.Outcome State Fault Refusal :=
  .next
    (if pointValid s.ptP then (s.writeR (ecMul s.opnd.k.toNat s.ptP)).done
    else s.raise .validation)

/-- PMULG (42_curve.md R248). -/
def execPmulg (s : State) : Host.Outcome State Fault Refusal :=
  .next (s.writeR (ecMul s.opnd.k.toNat pointG)).done

/-- PCHK (42_curve.md R250): the answer is VOK, never an error. -/
def execPchk (s : State) : Host.Outcome State Fault Refusal :=
  .next (s.complete .none (pointValid s.ptP))

end Sys2Proof.Machine
end

