-- ==== Sys2Proof/Machine/Field.lean ====
section
/-! DEFINITION. The field commands (41_field.md R210-R214). -/
namespace Sys2Proof.Machine

/-- C written (41_field.md R203). -/
def State.writeC (s : State) (v : Nat) : State := { s with opnd := { s.opnd with c := BitVec.ofNat 256 v } }

/-- A field command of two operands: both in range, else INVALID_PARAMS (41_field.md R201); `f` is the exact value
before reduction. -/
def fieldBinary (m : Modulus) (f : Int → Int → Int) (s : State) : State :=
  if canonical m s.opnd.a && canonical m s.opnd.b then
    (s.writeC (zmod (f s.opnd.a.toNat s.opnd.b.toNat) (modulus m))).done
  else s.raise .invalidParams

/-- FADD (41_field.md R210). -/
def execFadd (m : Modulus) (s : State) : Host.Outcome State Fault Refusal :=
  .next (fieldBinary m (fun a b => a + b) s)

/-- FSUB (41_field.md R211). -/
def execFsub (m : Modulus) (s : State) : Host.Outcome State Fault Refusal :=
  .next (fieldBinary m (fun a b => a - b) s)

/-- FMUL (41_field.md R212). -/
def execFmul (m : Modulus) (s : State) : Host.Outcome State Fault Refusal :=
  .next (fieldBinary m (fun a b => a * b) s)

/-- FINV (41_field.md R213): 0 < A < M, else INVALID_PARAMS. -/
def execFinv (m : Modulus) (s : State) : Host.Outcome State Fault Refusal :=
  .next
    (if decide (s.opnd.a.toNat ≠ 0) && canonical m s.opnd.a then
      (s.writeC (invMod (modulus m) s.opnd.a.toNat)).done
    else s.raise .invalidParams)

/-- FRED (41_field.md R214): any operand. -/
def execFred (m : Modulus) (s : State) : Host.Outcome State Fault Refusal :=
  .next (s.writeC (s.opnd.a.toNat % modulus m)).done

end Sys2Proof.Machine
end

