-- ==== Sys2Proof/Machine/Sm2.lean ====
section
/-! DEFINITION. SM2 key generation, signing and verification (43_sm2.md R276-R291). -/
namespace Sys2Proof.Machine

/-- The key pair of the drawn scalar into D, QX, QY and QINF (43_sm2.md R276). -/
def State.writeKeyPair (s : State) (d : Nat) : State :=
  let q := ecMul d pointG
  { s with
    opnd := { s.opnd with d := BitVec.ofNat 256 d, qx := BitVec.ofNat 256 q.x, qy := BitVec.ofNat 256 q.y }
    pflags := { s.pflags with qinf := false } }

/-- KEYGEN (43_sm2.md R276): one draw of RandScalar(1, n - 2). -/
def execKeygen (s : State) : Host.Outcome State Fault Refusal :=
  .next
    (match s.rng with
    | [] => s.waitRng
    | ans :: rest =>
      let t := { s with rng := rest }
      match ans.draw 1 (sm2n - 2) with
      | .got d => (t.writeKeyPair d).done
      | .wait => t.waitRng
      | .fail => t.raise .randomSource)

/-- The signature into SR and SS (43_sm2.md R281, R285). -/
def State.writeSig (s : State) (r t : Nat) : State :=
  { s with opnd := { s.opnd with sr := BitVec.ofNat 256 r, ss := BitVec.ofNat 256 t } }

/-- An attempt's draw: `rest` is still to come, and k is the nonce of the current attempt (10_state.md R62). -/
def State.drewNonce (s : State) (rest : List RngAnswer) (k : Nat) : State := { s with rng := rest, nonce := some k }

/-- The current attempt: SignCore on E mod n, D and the nonce held, `none` being RETRY (43_sm2.md R274, R281). -/
def State.attemptSign (s : State) : Option (Nat × Nat) :=
  s.nonce.bind (signCore (s.opnd.e.toNat % sm2n) s.opnd.d.toNat)

/-- RETRY: the attempt is counted, and its nonce discarded (43_sm2.md R281). -/
def State.retried (s : State) : State := { s with attempt := s.attempt + 1, nonce := none }

/-- The engine waits between two attempts: the last one's nonce is discarded (43_sm2.md R281). -/
def State.waitAttempt (s : State) (rest : List RngAnswer) : State := { s with rng := rest, nonce := none }.waitRng

/-- The attempts of SIGN (43_sm2.md R281) over the coming answers, `attempt` of them already made: a signature, an
error, or a wait for the source before the next draw. -/
def signLoop : State → List RngAnswer → State
  | s, [] => s.waitAttempt []
  | s, ans :: rest =>
    match ans.draw 1 (sm2n - 1) with
    | .got k =>
      let u := s.drewNonce rest k
      match u.attemptSign with
      | some (r, t) => (u.writeSig r t).done
      | none =>
        if u.attempt + 1 < u.retry.toNat then signLoop u.retried rest
        else u.raise .signingFailed
    | .wait => s.waitAttempt rest
    | .fail => { s with rng := rest }.raise .randomSource

/-- SIGN (43_sm2.md R281): the range checks of R280, then the attempts, from the one a wait left off at. -/
def execSign (s : State) : Host.Outcome State Fault Refusal :=
  .next
    (if signable s.opnd.d.toNat && decide (s.retry.toNat ≠ 0) then signLoop s s.rng
    else s.raise .invalidParams)

/-- SIGNK (43_sm2.md R285): one attempt with the nonce in K. -/
def execSignk (s : State) : Host.Outcome State Fault Refusal :=
  .next
    (if signable s.opnd.d.toNat && nonceOk s.opnd.k.toNat then
      match signCore (s.opnd.e.toNat % sm2n) s.opnd.d.toNat s.opnd.k.toNat with
      | some (r, t) => (s.writeSig r t).done
      | none => s.raise .signingFailed
    else s.raise .invalidParams)

/-- VERIFY (43_sm2.md R290): the answer is VOK, never an error. -/
def execVerify (s : State) : Host.Outcome State Fault Refusal :=
  .next (s.complete .none (sm2Verify s.opnd.e.toNat s.opnd.sr.toNat s.opnd.ss.toNat s.ptQ))

end Sys2Proof.Machine
end

