-- ==== Sys2Proof/Machine/Hash.lean ====
section
/-! DEFINITION. The SM3 function (44_sm3.md R311-R318). -/
namespace Sys2Proof.Machine

/-- The initial value IV (44_sm3.md R311). -/
def sm3IV : Sm3Words :=
  ⟨0x7380166F, 0x4914B2B9, 0x172442D7, 0xDA8A0600, 0xA96F30BC, 0x163138AA, 0xE38DEE4D, 0xB0FB0E4E⟩

/-- The round constants T_j (44_sm3.md R312). -/
def sm3T (j : Nat) : Word := if j < 16 then 0x79CC4519 else 0x7A879D8A

/-- FF_j (44_sm3.md R313). -/
def sm3FF (j : Nat) (x y z : Word) : Word :=
  if j < 16 then x ^^^ y ^^^ z else (x &&& y) ||| (x &&& z) ||| (y &&& z)

/-- GG_j (44_sm3.md R313). -/
def sm3GG (j : Nat) (x y z : Word) : Word :=
  if j < 16 then x ^^^ y ^^^ z else (x &&& y) ||| (~~~x &&& z)

/-- P0 (44_sm3.md R314). -/
def sm3P0 (x : Word) : Word := x ^^^ x.rotateLeft 9 ^^^ x.rotateLeft 17

/-- P1 (44_sm3.md R314). -/
def sm3P1 (x : Word) : Word := x ^^^ x.rotateLeft 15 ^^^ x.rotateLeft 23

/-- The next word W_j of the expansion, from the j words before it (44_sm3.md R315). -/
def sm3NextW (w : List Word) : Word :=
  let j := w.length
  let g := fun i => w.getD i 0
  sm3P1 (g (j - 16) ^^^ g (j - 9) ^^^ (g (j - 3)).rotateLeft 15) ^^^ (g (j - 13)).rotateLeft 7 ^^^ g (j - 6)

/-- `k` more words of the expansion. -/
def sm3Extend : Nat → List Word → List Word
  | 0, w => w
  | k + 1, w => sm3Extend k (w ++ [sm3NextW w])

/-- The message expansion W_0..W_67 of a block (44_sm3.md R315). -/
def sm3Expand (blk : List Byte) : List Word := sm3Extend 52 ((List.range 16).map (wordAt blk))

/-- Round j of the compression function on A..H (44_sm3.md R316). -/
def sm3Round (w : List Word) (s : Sm3Words) (j : Nat) : Sm3Words :=
  let wj := w.getD j 0
  let wj' := wj ^^^ w.getD (j + 4) 0
  let ss1 := (s.v0.rotateLeft 12 + s.v4 + (sm3T j).rotateLeft (j % 32)).rotateLeft 7
  let ss2 := ss1 ^^^ s.v0.rotateLeft 12
  let tt1 := sm3FF j s.v0 s.v1 s.v2 + s.v3 + ss2 + wj'
  let tt2 := sm3GG j s.v4 s.v5 s.v6 + s.v7 + ss1 + wj
  { v0 := tt1, v1 := s.v0, v2 := s.v1.rotateLeft 9, v3 := s.v2
    v4 := sm3P0 tt2, v5 := s.v4, v6 := s.v5.rotateLeft 19, v7 := s.v6 }

/-- Word-by-word XOR of two chaining values. -/
def Sm3Words.xor (x y : Sm3Words) : Sm3Words :=
  ⟨x.v0 ^^^ y.v0, x.v1 ^^^ y.v1, x.v2 ^^^ y.v2, x.v3 ^^^ y.v3,
    x.v4 ^^^ y.v4, x.v5 ^^^ y.v5, x.v6 ^^^ y.v6, x.v7 ^^^ y.v7⟩

/-- The compression function CF(V, B) (44_sm3.md R316). -/
def sm3CF (v : Sm3Words) (blk : List Byte) : Sm3Words :=
  ((List.range 64).foldl (sm3Round (sm3Expand blk)) v).xor v

/-- CF over the whole 64-byte blocks of a byte string, in order. -/
def sm3Blocks (v : Sm3Words) (bs : List Byte) : Sm3Words :=
  (pieces 64 (bs.length / 64) bs).foldl sm3CF v

/-- `Pad(L)` (44_sm3.md R317). -/
def sm3Pad (l : Nat) : List Byte :=
  0x80 :: (List.replicate (zmod (55 - (l % 64 : Nat)) 64) 0 ++ i2os (8 * l % 2 ^ 64) 8)

/-- The big-endian encoding of V (44_sm3.md R318). -/
def Sm3Words.bytes (v : Sm3Words) : List Byte :=
  w2os v.v0 ++ w2os v.v1 ++ w2os v.v2 ++ w2os v.v3 ++ w2os v.v4 ++ w2os v.v5 ++ w2os v.v6 ++ w2os v.v7

/-- The whole-message function SM3(m) (44_sm3.md R318). -/
def sm3Hash (m : List Byte) : List Byte := (sm3Blocks sm3IV (m ++ sm3Pad m.length)).bytes

/-- One message byte into PBUF (44_sm3.md R324): a buffer that becomes full is compressed at once. -/
def sm3Absorb (c : Sm3Ctx) (b : Byte) : Sm3Ctx :=
  let buf := c.pbuf.set c.plen.val b c.plen.isLt
  if h : c.plen.val + 1 < 64 then { c with pbuf := buf, plen := ⟨c.plen.val + 1, h⟩ }
  else { c with pbuf := buf, plen := 0, v := sm3CF c.v buf.toList }

/-- The context after the bytes of one SM3UPD (44_sm3.md R324): the bytes in order, then CNT. -/
def sm3Update (c : Sm3Ctx) (m : List Byte) : Sm3Ctx :=
  let c' := m.foldl sm3Absorb c
  { c' with cnt := c.cnt + BitVec.ofNat 64 m.length }

/-- The final chaining value of SM3FIN (44_sm3.md R330): the pending bytes and the padding, compressed. -/
def sm3Final (c : Sm3Ctx) : Sm3Words :=
  sm3Blocks c.v (c.pbuf.toList.take c.plen.val ++ sm3Pad c.cnt.toNat)

end Sys2Proof.Machine
end

