-- ==== Sys2Proof/Machine/Sm3.lean ====
section
/-! DEFINITION. The SM3 commands (44_sm3.md R320-R330). -/
namespace Sys2Proof.Machine

/-- The context SM3INIT leaves (44_sm3.md R320). -/
def Sm3Ctx.init : Sm3Ctx := { st := .active, v := sm3IV, cnt := 0, pbuf := pbufZero, plen := 0 }

/-- SM3INIT (44_sm3.md R320). -/
def execSm3init (s : State) : Host.Outcome State Fault Refusal :=
  .next { s with sm3 := Sm3Ctx.init }.done

/-- SM3UPD (44_sm3.md R324). -/
def execSm3upd (s : State) : Host.Outcome State Fault Refusal :=
  .next
    (if s.sm3.st ≠ .active then s.raise .state
    else if validRegion s.src.toNat s.len.toNat then
      ({ s with sm3 := sm3Update s.sm3 (s.memRead s.src.toNat s.len.toNat) }.drew s.len.toNat).done
    else s.raise .invalidParams)

/-- The context SM3FIN leaves, with the final chaining value (44_sm3.md R330). -/
def Sm3Ctx.finished (c : Sm3Ctx) : Sm3Ctx :=
  { c with st := .final, v := sm3Final c, pbuf := pbufZero, plen := 0 }

/-- SM3FIN (44_sm3.md R330). -/
def execSm3fin (s : State) : Host.Outcome State Fault Refusal :=
  .next
    (if s.sm3.st ≠ .active then s.raise .state
    else
      { s with
        sm3 := s.sm3.finished
        opnd := { s.opnd with hd := BitVec.ofNat 256 (os2i (sm3Final s.sm3).bytes) } }.done)

end Sys2Proof.Machine
end

