-- ==== Sys2Proof/Machine/Cipher.lean ====
section
/-! DEFINITION. The SM4 functions (45_sm4.md R350-R357). -/
namespace Sys2Proof.Machine

/-- The rows of the S-box (45_sm4.md R351): row r holds Sbox[16r] .. Sbox[16r+15], the first most significant. -/
def sboxRows : List (BitVec 128) :=
  [0xD690E9FECCE13DB716B614C228FB2C05, 0x2B679A762ABE04C3AA44132649860699,
   0x9C4250F491EF987A33540B43EDCFAC62, 0xE4B31CA9C908E89580DF94FA758F3FA6,
   0x4707A7FCF37317BA83593C19E6854FA8, 0x686B81B27164DA8BF8EB0F4B70569D35,
   0x1E240E5E6358D1A225227C3B01217887, 0xD40046579FD327524C3602E7A0C4C89E] ++
  [0xEABF8AD240C738B5A3F7F2CEF96115A1, 0xE0AE5DA49B341A55AD933230F58CB1E3,
   0x1DF6E22E8266CA60C02923AB0D534E6F, 0xD5DB3745DEFD8E2F03FF6A726D6C5B51,
   0x8D1BAF92BBDDBC7F11D95C411F105AD8, 0x0AC13188A5CD7BBD2D74D012B8E5B4B0,
   0x8969974A0C96777E65B9F109C56EC684, 0x18F07DEC3ADC4D2079EE5F3ED7CB3948]

/-- Sbox (45_sm4.md R351). -/
def sbox (x : Byte) : Byte :=
  (sboxRows.getD (x.toNat / 16) 0).extractLsb' (8 * (15 - x.toNat % 16)) 8

/-- tau (45_sm4.md R352). -/
def sm4Tau (a : Word) : Word :=
  be32 (sbox (a.extractLsb' 24 8)) (sbox (a.extractLsb' 16 8)) (sbox (a.extractLsb' 8 8)) (sbox (a.extractLsb' 0 8))

/-- T, the word function of the block round, with the linear transform L (45_sm4.md R352). -/
def sm4T (x : Word) : Word :=
  let b := sm4Tau x
  b ^^^ b.rotateLeft 2 ^^^ b.rotateLeft 10 ^^^ b.rotateLeft 18 ^^^ b.rotateLeft 24

/-- T', the word function of the key schedule, with the linear transform L' (45_sm4.md R352). -/
def sm4T' (x : Word) : Word :=
  let b := sm4Tau x
  b ^^^ b.rotateLeft 13 ^^^ b.rotateLeft 23

/-- The system parameter FK (45_sm4.md R353). -/
def sm4FK : Block := ⟨0xA3B1BAC6, 0x56AA3350, 0x677D9197, 0xB27022DC⟩

/-- The fixed parameter CK_i, whose byte j is (4i + j)·7 mod 256 (45_sm4.md R353). -/
def sm4CK (i : Nat) : Word :=
  let ck := fun j => BitVec.ofNat 8 ((4 * i + j) * 7)
  be32 (ck 0) (ck 1) (ck 2) (ck 3)

/-- Word-by-word XOR of two blocks (00_scope.md R10). -/
def Block.xor (x y : Block) : Block := ⟨x.w0 ^^^ y.w0, x.w1 ^^^ y.w1, x.w2 ^^^ y.w2, x.w3 ^^^ y.w3⟩

/-- The recurrence of the key schedule (45_sm4.md R354): one round key for each parameter. -/
def sm4Expand : List Word → Block → List Word
  | [], _ => []
  | ck :: cks, k =>
    let k4 := k.w0 ^^^ sm4T' (k.w1 ^^^ k.w2 ^^^ k.w3 ^^^ ck)
    k4 :: sm4Expand cks ⟨k.w1, k.w2, k.w3, k4⟩

/-- One round key for each parameter. -/
theorem length_sm4Expand (cks : List Word) (k : Block) : (sm4Expand cks k).length = cks.length := by
  induction cks generalizing k with
  | nil => rfl
  | cons ck cks ih => simp [sm4Expand, ih]

/-- The round keys of a key as a list (45_sm4.md R354). -/
def sm4Keys (mk : Block) : List Word := sm4Expand ((List.range 32).map sm4CK) (mk.xor sm4FK)

/-- `KeySchedule(MK)` (45_sm4.md R354). -/
def sm4KeySchedule (mk : Block) : Vector Word 32 :=
  ⟨(sm4Keys mk).toArray, by simp [sm4Keys, length_sm4Expand]⟩

/-- One round of the block transform (45_sm4.md R355). -/
def sm4Round (x : Block) (rk : Word) : Block :=
  ⟨x.w1, x.w2, x.w3, x.w0 ^^^ sm4T (x.w1 ^^^ x.w2 ^^^ x.w3 ^^^ rk)⟩

/-- The words of a block in reverse order, the reassembly at the end of `Crypt` (45_sm4.md R355). -/
def Block.rev (x : Block) : Block := ⟨x.w3, x.w2, x.w1, x.w0⟩

/-- `Crypt` under a schedule (45_sm4.md R355). -/
def sm4Crypt (sched : List Word) (x : Block) : Block := (sched.foldl sm4Round x).rev

/-- `Enc_rk` (45_sm4.md R355). -/
def sm4Enc (rk : Vector Word 32) (x : Block) : Block := sm4Crypt rk.toList x

/-- `Dec_rk`, the schedule in reverse order (45_sm4.md R355). -/
def sm4Dec (rk : Vector Word 32) (x : Block) : Block := sm4Crypt rk.toList.reverse x

/-- The block of a 16-byte string (45_sm4.md R350). -/
def Block.ofBytes (bs : List Byte) : Block := ⟨wordAt bs 0, wordAt bs 1, wordAt bs 2, wordAt bs 3⟩

/-- The 16-byte string of a block (45_sm4.md R350). -/
def Block.bytes (x : Block) : List Byte := w2os x.w0 ++ w2os x.w1 ++ w2os x.w2 ++ w2os x.w3

/-- The whole 16-byte blocks of a byte string. -/
def toBlocks (bs : List Byte) : List Block := (pieces 16 (bs.length / 16) bs).map Block.ofBytes

/-- The byte string of a list of blocks. -/
def ofBlocks (xs : List Block) : List Byte := xs.flatMap Block.bytes

/-- The CBC encryption of blocks from the chaining value `prev`: the ciphertext, and the chaining value after
(45_sm4.md R370). -/
def cbcEncBlocks (rk : Vector Word 32) : Block → List Block → List Block × Block
  | prev, [] => ([], prev)
  | prev, m :: ms =>
    let c := sm4Enc rk (m.xor prev)
    let r := cbcEncBlocks rk c ms
    (c :: r.1, r.2)

/-- The CBC decryption of blocks from the chaining value `prev`: the plaintext, and the chaining value after
(45_sm4.md R375). -/
def cbcDecBlocks (rk : Vector Word 32) : Block → List Block → List Block × Block
  | prev, [] => ([], prev)
  | prev, c :: cs =>
    let r := cbcDecBlocks rk c cs
    ((sm4Dec rk c).xor prev :: r.1, r.2)

/-- `Pad7(m)` (45_sm4.md R357). -/
def pad7 (m : List Byte) : List Byte :=
  let v := 16 - m.length % 16
  m ++ List.replicate v (BitVec.ofNat 8 v)

/-- The value of the last byte of a string, the pad length it states (45_sm4.md R357). -/
def padLen (y : List Byte) : Nat := (y.getD (y.length - 1) 0).toNat

/-- `Valid7(y)` (45_sm4.md R357): every pad byte is checked. -/
def valid7 (y : List Byte) : Bool :=
  let v := padLen y
  decide (16 ≤ y.length) && decide (y.length % 16 = 0) && decide (1 ≤ v) && decide (v ≤ 16) &&
    (y.drop (y.length - v)).all (fun b => b.toNat == v)

/-- `Strip7(y)` (45_sm4.md R357). -/
def strip7 (y : List Byte) : List Byte := y.take (y.length - padLen y)

end Sys2Proof.Machine
end

