-- ==== Sys2Proof/Machine/Sm4.lean ====
section
/-! DEFINITION. The SM4 commands (45_sm4.md R360-R375). -/
namespace Sys2Proof.Machine

/-- SM4KEY (45_sm4.md R360). -/
def execSm4key (s : State) : Host.Outcome State Fault Refusal :=
  .next { s with sm4 := { s.sm4 with rk := sm4KeySchedule s.sm4.key } }.done

/-- An SM4 mode command that fails: OUTLEN is 0 and the error is raised (45_sm4.md R361). -/
def State.modeError (s : State) (code : ErrCode) : State := { s with outlen := 0 }.raise code

/-- The input bytes of an SM4 mode command (45_sm4.md R361). -/
def State.modeInput (s : State) : List Byte := s.memRead s.src.toNat s.len.toNat

/-- The output of an SM4 mode command: the bytes at DST, the chaining value and OUTLEN (45_sm4.md R361). The input
bytes have been drawn. -/
def State.modeOutput (s : State) (out : List Byte) (cv : Block) (outlen : Nat) : State :=
  { (s.memWrite s.dst.toNat out).drew s.len.toNat with
    sm4 := { s.sm4 with cv := cv }
    outlen := BitVec.ofNat 32 outlen }

/-- An ECB command: `f` on each block of the input; CV is kept (45_sm4.md R365, R366). -/
def ecbRun (i : Instr) (f : Block → Block) (s : State) : State :=
  match modeChecks i s.len.toNat s with
  | .none => (s.modeOutput (ofBlocks ((toBlocks s.modeInput).map f)) s.sm4.cv s.len.toNat).done
  | code => s.modeError code

/-- ECBENC (45_sm4.md R365). -/
def execEcbenc (s : State) : Host.Outcome State Fault Refusal :=
  .next (ecbRun .ecbenc (sm4Enc s.sm4.rk) s)

/-- ECBDEC (45_sm4.md R366). -/
def execEcbdec (s : State) : Host.Outcome State Fault Refusal :=
  .next (ecbRun .ecbdec (sm4Dec s.sm4.rk) s)

/-- CBCENC and CBCENC.PAD (45_sm4.md R370). -/
def execCbcenc (pad : Bool) (s : State) : Host.Outcome State Fault Refusal :=
  .next
    (let outlen := cbcEncLen pad s.len.toNat
    match modeChecks (.cbcenc pad) outlen s with
    | .none =>
      let m := if pad then pad7 s.modeInput else s.modeInput
      let r := cbcEncBlocks s.sm4.rk s.sm4.cv (toBlocks m)
      (s.modeOutput (ofBlocks r.1) r.2 outlen).done
    | code => s.modeError code)

/-- CBCDEC without padding, its checks passed, with plaintext y and chaining value cv (45_sm4.md R375). -/
def State.cbcPlain (s : State) (y : List Byte) (cv : Block) : State :=
  (s.modeOutput y cv s.len.toNat).done

/-- CBCDEC.PAD, its checks passed (45_sm4.md R375): the stripped plaintext with zeros in the pad positions, or, where
the padding is invalid, zeros over the whole output region and VALIDATION with CV kept. -/
def State.cbcStripped (s : State) (y : List Byte) (cv : Block) : State :=
  if valid7 y then
    (s.modeOutput (strip7 y ++ List.replicate (s.len.toNat - (strip7 y).length) 0) cv (strip7 y).length).done
  else
    (s.modeOutput (List.replicate s.len.toNat 0) s.sm4.cv 0).raise .validation

/-- CBCDEC and CBCDEC.PAD (45_sm4.md R375). -/
def execCbcdec (pad : Bool) (s : State) : Host.Outcome State Fault Refusal :=
  .next
    (match modeChecks (.cbcdec pad) s.len.toNat s with
    | .none =>
      let r := cbcDecBlocks s.sm4.rk s.sm4.cv (toBlocks s.modeInput)
      let y := ofBlocks r.1
      if pad then s.cbcStripped y r.2 else s.cbcPlain y r.2
    | code => s.modeError code)

end Sys2Proof.Machine
end

