-- ==== Sys2Proof/Machine/Dispatch.lean ====
section
/-! DEFINITION. One arm per command: Exec(Decode(CMDL)) (40_control.md R172, R177). -/
namespace Sys2Proof.Machine

def exec (i : Instr) (s : State) : Host.Outcome State Fault Refusal :=
  match i with
  | .nop => Sys2Proof.Machine.execNop s
  | .zeroize => Sys2Proof.Machine.execZeroize s
  | .fadd m => Sys2Proof.Machine.execFadd m s
  | .fsub m => Sys2Proof.Machine.execFsub m s
  | .fmul m => Sys2Proof.Machine.execFmul m s
  | .finv m => Sys2Proof.Machine.execFinv m s
  | .fred m => Sys2Proof.Machine.execFred m s
  | .padd => Sys2Proof.Machine.execPadd s
  | .pdbl => Sys2Proof.Machine.execPdbl s
  | .pmul => Sys2Proof.Machine.execPmul s
  | .pmulg => Sys2Proof.Machine.execPmulg s
  | .pchk => Sys2Proof.Machine.execPchk s
  | .keygen => Sys2Proof.Machine.execKeygen s
  | .sign => Sys2Proof.Machine.execSign s
  | .signk => Sys2Proof.Machine.execSignk s
  | .verify => Sys2Proof.Machine.execVerify s
  | .sm3init => Sys2Proof.Machine.execSm3init s
  | .sm3upd => Sys2Proof.Machine.execSm3upd s
  | .sm3fin => Sys2Proof.Machine.execSm3fin s
  | .sm4key => Sys2Proof.Machine.execSm4key s
  | .ecbenc => Sys2Proof.Machine.execEcbenc s
  | .ecbdec => Sys2Proof.Machine.execEcbdec s
  | .cbcenc pad => Sys2Proof.Machine.execCbcenc pad s
  | .cbcdec pad => Sys2Proof.Machine.execCbcdec pad s

end Sys2Proof.Machine
end

