-- ==== Sys2Proof/Machine/Engine.lean ====
section
/-! DEFINITION. What each agent's turn does (10_state.md R30): the engine's step (40_control.md R172, R177), a host
access, both in the same step (60_exceptions.md R417), and the reset input. -/
namespace Sys2Proof.Machine

/-- The engine's step: idle, it keeps everything (60_exceptions.md R429); with a command latched, it runs it, and an
ILLEGAL word raises ILLEGAL_CMD (40_control.md R172, 30_encoding.md R149). -/
def engineStep (s : State) : Host.Outcome State Fault Refusal :=
  if s.phase = .idle then .next s
  else
    match decode s.cmdl with
    | .ok i => exec i s
    | .error _ => .next (s.raise .illegalCmd)

/-- A host access and an engine step in the same step (60_exceptions.md R417): the access is served first, then the
command that was already running takes its step, if the access has not reset it (log entry 10). -/
def jointStep (s : State) (a : Access) : Host.Outcome State Fault Refusal :=
  if s.phase = .idle then .next (s.busAccess a) else engineStep (s.busAccess a)

/-- One agent's turn. -/
def turnStep (s : State) : Turn → Host.Outcome State Fault Refusal
  | .engine => engineStep s
  | .host a => .next (s.busAccess a)
  | .both a => jointStep s a
  | .hardReset => .next s.hardReset

/-- A command word stored in CMD and latched by a start (10_state.md R33, 40_control.md R171). -/
def State.placed (s : State) (w : Word) : State := { s with cmd := w }.startCommand

/-- The engine moves next. -/
def State.engineNext (s : State) : State :=
  match s.turns with
  | [] => s
  | _ :: _ => { s with turns := .engine :: s.turns }

end Sys2Proof.Machine
end

