-- ==== Sys2Proof/Machine/Step.lean ====
section
/-! DEFINITION. One step: the agent whose turn it is moves (10_state.md R30, 40_control.md R177). -/
namespace Sys2Proof.Machine

/-- One step of the machine; with no turn listed, the engine moves (log entry 1). -/
def step (s : State) : Host.Outcome State Fault Refusal :=
  match s.turns with
  | [] => engineStep s
  | t :: ts => turnStep { s with turns := ts } t

/-- The command word placed where the next step fetches it: in CMDL, by the host's write of CMD and START already
made, with the engine to move next (log entry 13). -/
def State.withFetchWord (s : State) (nbits w : Nat) : State :=
  (s.placed (BitVec.ofNat 32 (w % 2 ^ nbits))).engineNext

end Sys2Proof.Machine
end

