-- ==== Sys2Proof/Safety.lean ====
section
/-! DEFINITION. The terms the claims use: what a completion leaves, what a command leaves unchanged, the invariant of
the machine, and the SM3 context that holds a message. -/
namespace Sys2Proof.Machine

/-- The status, interrupt flag and phase a completion leaves (40_control.md R175): BUSY, RNGW and the in-flight values
are gone, DONE and IRQSTAT.DONE are 1, and the error and VOK are reported. -/
structure Completed (t : State) (code : ErrCode) (vok : Bool) : Prop where
  busy : t.status.busy = false
  done : t.status.done = true
  err : t.status.err = decide (code ≠ .none)
  errcode : t.status.errcode = code
  vok : t.status.vok = vok
  rngw : t.status.rngw = false
  irqDone : t.irqDone = true
  phase : t.phase = .idle
  attempt : t.attempt = 0
  nonce : t.nonce = none

/-- What no command writes (10_state.md R47, R59; 40_control.md R182): CTRL.IE, CMD, SRC, DST, LEN, RETRY, CMDL (kept
after completion too: log entry 21), and the model's turns and bus response. -/
structure HostKept (s t : State) : Prop where
  ie : t.ie = s.ie
  cmd : t.cmd = s.cmd
  src : t.src = s.src
  dst : t.dst = s.dst
  len : t.len = s.len
  retry : t.retry = s.retry
  cmdl : t.cmdl = s.cmdl
  turns : t.turns = s.turns
  resp : t.resp = s.resp

/-- The frame of a field, curve or SM2 command: nothing but the operand registers and PFLAGS can change, beside what
`Completed` names (41_field.md R203, 42_curve.md R239). -/
structure OnlyOperands (s t : State) : Prop where
  host : HostKept s t
  outlen : t.outlen = s.outlen
  sm3 : t.sm3 = s.sm3
  sm4 : t.sm4 = s.sm4
  dbuf : t.dbuf = s.dbuf
  draws : t.draws = s.draws

/-- The frame of an SM3 command: nothing but the SM3 context and HD can change, beside what `Completed` names and the
free values used (44_sm3.md R320-R330; 10_state.md R59). -/
structure OnlySm3 (s t : State) : Prop where
  host : HostKept s t
  outlen : t.outlen = s.outlen
  pflags : t.pflags = s.pflags
  sm4 : t.sm4 = s.sm4
  dbuf : t.dbuf = s.dbuf
  rng : t.rng = s.rng

/-- The frame of an SM4 command: nothing but RK, CV, OUTLEN and DBUF can change, beside what `Completed` names and the
free values used (45_sm4.md R360, R361). -/
structure OnlySm4 (s t : State) : Prop where
  host : HostKept s t
  pflags : t.pflags = s.pflags
  sm3 : t.sm3 = s.sm3
  key : t.sm4.key = s.sm4.key
  opnd : t.opnd = s.opnd
  rng : t.rng = s.rng

/-- Nothing changes but what `Completed` names: every data register, DBUF, and what no command writes is kept
(00_scope.md R14, 40_control.md R176). -/
structure DataKept (s t : State) : Prop where
  host : HostKept s t
  outlen : t.outlen = s.outlen
  pflags : t.pflags = s.pflags
  sm3 : t.sm3 = s.sm3
  sm4 : t.sm4 = s.sm4
  opnd : t.opnd = s.opnd
  dbuf : t.dbuf = s.dbuf
  draws : t.draws = s.draws

/-- Every byte of DBUF outside [x, x + l) reads as before. -/
def KeptOutside (s t : State) (x l : Nat) : Prop :=
  ∀ a, a < x ∨ x + l ≤ a → Memory.read t.dbuf a = Memory.read s.dbuf a

/-- The bytes `bs` stand in DBUF from offset x on. -/
def HoldsAt (t : State) (x : Nat) (bs : List Byte) : Prop :=
  ∀ i, (h : i < bs.length) → Memory.read t.dbuf (x + i) = some bs[i]

/-- Every operand register but the listed ones is unchanged (10_state.md R59). -/
def OpndsKeptBut (s t : State) (rs : List Opnd) : Prop := ∀ r, r ∉ rs → t.opnd.get r = s.opnd.get r

/-- The frame of a field command: only C changes (41_field.md R203). -/
structure OnlyC (s t : State) : Prop where
  only : OnlyOperands s t
  pflags : t.pflags = s.pflags
  opnd : OpndsKeptBut s t [.c]
  rng : t.rng = s.rng

/-- The frame of a curve command that writes a point: only RX, RY and RINF change (42_curve.md R239). -/
structure OnlyR (s t : State) : Prop where
  only : OnlyOperands s t
  pinf : t.pflags.pinf = s.pflags.pinf
  qinf : t.pflags.qinf = s.pflags.qinf
  opnd : OpndsKeptBut s t [.rx, .ry]
  rng : t.rng = s.rng

/-- The result point in RX, RY and RINF (42_curve.md R237). -/
def ResultPoint (t : State) : Point → Prop
  | .inf => t.pflags.rinf = true ∧ t.opnd.rx = 0 ∧ t.opnd.ry = 0
  | .aff x y => t.pflags.rinf = false ∧ t.opnd.rx.toNat = x ∧ t.opnd.ry.toNat = y ∧ x < sm2p ∧ y < sm2p

/-- A wait on the entropy source: RNGW is 1, PHASE is WAIT_RNG, and the command goes on at a later step; no
data changes (10_state.md R44, R70). -/
structure Waits (s t : State) : Prop where
  phase : t.phase = .waitRng
  status : t.status = { s.status with rngw := true }
  irqDone : t.irqDone = s.irqDone
  data : DataKept s t

/-- The operand registers a command reads (10_state.md R59). -/
def opndReads : Instr → List Opnd
  | .fadd _ | .fsub _ | .fmul _ => [.a, .b]
  | .finv _ | .fred _ => [.a]
  | .padd => [.px, .py, .qx, .qy]
  | .pdbl | .pchk => [.px, .py]
  | .pmul => [.k, .px, .py]
  | .pmulg => [.k]
  | .sign => [.d, .e]
  | .signk => [.k, .d, .e]
  | .verify => [.qx, .qy, .e, .sr, .ss]
  | .nop | .zeroize | .keygen | .sm3init | .sm3upd | .sm3fin | .sm4key | .ecbenc | .ecbdec | .cbcenc _
  | .cbcdec _ => []

/-- The operand registers a command writes (10_state.md R59). -/
def opndWrites : Instr → List Opnd
  | .fadd _ | .fsub _ | .fmul _ | .finv _ | .fred _ => [.c]
  | .padd | .pdbl | .pmul | .pmulg => [.rx, .ry]
  | .keygen => [.qx, .qy, .d]
  | .sign | .signk => [.sr, .ss]
  | .sm3fin => [.hd]
  | .zeroize => [.a, .b, .c, .k, .px, .py, .qx, .qy, .rx, .ry, .d, .e, .sr, .ss, .hd]
  | .nop | .pchk | .verify | .sm3init | .sm3upd | .sm4key | .ecbenc | .ecbdec | .cbcenc _ | .cbcdec _ => []

/-- The errors a command can raise (60_exceptions.md R404). -/
def errorsOf : Instr → List ErrCode
  | .fadd _ | .fsub _ | .fmul _ | .finv _ => [.invalidParams]
  | .padd | .pdbl | .pmul => [.validation]
  | .keygen => [.randomSource]
  | .sign => [.invalidParams, .randomSource, .signingFailed]
  | .signk => [.invalidParams, .signingFailed]
  | .sm3upd => [.state, .invalidParams]
  | .sm3fin => [.state]
  | .ecbenc | .ecbdec | .cbcenc _ | .cbcdec false => [.invalidParams, .invalidBlockLength]
  | .cbcdec true => [.invalidParams, .invalidBlockLength, .validation]
  | .nop | .zeroize | .fred _ | .pmulg | .pchk | .verify | .sm3init | .sm4key => []

/-- A word that selects a row of the opcode map, from the fields of the word (30_encoding.md R148). -/
def LegalWord (w : Word) : Prop :=
  w.extractLsb' 10 22 = 0 ∧
    ((w.extractLsb' 0 8 ∈ ([0x10, 0x11, 0x12, 0x13, 0x14] : List Byte) ∧ w.getLsbD 9 = false) ∨
      (w.extractLsb' 0 8 ∈ ([0x53, 0x54] : List Byte) ∧ w.getLsbD 8 = false) ∨
      (w.extractLsb' 0 8 ∈ ([0x00, 0x01, 0x20, 0x21, 0x22, 0x23, 0x24, 0x30, 0x31, 0x32, 0x33, 0x40, 0x41, 0x42,
        0x50, 0x51, 0x52] : List Byte) ∧ w.getLsbD 8 = false ∧ w.getLsbD 9 = false))

/-- A region of DBUF, in unbounded arithmetic (20_memory.md R112). -/
def InDbuf (off len : Nat) : Prop := off ≤ 4096 ∧ len ≤ 4096 - off

/-- The regions of an SM4 mode command: both in DBUF, and together or disjoint, a region of length 0 being disjoint
from every region (20_memory.md R112, R113; log entry 12). -/
def ModeRegions (s : State) (outlen : Nat) : Prop :=
  InDbuf s.src.toNat s.len.toNat ∧ InDbuf s.dst.toNat outlen ∧
    (s.dst = s.src ∨ s.dst.toNat + outlen ≤ s.src.toNat ∨ s.src.toNat + s.len.toNat ≤ s.dst.toNat ∨
      s.len.toNat = 0 ∨ outlen = 0)

/-- Block j of a byte string (45_sm4.md R350). -/
def blockAt (bs : List Byte) (j : Nat) : Block := Block.ofBytes ((bs.drop (16 * j)).take 16)

/-- The state of a host write of `v` to offset `off`, `ts` the turns that follow. -/
def HostWrites (s : State) (off : Nat) (v : Word) (ts : List Turn) : Prop := s.turns = .host (.wr off v) :: ts

/-- The state of a host read of offset `off`, `ts` the turns that follow. -/
def HostReads (s : State) (off : Nat) (ts : List Turn) : Prop := s.turns = .host (.rd off) :: ts

/-- The state after a write that has no other effect than the bus's response. -/
def State.answered (s : State) (ts : List Turn) : State := { s with turns := ts, resp := some ⟨false, 0⟩ }

/-- The state after a read that returns d and has no other effect. -/
def State.returned (s : State) (ts : List Turn) (d : Word) : State := { s with turns := ts, resp := some ⟨false, d⟩ }

/-- The SM3 context holds the message m (44_sm3.md R319): it is ACTIVE, CNT counts m, V has the whole blocks of m, and
PBUF and PLEN have the rest. -/
structure Sm3Ctx.Holds (c : Sm3Ctx) (m : List Byte) : Prop where
  active : c.st = .active
  cnt : c.cnt.toNat = m.length
  plen : c.plen.val = m.length % 64
  v : c.v = sm3Blocks sm3IV (m.take (64 * (m.length / 64)))
  pbuf : c.pbuf.toList.take c.plen.val = m.drop (64 * (m.length / 64))

/-- The message m has been absorbed (44_sm3.md R333): SM3INIT, then successful SM3UPD commands on the bytes of m in
order. Between two commands the host may change everything but the SM3 context. -/
inductive Absorbed : List Byte → State → Prop where
  | init (s t : State) (h : exec .sm3init s = .next t) : Absorbed [] t
  | host (m : List Byte) (s t : State) (hs : Absorbed m s) (h : t.sm3 = s.sm3) : Absorbed m t
  | update (m : List Byte) (s t : State) (hs : Absorbed m s) (h : exec .sm3upd s = .next t)
      (ok : t.status.err = false) : Absorbed (m ++ s.memRead s.src.toNat s.len.toNat) t

/-- The invariant of the machine, for every state a step can reach from one that has it. -/
structure State.Inv (s : State) : Prop where
  /-- PHASE ≠ IDLE exactly when BUSY = 1 (10_state.md R62). -/
  busy : s.status.busy = true ↔ s.phase ≠ .idle
  /-- PHASE = WAIT_RNG exactly when RNGW = 1 (10_state.md R62). -/
  rngw : s.status.rngw = true ↔ s.phase = .waitRng
  /-- ERRCODE is nonzero exactly when ERR = 1 (10_state.md R42). -/
  err : s.status.err = true ↔ s.status.errcode ≠ .none
  /-- While a command runs, DONE, ERR and VOK are 0 (40_control.md R171). -/
  running : s.status.busy = true → s.status.done = false ∧ s.status.err = false ∧ s.status.vok = false
  /-- VOK is never 1 with ERR (10_state.md R43, 60_exceptions.md R407). -/
  vok : s.status.vok = true → s.status.err = false
  /-- While a command runs, CMD still holds its word (60_exceptions.md R405). -/
  latched : s.phase ≠ .idle → s.cmdl = s.cmd
  /-- WAIT_RNG occurs only inside KEYGEN and SIGN, within SIGN's budget (40_control.md R170, 43_sm2.md R281). -/
  waits : s.phase = .waitRng →
    (decode s.cmdl = .ok .keygen ∧ s.attempt = 0) ∨
      (decode s.cmdl = .ok .sign ∧ s.attempt < s.retry.toNat)
  /-- No attempt count outside a wait (10_state.md R62). -/
  inflight : s.phase ≠ .waitRng → s.attempt = 0
  /-- No nonce is held between two steps: each attempt ends in the step that draws its nonce, and a wait comes before
  a draw (10_state.md R62, 43_sm2.md R281; log entry 16). -/
  nonce : s.nonce = none
  /-- An IDLE SM3 context is all zero (10_state.md R53, R63). -/
  sm3Idle : s.sm3.st = .idle → s.sm3.v = Sm3Words.zero ∧ s.sm3.cnt = 0 ∧ s.sm3.plen = 0
  /-- An ACTIVE context has PLEN = CNT mod 64 (44_sm3.md R319). -/
  sm3Active : s.sm3.st = .active → s.sm3.plen.val = s.sm3.cnt.toNat % 64
  /-- A FINAL context has no pending byte (10_state.md R63). -/
  sm3Final : s.sm3.st = .final → s.sm3.plen = 0 ∧ s.sm3.pbuf = pbufZero
  /-- DBUF keeps its canonical form, inside the buffer (10_state.md R60). -/
  dbuf : Memory.wf s.dbuf

end Sys2Proof.Machine
end

