-- ==== Sys2Proof/Certificates/Slice0/Obligations.lean ====
section
/-! DEFINITION. The statements about the model, from the numbered rules of spec/: the encoding, the step, the register
window and reset, the rules of the whole machine, and the effect of every command. -/
open Sys2Proof Sys2Proof.Machine

/-! ### Encoding -/

/-- 30_encoding.md R152: the CMD value of every form decodes to its command. -/
def Obligations.CommandWordsDecode : Prop :=
  (decode 0x00000000 = .ok .nop ∧ decode 0x00000001 = .ok .zeroize) ∧
  (decode 0x00000010 = .ok (.fadd .p) ∧ decode 0x00000110 = .ok (.fadd .n) ∧
    decode 0x00000011 = .ok (.fsub .p) ∧ decode 0x00000111 = .ok (.fsub .n) ∧
    decode 0x00000012 = .ok (.fmul .p) ∧ decode 0x00000112 = .ok (.fmul .n) ∧
    decode 0x00000013 = .ok (.finv .p) ∧ decode 0x00000113 = .ok (.finv .n) ∧
    decode 0x00000014 = .ok (.fred .p) ∧ decode 0x00000114 = .ok (.fred .n)) ∧
  (decode 0x00000020 = .ok .padd ∧ decode 0x00000021 = .ok .pdbl ∧ decode 0x00000022 = .ok .pmul ∧
    decode 0x00000023 = .ok .pmulg ∧ decode 0x00000024 = .ok .pchk) ∧
  (decode 0x00000030 = .ok .keygen ∧ decode 0x00000031 = .ok .sign ∧ decode 0x00000032 = .ok .signk ∧
    decode 0x00000033 = .ok .verify) ∧
  (decode 0x00000040 = .ok .sm3init ∧ decode 0x00000041 = .ok .sm3upd ∧ decode 0x00000042 = .ok .sm3fin) ∧
  (decode 0x00000050 = .ok .sm4key ∧ decode 0x00000051 = .ok .ecbenc ∧ decode 0x00000052 = .ok .ecbdec ∧
    decode 0x00000053 = .ok (.cbcenc false) ∧ decode 0x00000253 = .ok (.cbcenc true) ∧
    decode 0x00000054 = .ok (.cbcdec false) ∧ decode 0x00000254 = .ok (.cbcdec true))

/-- 30_encoding.md R147: every command is well formed, and decoding and encoding are inverse in both directions. -/
def Obligations.DecodeAndEncodeAgree : Prop :=
  (∀ i : Instr, i.wellFormed = true ∧ decode (encode i) = .ok i) ∧
  ∀ (w : Word) (i : Instr), decode w = .ok i → encode i = w

/-- 30_encoding.md R146, R148, R150: a word is a command exactly when its fields select a row of the opcode map, and
then it selects the command whose word it is; every other word is ILLEGAL, by name where RSV is nonzero. -/
def Obligations.OnlyLegalWordsDecode : Prop :=
  ∀ w : Word,
    (LegalWord w → ∃ i, decode w = .ok i ∧ encode i = w) ∧
    (¬ LegalWord w → ∃ r, decode w = .error r) ∧
    (w.extractLsb' 10 22 ≠ 0 → decode w = .error .reservedBits)

/-! ### The step -/

/-- 40_control.md R172, R177: while a command runs, the engine's step is `exec` of the decoded command, whether the
engine moves because its turn is listed or because no turn is (log entry 1). -/
def Obligations.StepRunsTheDecodedCommand : Prop :=
  ∀ (s : State) (i : Instr), s.phase ≠ .idle → decode s.cmdl = .ok i →
    (s.turns = [] → step s = exec i s) ∧
    ∀ ts, s.turns = .engine :: ts → step s = exec i { s with turns := ts }

/-- 30_encoding.md R149: an ILLEGAL word completes with ILLEGAL_CMD and changes nothing else, whether the engine moves
because its turn is listed or because no turn is (the model's choice: log entry 1). That OUTLEN and CMDL are kept is
read from the spec by inference (log entries 22 and 21). -/
def Obligations.IllegalWordCompletesWithIllegalCmd : Prop :=
  ∀ (s : State) (r : DecodeReject), s.phase ≠ .idle → decode s.cmdl = .error r →
    (s.turns = [] → ∃ t, step s = .next t ∧ Completed t .illegalCmd false ∧ DataKept s t ∧ t.rng = s.rng) ∧
    ∀ ts, s.turns = .engine :: ts →
      ∃ t, step s = .next t ∧ Completed t .illegalCmd false ∧ DataKept { s with turns := ts } t ∧ t.rng = s.rng

/-- 60_exceptions.md R429: while idle, the engine keeps every register and DBUF. -/
def Obligations.IdleEngineKeepsEverything : Prop :=
  ∀ s : State, s.phase = .idle →
    (s.turns = [] → step s = .next s) ∧ ∀ ts, s.turns = .engine :: ts → step s = .next { s with turns := ts }

/-- 40_control.md R171, 60_exceptions.md R417: a START while idle latches CMD, clears the old outcome, applies IE first,
and leaves IRQSTAT.DONE and every data register unchanged. -/
def Obligations.StartLatchesTheCommand : Prop :=
  ∀ (s : State) (ts : List Turn) (v : Word), HostWrites s 0x004 v ts → v.getLsbD 0 = true → v.getLsbD 1 = false →
    s.status.busy = false →
    ∃ t, step s = .next t ∧ t.turns = ts ∧
      t.cmdl = s.cmd ∧ t.phase = .run ∧ t.status.busy = true ∧ t.status.done = false ∧ t.status.err = false ∧
      t.status.errcode = .none ∧ t.status.vok = false ∧ t.status.rngw = s.status.rngw ∧
      t.ie = v.getLsbD 2 ∧ t.irqDone = s.irqDone ∧ t.cmd = s.cmd ∧
      t.src = s.src ∧ t.dst = s.dst ∧ t.len = s.len ∧ t.outlen = s.outlen ∧ t.retry = s.retry ∧
      t.pflags = s.pflags ∧ t.sm3 = s.sm3 ∧ t.sm4 = s.sm4 ∧ t.opnd = s.opnd ∧ t.dbuf = s.dbuf

/-- 60_exceptions.md R417: what comes of an access and an engine step in the same step. A soft reset wins over the
command; and if the command completes in the step in which the host clears IRQSTAT.DONE, the bit is left at 1. -/
def Obligations.SimultaneousEvents : Prop :=
  (∀ (s : State) (ts : List Turn) (v : Word), v.getLsbD 1 = true →
    step { s with turns := .both (.wr 0x004 v) :: ts } = step { s with turns := .host (.wr 0x004 v) :: ts }) ∧
  ∀ (s t : State) (ts : List Turn) (v : Word), s.phase ≠ .idle →
    step { s with turns := .both (.wr 0x010 v) :: ts } = .next t → t.phase = .idle → t.irqDone = true

/-! ### The register window and reset -/

/-- 70_reset_and_hazards.md R450: the state right after hardware reset, and the reset input at any time. -/
def Obligations.HardResetState : Prop :=
  (∀ off, off < 0x1000 → off % 4 = 0 →
    State.reset.regRead (regAt off) = if off = 0 then 0x534D0100 else if off = 0x024 then 0x10 else 0) ∧
  (∀ a, Memory.read State.reset.dbuf a = none) ∧
  State.reset.sm3.pbuf = Vector.replicate 64 0 ∧ State.reset.cmdl = 0 ∧ State.reset.phase = .idle ∧
  State.reset.attempt = 0 ∧ State.reset.nonce = none ∧
  ∀ (s : State) (ts : List Turn), s.turns = .hardReset :: ts →
    step s = .next { State.reset with turns := ts, rng := s.rng, draws := s.draws, resp := s.resp }

/-- 70_reset_and_hazards.md R451, R452: a write of SRST, with or without START, resets every register, field and hidden
value, completes nothing, and keeps DBUF, but for the output region of an aborted SM4 mode command whose checks had
passed, which becomes unspecified (log entry 7). -/
def Obligations.SoftResetClears : Prop :=
  ∀ (s : State) (ts : List Turn) (v : Word), HostWrites s 0x004 v ts → v.getLsbD 1 = true →
    ∃ t, step s = .next t ∧
      t = { State.reset with
            dbuf := t.dbuf, turns := ts, rng := s.rng, draws := s.draws, resp := some ⟨false, 0⟩ } ∧
      (∀ i n, s.phase ≠ .idle → decode s.cmdl = .ok i → modeOutLen i s.len.toNat = some n →
        modeChecks i n s = .none →
        ∀ a, Memory.read t.dbuf a =
          if s.dst.toNat ≤ a ∧ a < s.dst.toNat + n then none else Memory.read s.dbuf a) ∧
      ((¬ ∃ i n, s.phase ≠ .idle ∧ decode s.cmdl = .ok i ∧ modeOutLen i s.len.toNat = some n ∧
        modeChecks i n s = .none) → t.dbuf = s.dbuf)

/-- 70_reset_and_hazards.md R460, R461: while a command runs, a write has effect only as SRST, as IE, or as the clear of
IRQSTAT.DONE; a START is ignored. -/
def Obligations.BusyWritesAreLost : Prop :=
  ∀ (s : State) (ts : List Turn) (off : Nat) (v : Word), HostWrites s off v ts → s.status.busy = true →
    off < 0x2000 → off % 4 = 0 →
    (off ≠ 0x004 → off ≠ 0x010 → step s = .next (s.answered ts)) ∧
    (off = 0x004 → v.getLsbD 1 = false → step s = .next { s.answered ts with ie := v.getLsbD 2 }) ∧
    (off = 0x004 → v.getLsbD 1 = true → step s = .next { s.softReset with turns := ts, resp := some ⟨false, 0⟩ }) ∧
    (off = 0x010 → step s = .next { s.answered ts with irqDone := s.irqDone && !v.getLsbD 0 })

/-- 10_state.md R34, R37, R38, R47, R49, R50, R54-R56, and the read-only rows of R32: what an idle write stores, and
that nothing else changes; a write of CTRL with SRST = 0 and START = 0 stores IE. -/
def Obligations.IdleRegisterWrites : Prop :=
  ∀ (s : State) (ts : List Turn) (off : Nat) (v : Word), HostWrites s off v ts → s.status.busy = false →
    (off = 0x004 → v.getLsbD 0 = false → v.getLsbD 1 = false →
      step s = .next { s.answered ts with ie := v.getLsbD 2 }) ∧
    (off = 0x008 → step s = .next { s.answered ts with cmd := v }) ∧
    (off = 0x014 → step s = .next { s.answered ts with src := v }) ∧
    (off = 0x018 → step s = .next { s.answered ts with dst := v }) ∧
    (off = 0x01C → step s = .next { s.answered ts with len := v }) ∧
    (off = 0x024 → step s = .next { s.answered ts with retry := v }) ∧
    (off = 0x028 → step s = .next { s.answered ts with pflags := ⟨v.getLsbD 0, v.getLsbD 1, v.getLsbD 2⟩ }) ∧
    (∀ i : Fin 4, off = 0x060 + 4 * i.val → ∃ x : Block,
      step s = .next { s.answered ts with sm4 := { s.sm4 with key := x } } ∧
        ∀ j : Fin 4, x.word j = if j = i then v else s.sm4.key.word j) ∧
    (∀ i : Fin 4, off = 0x070 + 4 * i.val → ∃ x : Block,
      step s = .next { s.answered ts with sm4 := { s.sm4 with cv := x } } ∧
        ∀ j : Fin 4, x.word j = if j = i then v else s.sm4.cv.word j) ∧
    (∀ i : Fin 32, off = 0x080 + 4 * i.val → ∃ x : Vector Word 32,
      step s = .next { s.answered ts with sm4 := { s.sm4 with rk := x } } ∧
        ∀ j : Fin 32, x[j] = if j = i then v else s.sm4.rk[j]) ∧
    ((off = 0x000 ∨ off = 0x00C ∨ off = 0x020 ∨ off = 0x02C ∨ off = 0x030 ∨ off = 0x034 ∨
      ∃ i : Fin 8, off = 0x040 + 4 * i.val) → step s = .next (s.answered ts))

/-- 20_memory.md R122, R108: what an idle read of a register returns; it changes nothing. -/
def Obligations.IdleRegisterReads : Prop :=
  ∀ (s : State) (ts : List Turn) (off : Nat), HostReads s off ts → s.status.busy = false →
    (off = 0x000 → step s = .next (s.returned ts 0x534D0100)) ∧
    (off = 0x004 → step s = .next (s.returned ts (if s.ie then 4 else 0))) ∧
    (off = 0x008 → step s = .next (s.returned ts s.cmd)) ∧
    (off = 0x010 → step s = .next (s.returned ts (if s.irqDone then 1 else 0))) ∧
    (off = 0x014 → step s = .next (s.returned ts s.src)) ∧
    (off = 0x018 → step s = .next (s.returned ts s.dst)) ∧
    (off = 0x01C → step s = .next (s.returned ts s.len)) ∧
    (off = 0x020 → step s = .next (s.returned ts s.outlen)) ∧
    (off = 0x024 → step s = .next (s.returned ts s.retry)) ∧
    (off = 0x028 → ∃ d : Word, step s = .next (s.returned ts d) ∧
      d.toNat = s.pflags.pinf.toNat + 2 * s.pflags.qinf.toNat + 4 * s.pflags.rinf.toNat) ∧
    (off = 0x02C → step s = .next (s.returned ts (s.sm3.cnt.extractLsb' 32 32))) ∧
    (off = 0x030 → step s = .next (s.returned ts (s.sm3.cnt.extractLsb' 0 32))) ∧
    (off = 0x034 → ∃ d : Word, step s = .next (s.returned ts d) ∧ d.toNat = s.sm3.plen.val) ∧
    (∀ i : Fin 8, off = 0x040 + 4 * i.val → step s = .next (s.returned ts (s.sm3.v.word i))) ∧
    (∀ i : Fin 4, off = 0x060 + 4 * i.val → step s = .next (s.returned ts (s.sm4.key.word i))) ∧
    (∀ i : Fin 4, off = 0x070 + 4 * i.val → step s = .next (s.returned ts (s.sm4.cv.word i))) ∧
    ∀ i : Fin 32, off = 0x080 + 4 * i.val → step s = .next (s.returned ts s.sm4.rk[i])

/-- 10_state.md R39, R45, 60_exceptions.md R401: a read of STATUS, busy or idle, returns its fields at their bits. -/
def Obligations.StatusWordFields : Prop :=
  ∀ (s : State) (ts : List Turn), HostReads s 0x00C ts →
    ∃ d : Word, step s = .next (s.returned ts d) ∧
      d.getLsbD 0 = s.status.busy ∧ d.getLsbD 1 = s.status.done ∧ d.getLsbD 2 = s.status.err ∧
      d.getLsbD 3 = s.status.vok ∧ d.getLsbD 4 = s.status.rngw ∧
      (d.extractLsb' 5 2).toNat = (match s.sm3.st with | .idle => 0 | .active => 1 | .final => 2) ∧
      d.getLsbD 7 = false ∧
      (d.extractLsb' 8 4).toNat = (match s.status.errcode with
        | .none => 0 | .illegalCmd => 1 | .invalidParams => 2 | .randomSource => 3 | .validation => 4
        | .signingFailed => 5 | .invalidBlockLength => 6 | .state => 7) ∧
      d.extractLsb' 12 20 = 0

/-- 10_state.md R57, R58: word j of the i-th operand register is its bits 255-32j down to 224-32j; an idle write
replaces exactly these bits, and an idle read returns them. -/
def Obligations.OperandWordLayout : Prop :=
  (List.range 15).map Opnd.ofIndex =
    [.a, .b, .c, .k, .px, .py, .qx, .qy, .rx, .ry, .d, .e, .sr, .ss, .hd] ∧
  ∀ (s : State) (ts : List Turn) (i j : Nat) (v : Word), i < 15 → j < 8 → s.status.busy = false →
    (HostWrites s (0x100 + 0x20 * i + 4 * j) v ts → ∃ o : Opnds, step s = .next { s.answered ts with opnd := o } ∧
      (∀ r, r ≠ Opnd.ofIndex i → o.get r = s.opnd.get r) ∧
      ∀ b, b < 256 → (o.get (Opnd.ofIndex i)).getLsbD b =
        if 224 - 32 * j ≤ b ∧ b ≤ 255 - 32 * j then v.getLsbD (b - (224 - 32 * j))
        else (s.opnd.get (Opnd.ofIndex i)).getLsbD b) ∧
    (HostReads s (0x100 + 0x20 * i + 4 * j) ts →
      step s = .next (s.returned ts ((s.opnd.get (Opnd.ofIndex i)).extractLsb' (224 - 32 * j) 32)))

/-- 20_memory.md R101: a host word of DBUF is four bytes, the first the most significant. A read returns each specified
byte exactly, at its place, and for each unspecified one the coming free value (70_reset_and_hazards.md R450; the form
of the free value, and the draws a read uses, are the model's choice: log entry 5). -/
def Obligations.DbufWordsAreBigEndian : Prop :=
  ∀ (s : State) (ts : List Turn) (j : Nat) (v : Word), j < 1024 → s.status.busy = false →
    (HostWrites s (0x1000 + 4 * j) v ts → ∃ m : Memory, step s = .next { s.answered ts with dbuf := m } ∧
      Memory.read m (4 * j) = some (v.extractLsb' 24 8) ∧ Memory.read m (4 * j + 1) = some (v.extractLsb' 16 8) ∧
      Memory.read m (4 * j + 2) = some (v.extractLsb' 8 8) ∧ Memory.read m (4 * j + 3) = some (v.extractLsb' 0 8) ∧
      ∀ a, a < 4 * j ∨ 4 * j + 4 ≤ a → Memory.read m a = Memory.read s.dbuf a) ∧
    (HostReads s (0x1000 + 4 * j) ts →
      ∃ d : Word, step s = .next { s.returned ts d with draws := s.draws + 4 } ∧
        ∀ i, i < 4 →
          (∀ b, Memory.read s.dbuf (4 * j + i) = some b → d.extractLsb' (24 - 8 * i) 8 = b) ∧
          (Memory.read s.dbuf (4 * j + i) = none → d.extractLsb' (24 - 8 * i) 8 = Config.freeByte (s.draws + i)))

/-- 10_state.md R61: reserved offsets read 0 and ignore writes, busy or idle; and the reserved bit fields of the named
registers are 0 in the register's stored word, which an idle read returns, and are ignored by a write. -/
def Obligations.ReservedReadsZeroIgnoresWrites : Prop :=
  (∀ (s : State) (ts : List Turn) (off : Nat) (v : Word), off % 4 = 0 →
    (off = 0x038 ∨ off = 0x03C ∨ (0x2E0 ≤ off ∧ off < 0x1000)) →
    (HostReads s off ts → step s = .next (s.returned ts 0)) ∧
    (HostWrites s off v ts → step s = .next (s.answered ts))) ∧
  ∀ (s : State) (v : Word),
    (∀ b, 3 ≤ b → (s.regRead .ctrl).getLsbD b = false ∧ (s.regRead .pflags).getLsbD b = false) ∧
    (s.regRead .status).getLsbD 7 = false ∧ (∀ b, 12 ≤ b → (s.regRead .status).getLsbD b = false) ∧
    (∀ b, 1 ≤ b → (s.regRead .irqstat).getLsbD b = false) ∧
    (∀ b, 6 ≤ b → (s.regRead .sm3pend).getLsbD b = false) ∧
    s.writeEffect .ctrl v = s.writeEffect .ctrl (v &&& 7) ∧
    s.writeEffect .irqstat v = s.writeEffect .irqstat (v &&& 1) ∧
    s.writeEffect .pflags v = s.writeEffect .pflags (v &&& 7)

/-- 70_reset_and_hazards.md R462: while a command runs, the registers it may write and DBUF read as a fresh free value
(log entry 4: the coming draw, whatever it is), and the others read exactly. -/
def Obligations.BusyReadsAreFreeOrExact : Prop :=
  ∀ (s : State) (ts : List Turn) (off : Nat), HostReads s off ts → s.status.busy = true → off % 4 = 0 →
    ((off = 0x020 ∨ off = 0x028 ∨ off = 0x02C ∨ off = 0x030 ∨ off = 0x034 ∨ (0x040 ≤ off ∧ off < 0x2E0) ∨
      (0x1000 ≤ off ∧ off < 0x2000)) →
      step s = .next { s.returned ts (Config.freeWord s.draws) with draws := s.draws + 1 }) ∧
    (off = 0x000 → step s = .next (s.returned ts 0x534D0100)) ∧
    (off = 0x004 → step s = .next (s.returned ts (if s.ie then 4 else 0))) ∧
    (off = 0x008 → step s = .next (s.returned ts s.cmd)) ∧
    (off = 0x00C → step s = .next (s.returned ts (statusWord s.status s.sm3.st))) ∧
    (off = 0x010 → step s = .next (s.returned ts (if s.irqDone then 1 else 0))) ∧
    (off = 0x014 → step s = .next (s.returned ts s.src)) ∧
    (off = 0x018 → step s = .next (s.returned ts s.dst)) ∧
    (off = 0x01C → step s = .next (s.returned ts s.len)) ∧
    (off = 0x024 → step s = .next (s.returned ts s.retry))

/-- 20_memory.md R105, 60_exceptions.md R406: an access that is not all 32 bits of an aligned word of the window has an
error response, reads as 0, and changes nothing. -/
def Obligations.BusErrorHasNoEffect : Prop :=
  ∀ (s : State) (ts : List Turn) (a : Access), s.turns = .host a :: ts →
    (a.off % 4 ≠ 0 ∨ a.bits ≠ 32 ∨ a.strobes = false ∨ a.off < 0 ∨ 8192 ≤ a.off) →
    step s = .next { s with turns := ts, resp := some ⟨true, 0⟩ }

/-- 10_state.md R46, R71: a write of 1 to IRQSTAT bit 0 clears DONE and a write of 0 does not, busy or idle; a start
leaves it; irq is IRQSTAT.DONE and CTRL.IE. -/
def Obligations.InterruptFlagAndOutput : Prop :=
  (∀ (s : State) (ts : List Turn) (v : Word), HostWrites s 0x010 v ts →
    step s = .next { s.answered ts with irqDone := if v.getLsbD 0 then false else s.irqDone }) ∧
  (∀ s : State, s.startCommand.irqDone = s.irqDone) ∧
  ∀ s : State, s.irq = true ↔ s.irqDone = true ∧ s.ie = true

/-- 10_state.md R40-R43: a host access that is neither a START while idle nor a reset leaves STATUS, SM3ST and the
engine's phase as they were. -/
def Obligations.OnlyTheEngineWritesStatus : Prop :=
  ∀ (s t : State) (ts : List Turn) (a : Access), s.turns = .host a :: ts →
    (∀ v, a = .wr 0x004 v → v.getLsbD 1 = false ∧ (v.getLsbD 0 = false ∨ s.status.busy = true)) →
    step s = .next t →
    t.status = s.status ∧ t.sm3 = s.sm3 ∧ t.phase = s.phase ∧ t.cmdl = s.cmdl ∧ t.attempt = s.attempt ∧
      t.nonce = s.nonce ∧ t.outlen = s.outlen

/-! ### Rules of the whole machine -/

/-- 40_control.md R170, R173, R175: every step answers a next state; a command either completes or waits on the entropy
source, and only KEYGEN and SIGN wait. That a bus error is a next state too (log entry 6), and that a command completes
in one engine step (log entry 2), are the model's choice. -/
def Obligations.CommandsCompleteOrWait : Prop :=
  (∀ s : State, ∃ t, step s = .next t) ∧
  ∀ (i : Instr) (s : State), ∃ t, exec i s = .next t ∧
    ((∃ code vok, Completed t code vok) ∨ ((i = .keygen ∨ i = .sign) ∧ Waits s t))

/-- The invariant holds right after reset (70_reset_and_hazards.md R450). -/
def Obligations.ResetMeetsTheInvariant : Prop := State.reset.Inv

/-- Every step keeps the invariant, whichever agent moves (10_state.md R42, R43, R53, R62, R63; 40_control.md R170;
44_sm3.md R319). That no nonce is held between two steps follows from the model's steps (log entries 2 and 16). -/
def Obligations.StepKeepsTheInvariant : Prop :=
  ∀ s t : State, s.Inv → step s = .next t → t.Inv

/-- 10_state.md R59: a command writes no operand register and no point flag outside its row, and what it writes, its
status, and every other effect depend on no operand register and no point flag outside its row. Where a command reads
unspecified bytes of DBUF, the two runs are compared on the same draws (the model's choice: log entry 5). -/
def Obligations.CommandsUseOnlyTheirRow : Prop :=
  (∀ (i : Instr) (s t : State), exec i s = .next t →
    OpndsKeptBut s t (opndWrites i) ∧
    (.px ∉ opndWrites i → t.pflags.pinf = s.pflags.pinf) ∧ (.qx ∉ opndWrites i → t.pflags.qinf = s.pflags.qinf) ∧
    (.rx ∉ opndWrites i → t.pflags.rinf = s.pflags.rinf)) ∧
  ∀ (i : Instr) (s t t' : State) (o : Opnds) (f : PFlags),
    (∀ r, r ∈ opndReads i → o.get r = s.opnd.get r) →
    (.px ∈ opndReads i → f.pinf = s.pflags.pinf) → (.qx ∈ opndReads i → f.qinf = s.pflags.qinf) →
    exec i s = .next t → exec i { s with opnd := o, pflags := f } = .next t' →
    t'.status = t.status ∧ t'.phase = t.phase ∧ t'.sm3 = t.sm3 ∧ t'.sm4 = t.sm4 ∧ t'.dbuf = t.dbuf ∧
    t'.outlen = t.outlen ∧
    (t.phase = .idle → t.status.err = false →
      (∀ r, r ∈ opndWrites i → t'.opnd.get r = t.opnd.get r) ∧
      (.px ∈ opndWrites i → t'.pflags.pinf = t.pflags.pinf) ∧
      (.qx ∈ opndWrites i → t'.pflags.qinf = t.pflags.qinf) ∧
      (.rx ∈ opndWrites i → t'.pflags.rinf = t.pflags.rinf))

/-- 10_state.md R47, 41_field.md R203, 42_curve.md R239, 44_sm3.md R320-R330, 45_sm4.md R361: what each kind of command
leaves unchanged beside the operand registers; no command writes CTRL.IE, CMD, SRC, DST, LEN or RETRY, and an SM4 mode
command keeps every byte of DBUF outside its output region. That CMDL is kept is read from the spec by inference
(log entry 21). -/
def Obligations.CommandFrames : Prop :=
  ∀ (i : Instr) (s t : State), exec i s = .next t →
    HostKept s t ∧
    (i ∉ [.zeroize, .sm3init, .sm3upd, .sm3fin] → t.sm3 = s.sm3) ∧
    (i ∉ [.zeroize, .sm4key, .cbcenc false, .cbcenc true, .cbcdec false, .cbcdec true] → t.sm4 = s.sm4) ∧
    (i ∉ [.zeroize, .ecbenc, .ecbdec, .cbcenc false, .cbcenc true, .cbcdec false, .cbcdec true] →
      t.dbuf = s.dbuf ∧ t.outlen = s.outlen) ∧
    ∀ n, modeOutLen i s.len.toNat = some n → KeptOutside s t s.dst.toNat n

/-- 40_control.md R176: a command that raises an error writes no operand register, no point flag, no SM3 or SM4 register
and no DBUF byte, but for the zero-fill of CBCDEC.PAD on a padding failure; and OUTLEN becomes 0 for an SM4 mode command
and is kept by every other. -/
def Obligations.ErrorsWriteNoResult : Prop :=
  ∀ (i : Instr) (s t : State), exec i s = .next t → t.phase = .idle → t.status.err = true →
    t.opnd = s.opnd ∧ t.pflags = s.pflags ∧ t.sm3 = s.sm3 ∧ t.sm4 = s.sm4 ∧
    (¬(i = .cbcdec true ∧ t.status.errcode = .validation) → t.dbuf = s.dbuf) ∧
    t.outlen = if (modeOutLen i 0).isSome then 0 else s.outlen

/-- 60_exceptions.md R404: the errors each command can raise; a word that decodes to no command gives ILLEGAL_CMD. The
engine moves because its turn is listed or because no turn is (the model's choice: log entry 1). -/
def Obligations.ErrorCodesPerCommand : Prop :=
  ∀ s t : State, s.phase ≠ .idle → (s.turns = [] ∨ ∃ ts, s.turns = .engine :: ts) → step s = .next t →
    t.phase = .idle →
    (∀ i, decode s.cmdl = .ok i → t.status.errcode = .none ∨ t.status.errcode ∈ errorsOf i) ∧
    (∀ r, decode s.cmdl = .error r → t.status.errcode = .illegalCmd) ∧
    (t.status.err = true ↔ t.status.errcode ≠ .none)

/-- 10_state.md R43: VOK is cleared by every start, is the answer of VERIFY and PCHK, and stays 0 for every other
command. -/
def Obligations.VokIsTheVerdict : Prop :=
  (∀ s : State, s.startCommand.status.vok = false) ∧
  ∀ (i : Instr) (s t : State), exec i s = .next t → t.phase = .idle →
    (i = .verify → (t.status.vok = true ↔
      sm2Verify s.opnd.e.toNat s.opnd.sr.toNat s.opnd.ss.toNat s.ptQ = true)) ∧
    (i = .pchk → (t.status.vok = true ↔ pointValid s.ptP = true)) ∧
    (i ≠ .verify → i ≠ .pchk → t.status.vok = false)

/-- 44_sm3.md R332: the table of the SM3 context's transitions, command by command and for both resets. -/
def Obligations.Sm3StateTransitions : Prop :=
  (∀ (i : Instr) (s t : State), exec i s = .next t →
    (i = .sm3init → t.sm3.st = .active) ∧
    (i = .sm3upd → t.sm3.st = s.sm3.st ∧ (s.sm3.st ≠ .active → t.status.errcode = .state)) ∧
    (i = .sm3fin → (s.sm3.st = .active → t.sm3.st = .final) ∧
      (s.sm3.st ≠ .active → t.sm3.st = s.sm3.st ∧ t.status.errcode = .state)) ∧
    (i = .zeroize → t.sm3.st = .idle) ∧
    (i ≠ .sm3init → i ≠ .sm3upd → i ≠ .sm3fin → i ≠ .zeroize → t.sm3.st = s.sm3.st)) ∧
  ∀ s : State, s.softReset.sm3.st = .idle ∧ s.hardReset.sm3.st = .idle

/-- 40_control.md R183: no command but ZEROIZE clears key material: D changes only by KEYGEN, SM4KEY by none, RK only by
SM4KEY, and the final state of a hash only by SM3INIT. -/
def Obligations.OnlyZeroizeClearsKeys : Prop :=
  ∀ (i : Instr) (s t : State), exec i s = .next t → i ≠ .zeroize →
    (i ≠ .keygen → t.opnd.d = s.opnd.d) ∧ t.sm4.key = s.sm4.key ∧ (i ≠ .sm4key → t.sm4.rk = s.sm4.rk) ∧
    (s.sm3.st = .final → i ≠ .sm3init → t.sm3.v = s.sm3.v)

/-! ### Control and field commands -/

/-- 40_control.md R180: NOP completes with no effect. -/
def Obligations.NopCompletes : Prop :=
  (decode 0x00000000 = .ok .nop) ∧
  ∀ s : State, ∃ t, exec .nop s = .next t ∧ Completed t .none false ∧ DataKept s t ∧ t.rng = s.rng

/-- 40_control.md R182: ZEROIZE clears every operand, point flag, key, context and DBUF byte, and OUTLEN, and keeps the
host's control registers. -/
def Obligations.ZeroizeClearsAll : Prop :=
  (decode 0x00000001 = .ok .zeroize) ∧
  ∀ s : State, ∃ t, exec .zeroize s = .next t ∧ Completed t .none false ∧ HostKept s t ∧
    (∀ r, t.opnd.get r = 0) ∧ t.pflags = ⟨false, false, false⟩ ∧
    t.sm4.key = Block.zero ∧ t.sm4.cv = Block.zero ∧ (∀ i : Fin 32, t.sm4.rk[i] = 0) ∧
    t.sm3.st = .idle ∧ t.sm3.v = Sm3Words.zero ∧ t.sm3.cnt = 0 ∧ t.sm3.plen = 0 ∧ (∀ i : Fin 64, t.sm3.pbuf[i] = 0) ∧
    t.outlen = 0 ∧ (∀ a, a < 4096 → Memory.read t.dbuf a = some 0) ∧ t.rng = s.rng ∧ t.draws = s.draws

/-- 41_field.md R210-R212: FADD, FSUB and FMUL write the exact value modulo M into C alone, and raise INVALID_PARAMS,
writing nothing, when A or B is not below M. -/
def Obligations.FieldAddSubMul : Prop :=
  (decode 0x00000010 = .ok (.fadd .p) ∧ decode 0x00000110 = .ok (.fadd .n) ∧
    decode 0x00000011 = .ok (.fsub .p) ∧ decode 0x00000111 = .ok (.fsub .n) ∧
    decode 0x00000012 = .ok (.fmul .p) ∧ decode 0x00000112 = .ok (.fmul .n)) ∧
  ∀ (m : Modulus) (s : State),
    (s.opnd.a.toNat < modulus m → s.opnd.b.toNat < modulus m →
      (∃ t, exec (.fadd m) s = .next t ∧ Completed t .none false ∧ OnlyC s t ∧
        (t.opnd.c.toNat : Int) = ((s.opnd.a.toNat : Int) + s.opnd.b.toNat) % modulus m) ∧
      (∃ t, exec (.fsub m) s = .next t ∧ Completed t .none false ∧ OnlyC s t ∧
        (t.opnd.c.toNat : Int) = ((s.opnd.a.toNat : Int) - s.opnd.b.toNat) % modulus m) ∧
      (∃ t, exec (.fmul m) s = .next t ∧ Completed t .none false ∧ OnlyC s t ∧
        (t.opnd.c.toNat : Int) = ((s.opnd.a.toNat : Int) * s.opnd.b.toNat) % modulus m)) ∧
    ((modulus m ≤ s.opnd.a.toNat ∨ modulus m ≤ s.opnd.b.toNat) →
      ∀ i, i = .fadd m ∨ i = .fsub m ∨ i = .fmul m →
        ∃ t, exec i s = .next t ∧ Completed t .invalidParams false ∧ DataKept s t ∧ t.rng = s.rng)

/-- 41_field.md R213: FINV writes the inverse of A modulo M into C alone, for 0 < A < M, and raises INVALID_PARAMS,
writing nothing, for every other A. -/
def Obligations.FieldInverse : Prop :=
  (decode 0x00000013 = .ok (.finv .p) ∧ decode 0x00000113 = .ok (.finv .n)) ∧
  ∀ (m : Modulus) (s : State),
    (0 < s.opnd.a.toNat → s.opnd.a.toNat < modulus m →
      ∃ t, exec (.finv m) s = .next t ∧ Completed t .none false ∧ OnlyC s t ∧
        0 < t.opnd.c.toNat ∧ t.opnd.c.toNat < modulus m ∧ s.opnd.a.toNat * t.opnd.c.toNat % modulus m = 1) ∧
    ((s.opnd.a.toNat = 0 ∨ modulus m ≤ s.opnd.a.toNat) →
      ∃ t, exec (.finv m) s = .next t ∧ Completed t .invalidParams false ∧ DataKept s t ∧ t.rng = s.rng)

/-- 41_field.md R214: FRED writes A mod M into C alone, for every A. -/
def Obligations.FieldReduce : Prop :=
  (decode 0x00000014 = .ok (.fred .p) ∧ decode 0x00000114 = .ok (.fred .n)) ∧
  ∀ (m : Modulus) (s : State), ∃ t, exec (.fred m) s = .next t ∧ Completed t .none false ∧ OnlyC s t ∧
    t.opnd.c.toNat = s.opnd.a.toNat % modulus m

/-! ### Curve commands -/

/-- 42_curve.md R245, R246, R237: PADD and PDBL write the sum, a valid point, into R alone, and raise VALIDATION,
writing nothing, on an invalid input point. -/
def Obligations.PointAddAndDouble : Prop :=
  (decode 0x00000020 = .ok .padd ∧ decode 0x00000021 = .ok .pdbl) ∧
  ∀ s : State,
    (pointValid s.ptP = true → pointValid s.ptQ = true →
      ∃ t, exec .padd s = .next t ∧ Completed t .none false ∧ OnlyR s t ∧ ResultPoint t (ecAdd s.ptP s.ptQ) ∧
        pointValid (ecAdd s.ptP s.ptQ) = true) ∧
    (pointValid s.ptP = true →
      ∃ t, exec .pdbl s = .next t ∧ Completed t .none false ∧ OnlyR s t ∧ ResultPoint t (ecAdd s.ptP s.ptP)) ∧
    ((pointValid s.ptP = false ∨ pointValid s.ptQ = false) →
      ∃ t, exec .padd s = .next t ∧ Completed t .validation false ∧ DataKept s t ∧ t.rng = s.rng) ∧
    (pointValid s.ptP = false →
      ∃ t, exec .pdbl s = .next t ∧ Completed t .validation false ∧ DataKept s t ∧ t.rng = s.rng)

/-- 42_curve.md R247, R248, R237: PMUL and PMULG write the multiple, a valid point, into R alone; PMUL raises
VALIDATION, writing nothing, on an invalid P. -/
def Obligations.PointMultiply : Prop :=
  (decode 0x00000022 = .ok .pmul ∧ decode 0x00000023 = .ok .pmulg) ∧
  ∀ s : State,
    (pointValid s.ptP = true →
      ∃ t, exec .pmul s = .next t ∧ Completed t .none false ∧ OnlyR s t ∧
        ResultPoint t (ecMul s.opnd.k.toNat s.ptP) ∧ pointValid (ecMul s.opnd.k.toNat s.ptP) = true) ∧
    (pointValid s.ptP = false →
      ∃ t, exec .pmul s = .next t ∧ Completed t .validation false ∧ DataKept s t ∧ t.rng = s.rng) ∧
    ∃ t, exec .pmulg s = .next t ∧ Completed t .none false ∧ OnlyR s t ∧
      ResultPoint t (ecMul s.opnd.k.toNat pointG) ∧ pointValid (ecMul s.opnd.k.toNat pointG) = true

/-- 42_curve.md R250, R232, R233: PCHK's answer is VOK: 1 for O and for coordinates below p that satisfy the curve
equation. It is never an error, and writes nothing. -/
def Obligations.PointCheck : Prop :=
  (decode 0x00000024 = .ok .pchk) ∧
  ∀ s : State, ∃ t vok, exec .pchk s = .next t ∧ Completed t .none vok ∧ DataKept s t ∧ t.rng = s.rng ∧
    (vok = true ↔ s.pflags.pinf = true ∨
      (s.opnd.px.toNat < sm2p ∧ s.opnd.py.toNat < sm2p ∧
        ((s.opnd.py.toNat : Int) ^ 2 - ((s.opnd.px.toNat : Int) ^ 3 + sm2a * s.opnd.px.toNat + sm2b)) % sm2p = 0))

/-- 42_curve.md R231, R234: on valid points `ecAdd` is a commutative group law with neutral element O. -/
def Obligations.PointAdditionIsAGroupLaw : Prop :=
  ∀ P Q R : Point, pointValid P = true → pointValid Q = true → pointValid R = true →
    pointValid (ecAdd P Q) = true ∧ ecAdd P Q = ecAdd Q P ∧ ecAdd (ecAdd P Q) R = ecAdd P (ecAdd Q R) ∧
    ecAdd P .inf = P ∧ ∃ N, pointValid N = true ∧ ecAdd P N = .inf

/-- 42_curve.md R236, R248: `ecMul(k, P)` is the k-fold sum of a valid point, and k·G is O exactly when n divides k. -/
def Obligations.ScalarMultiplicationIsRepeatedAddition : Prop :=
  (∀ (P : Point) (k : Nat), pointValid P = true → k < 2 ^ 256 → ecMul k P = (fun q => ecAdd q P)^[k] .inf) ∧
  ∀ k : Nat, k < 2 ^ 256 → (ecMul k pointG = .inf ↔ k % sm2n = 0)

/-! ### SM2 commands -/

/-- 43_sm2.md R276: KEYGEN writes the drawn d into D and d·G, which is a valid point and never O, into Q; it raises
RANDOM_SOURCE, writing nothing, on a failure of the source, and waits while the source withholds (log entry 3). -/
def Obligations.KeyGeneration : Prop :=
  ∀ (s : State) (rest : List RngAnswer),
    (∀ d, s.rng = .value d :: rest → 1 ≤ d → d ≤ sm2n - 2 →
      ∃ t, exec .keygen s = .next t ∧ Completed t .none false ∧ OnlyOperands s t ∧ OpndsKeptBut s t [.d, .qx, .qy] ∧
        t.opnd.d.toNat = d ∧ t.pflags.qinf = false ∧ t.ptQ = ecMul d pointG ∧ t.ptQ ≠ .inf ∧
        pointValid t.ptQ = true ∧ t.pflags.pinf = s.pflags.pinf ∧ t.pflags.rinf = s.pflags.rinf ∧ t.rng = rest) ∧
    (s.rng = .fail :: rest →
      ∃ t, exec .keygen s = .next t ∧ Completed t .randomSource false ∧ DataKept s t ∧ t.rng = rest) ∧
    ((s.rng = .wait :: rest ∨ (s.rng = [] ∧ rest = [])) →
      ∃ t, exec .keygen s = .next t ∧ Waits s t ∧ t.attempt = s.attempt ∧ t.nonce = s.nonce ∧ t.rng = rest)

/-- 43_sm2.md R280, R281: SIGN's attempts. After the nonces `ks`, which all gave RETRY, a nonce that gives (r, s') ends
the command with the signature in SR and SS alone; a failure of the source ends it with RANDOM_SOURCE; a withheld answer
leaves it waiting, with no nonce held (log entry 16); and the attempt that uses up the budget ends it with
SIGNING_FAILED. Bad operands give INVALID_PARAMS. -/
def Obligations.SignAttempts : Prop :=
  ∀ (s : State) (ks : List Nat) (rest : List RngAnswer),
    (1 ≤ s.opnd.d.toNat ∧ s.opnd.d.toNat ≤ sm2n - 2 ∧ 1 ≤ s.retry.toNat →
      (∀ k, k ∈ ks → 1 ≤ k ∧ k ≤ sm2n - 1 ∧ signCore (s.opnd.e.toNat % sm2n) s.opnd.d.toNat k = none) →
      (s.attempt + ks.length < s.retry.toNat →
        (∀ k r s', s.rng = ks.map .value ++ .value k :: rest → 1 ≤ k → k ≤ sm2n - 1 →
          signCore (s.opnd.e.toNat % sm2n) s.opnd.d.toNat k = some (r, s') →
          ∃ t, exec .sign s = .next t ∧ Completed t .none false ∧ OnlyOperands s t ∧ t.pflags = s.pflags ∧
            OpndsKeptBut s t [.sr, .ss] ∧ t.opnd.sr.toNat = r ∧ t.opnd.ss.toNat = s' ∧ t.rng = rest) ∧
        (s.rng = ks.map .value ++ .fail :: rest →
          ∃ t, exec .sign s = .next t ∧ Completed t .randomSource false ∧ DataKept s t ∧ t.rng = rest) ∧
        ((s.rng = ks.map .value ++ .wait :: rest ∨ (s.rng = ks.map .value ∧ rest = [])) →
          ∃ t, exec .sign s = .next t ∧ Waits s t ∧ t.attempt = s.attempt + ks.length ∧ t.nonce = none ∧ t.rng = rest)) ∧
      (ks ≠ [] → s.attempt + ks.length = s.retry.toNat → s.rng = ks.map .value ++ rest →
        ∃ t, exec .sign s = .next t ∧ Completed t .signingFailed false ∧ DataKept s t ∧ t.rng = rest)) ∧
    (s.opnd.d.toNat = 0 ∨ sm2n - 2 < s.opnd.d.toNat ∨ s.retry.toNat = 0 →
      ∃ t, exec .sign s = .next t ∧ Completed t .invalidParams false ∧ DataKept s t ∧ t.rng = s.rng)

/-- 43_sm2.md R285: SIGNK writes the signature of its one attempt into SR and SS alone, raises SIGNING_FAILED where the
attempt gives RETRY, and INVALID_PARAMS for a D or K out of range; an error writes nothing. -/
def Obligations.SignWithNonce : Prop :=
  (decode 0x00000032 = .ok .signk) ∧
  ∀ s : State,
    (1 ≤ s.opnd.d.toNat ∧ s.opnd.d.toNat ≤ sm2n - 2 ∧ 1 ≤ s.opnd.k.toNat ∧ s.opnd.k.toNat ≤ sm2n - 1 →
      (∀ r s', signCore (s.opnd.e.toNat % sm2n) s.opnd.d.toNat s.opnd.k.toNat = some (r, s') →
        ∃ t, exec .signk s = .next t ∧ Completed t .none false ∧ OnlyOperands s t ∧ t.pflags = s.pflags ∧
          OpndsKeptBut s t [.sr, .ss] ∧ t.opnd.sr.toNat = r ∧ t.opnd.ss.toNat = s' ∧ t.rng = s.rng) ∧
      (signCore (s.opnd.e.toNat % sm2n) s.opnd.d.toNat s.opnd.k.toNat = none →
        ∃ t, exec .signk s = .next t ∧ Completed t .signingFailed false ∧ DataKept s t ∧ t.rng = s.rng)) ∧
    (s.opnd.d.toNat = 0 ∨ sm2n - 2 < s.opnd.d.toNat ∨ s.opnd.k.toNat = 0 ∨ sm2n - 1 < s.opnd.k.toNat →
      ∃ t, exec .signk s = .next t ∧ Completed t .invalidParams false ∧ DataKept s t ∧ t.rng = s.rng)

/-- 43_sm2.md R274: one signing attempt. k·G is never O; with x1 its x coordinate and r = (e + x1) mod n, the attempt is
a RETRY exactly when r = 0, r + k = n, or the s of the equation is 0; otherwise it gives r and the s in [1, n) with
s·(1 + d) = k - r·d modulo n. -/
def Obligations.SignatureEquations : Prop :=
  ∀ e d k : Nat, e < sm2n → 1 ≤ d → d ≤ sm2n - 2 → 1 ≤ k → k ≤ sm2n - 1 →
    ∃ x1 y1, ecMul k pointG = .aff x1 y1 ∧
      (signCore e d k = none ↔ (e + x1) % sm2n = 0 ∨ (e + x1) % sm2n + k = sm2n ∨
        ((k : Int) - ((e + x1) % sm2n : Nat) * d) % sm2n = 0) ∧
      ∀ r s, signCore e d k = some (r, s) →
        r = (e + x1) % sm2n ∧ 0 < s ∧ s < sm2n ∧ ((s : Int) * (1 + d)) % sm2n = ((k : Int) - r * d) % sm2n

/-- 43_sm2.md R290, R291: VERIFY's answer is VOK, by exactly these conditions. It is never an error, and writes
nothing. -/
def Obligations.SignatureVerification : Prop :=
  (decode 0x00000033 = .ok .verify) ∧
  ∀ s : State, ∃ t vok, exec .verify s = .next t ∧ Completed t .none vok ∧ DataKept s t ∧ t.rng = s.rng ∧
    (vok = true ↔
      (1 ≤ s.opnd.sr.toNat ∧ s.opnd.sr.toNat ≤ sm2n - 1) ∧ (1 ≤ s.opnd.ss.toNat ∧ s.opnd.ss.toNat ≤ sm2n - 1) ∧
      s.ptQ ≠ .inf ∧ pointValid s.ptQ = true ∧ (s.opnd.sr.toNat + s.opnd.ss.toNat) % sm2n ≠ 0 ∧
      ∃ x1 y1, ecAdd (ecMul s.opnd.ss.toNat pointG)
          (ecMul ((s.opnd.sr.toNat + s.opnd.ss.toNat) % sm2n) s.ptQ) = .aff x1 y1 ∧
        (s.opnd.e.toNat % sm2n + x1) % sm2n = s.opnd.sr.toNat)

/-- 43_sm2.md R292: a signature that SIGN or SIGNK made is accepted by VERIFY with the same E and the public point of
D. -/
def Obligations.SignedDigestsVerify : Prop :=
  ∀ (i : Instr) (s t u v : State), i = .sign ∨ i = .signk → exec i s = .next t → t.phase = .idle →
    t.status.err = false → u.opnd.e = s.opnd.e → u.opnd.sr = t.opnd.sr → u.opnd.ss = t.opnd.ss →
    u.ptQ = ecMul s.opnd.d.toNat pointG → exec .verify u = .next v → v.status.vok = true

/-! ### SM3 commands -/

/-- 44_sm3.md R320: SM3INIT starts a hash from every context, and the context holds the empty message. -/
def Obligations.Sm3Init : Prop :=
  (decode 0x00000040 = .ok .sm3init) ∧
  ∀ s : State, ∃ t, exec .sm3init s = .next t ∧ Completed t .none false ∧ OnlySm3 s t ∧ t.opnd = s.opnd ∧
    t.draws = s.draws ∧ t.sm3.st = .active ∧ t.sm3.v = sm3IV ∧ t.sm3.cnt = 0 ∧ t.sm3.plen = 0 ∧
    (∀ i : Fin 64, t.sm3.pbuf[i] = 0) ∧ t.sm3.Holds []

/-- 44_sm3.md R324: SM3UPD on a context that holds m makes it hold m and the LEN bytes at SRC; a context that is not
ACTIVE gives STATE, and then a bad region INVALID_PARAMS, and an error writes nothing. -/
def Obligations.Sm3Update : Prop :=
  ∀ s : State,
    (s.sm3.st = .active → InDbuf s.src.toNat s.len.toNat →
      ∃ t, exec .sm3upd s = .next t ∧ Completed t .none false ∧ OnlySm3 s t ∧ t.opnd = s.opnd ∧
        t.sm3.st = .active ∧ t.sm3.cnt = s.sm3.cnt + s.len.zeroExtend 64 ∧
        ∀ m : List Byte, s.sm3.Holds m → m.length + s.len.toNat < 2 ^ 64 →
          t.sm3.Holds (m ++ s.memRead s.src.toNat s.len.toNat)) ∧
    (s.sm3.st ≠ .active →
      ∃ t, exec .sm3upd s = .next t ∧ Completed t .state false ∧ DataKept s t ∧ t.rng = s.rng) ∧
    (s.sm3.st = .active → ¬ InDbuf s.src.toNat s.len.toNat →
      ∃ t, exec .sm3upd s = .next t ∧ Completed t .invalidParams false ∧ DataKept s t ∧ t.rng = s.rng)

/-- 44_sm3.md R330, R318: SM3FIN on a context that holds m writes the digest SM3(m) into HD alone, leaves it in V with
CNT kept, and ends the context; a context that is not ACTIVE gives STATE, and nothing is written. -/
def Obligations.Sm3Finish : Prop :=
  ∀ s : State,
    (s.sm3.st = .active →
      ∃ t, exec .sm3fin s = .next t ∧ Completed t .none false ∧ OnlySm3 s t ∧ OpndsKeptBut s t [.hd] ∧
        t.draws = s.draws ∧ t.sm3.st = .final ∧ t.sm3.cnt = s.sm3.cnt ∧ t.sm3.plen = 0 ∧
        (∀ i : Fin 64, t.sm3.pbuf[i] = 0) ∧ (∀ j : Fin 8, word256 t.opnd.hd j = t.sm3.v.word j) ∧
        ∀ m : List Byte, s.sm3.Holds m → t.opnd.hd.toNat = os2i (sm3Hash m)) ∧
    (s.sm3.st ≠ .active →
      ∃ t, exec .sm3fin s = .next t ∧ Completed t .state false ∧ DataKept s t ∧ t.rng = s.rng)

/-- 44_sm3.md R333: after SM3INIT and any sequence of successful SM3UPD commands on the bytes m, whatever the host does
to the rest of the machine between them, SM3FIN completes with HD = SM3(m), for len(m) < 2^64. -/
def Obligations.DigestOfAbsorbedBytes : Prop :=
  ∀ (m : List Byte) (s : State), Absorbed m s → m.length < 2 ^ 64 →
    ∃ t, exec .sm3fin s = .next t ∧ Completed t .none false ∧ t.opnd.hd.toNat = os2i (sm3Hash m)

/-! ### SM4 commands -/

/-- 45_sm4.md R360, R354: SM4KEY writes the round keys of the key schedule's recurrence into RK alone. -/
def Obligations.KeyScheduleIntoRk : Prop :=
  (decode 0x00000050 = .ok .sm4key) ∧
  ∀ s : State, ∃ t, exec .sm4key s = .next t ∧ Completed t .none false ∧ OnlySm4 s t ∧ t.sm4.cv = s.sm4.cv ∧
    t.outlen = s.outlen ∧ t.dbuf = s.dbuf ∧ t.draws = s.draws ∧
    ∃ K : Nat → Word, (∀ i : Fin 4, K i.val = s.sm4.key.word i ^^^ sm4FK.word i) ∧
      ∀ i : Fin 32, K (i.val + 4) = K i.val ^^^ sm4T' (K (i.val + 1) ^^^ K (i.val + 2) ^^^ K (i.val + 3) ^^^ sm4CK i.val) ∧
        t.sm4.rk[i] = K (i.val + 4)

/-- 45_sm4.md R355: the block transform is the recurrence over 32 rounds with the reversed last words, for encryption
with the round keys in order and for decryption in reverse order. -/
def Obligations.BlockTransformRounds : Prop :=
  ∀ (rk : Vector Word 32) (b : Block),
    (∃ X : Nat → Word, (∀ i : Fin 4, X i.val = b.word i) ∧
      (∀ i : Fin 32, X (i.val + 4) = X i.val ^^^ sm4T (X (i.val + 1) ^^^ X (i.val + 2) ^^^ X (i.val + 3) ^^^ rk[i])) ∧
      sm4Enc rk b = ⟨X 35, X 34, X 33, X 32⟩) ∧
    ∃ X : Nat → Word, (∀ i : Fin 4, X i.val = b.word i) ∧
      (∀ i : Fin 32, X (i.val + 4) =
        X i.val ^^^ sm4T (X (i.val + 1) ^^^ X (i.val + 2) ^^^ X (i.val + 3) ^^^ rk[(31 - i.val : Nat)])) ∧
      sm4Dec rk b = ⟨X 35, X 34, X 33, X 32⟩

/-- 45_sm4.md R356: for every schedule, decryption and encryption of a block are inverse. -/
def Obligations.BlockDecryptionInvertsEncryption : Prop :=
  ∀ (rk : Vector Word 32) (b : Block), sm4Dec rk (sm4Enc rk b) = b ∧ sm4Enc rk (sm4Dec rk b) = b

/-- 45_sm4.md R361: the checks of an SM4 mode command, in order: the regions, then the length; a command that fails one
sets OUTLEN to 0 and changes nothing else. -/
def Obligations.ModeChecksInOrder : Prop :=
  ∀ (i : Instr) (s : State) (n : Nat), modeOutLen i s.len.toNat = some n →
    (¬ ModeRegions s n → ∃ t, exec i s = .next t ∧ Completed t .invalidParams false ∧
      DataKept { s with outlen := 0 } t ∧ t.rng = s.rng) ∧
    (ModeRegions s n →
      ((i ≠ .cbcenc true ∧ s.len.toNat % 16 ≠ 0) ∨ (i = .cbcdec true ∧ s.len.toNat = 0)) →
      ∃ t, exec i s = .next t ∧ Completed t .invalidBlockLength false ∧
        DataKept { s with outlen := 0 } t ∧ t.rng = s.rng)

/-- 45_sm4.md R365, R366: ECBENC and ECBDEC write the transform of each block of the LEN bytes at SRC to DST and change
nothing else but OUTLEN, for whole blocks in legal regions. -/
def Obligations.EcbCommands : Prop :=
  ∀ (i : Instr) (f : Vector Word 32 → Block → Block) (s : State),
    (i = .ecbenc ∧ f = sm4Enc) ∨ (i = .ecbdec ∧ f = sm4Dec) → ModeRegions s s.len.toNat → s.len.toNat % 16 = 0 →
    ∃ t, exec i s = .next t ∧ Completed t .none false ∧ OnlySm4 s t ∧ t.sm4 = s.sm4 ∧
      t.outlen = s.len ∧ KeptOutside s t s.dst.toNat s.len.toNat ∧
      ∀ j, j < s.len.toNat / 16 →
        HoldsAt t (s.dst.toNat + 16 * j) (f s.sm4.rk (blockAt (s.memRead s.src.toNat s.len.toNat) j)).bytes

/-- 45_sm4.md R370: CBCENC chains the blocks of the message, padded where PAD is 1, from CV, writes the ciphertext to
DST, leaves CV at the last ciphertext block, and changes nothing else but OUTLEN. -/
def Obligations.CbcEncryption : Prop :=
  ∀ (pad : Bool) (s : State) (n : Nat) (m : List Byte),
    n = (if pad then s.len.toNat + 16 - s.len.toNat % 16 else s.len.toNat) →
    m = (if pad then pad7 (s.memRead s.src.toNat s.len.toNat) else s.memRead s.src.toNat s.len.toNat) →
    ModeRegions s n → (pad = false → s.len.toNat % 16 = 0) →
    ∃ t, exec (.cbcenc pad) s = .next t ∧ Completed t .none false ∧ OnlySm4 s t ∧ t.sm4.rk = s.sm4.rk ∧
      t.outlen.toNat = n ∧ KeptOutside s t s.dst.toNat n ∧
      ∃ c : Nat → Block,
        (∀ j, j < n / 16 → c j = sm4Enc s.sm4.rk ((blockAt m j).xor (if j = 0 then s.sm4.cv else c (j - 1))) ∧
          HoldsAt t (s.dst.toNat + 16 * j) (c j).bytes) ∧
        t.sm4.cv = if n = 0 then s.sm4.cv else c (n / 16 - 1)

/-- 45_sm4.md R375: CBCDEC decrypts and chains the blocks from CV. Without PAD it writes the plaintext; with PAD it
writes the stripped plaintext and zeros in the pad positions where the padding is valid, and zeros everywhere with
VALIDATION, OUTLEN = 0 and CV kept where it is not. Nothing else changes. -/
def Obligations.CbcDecryption : Prop :=
  ∀ (pad : Bool) (s : State) (c : List Byte), c = s.memRead s.src.toNat s.len.toNat →
    ModeRegions s s.len.toNat → s.len.toNat % 16 = 0 → (pad = true → s.len.toNat ≠ 0) →
    ∃ (t : State) (y : List Byte), exec (.cbcdec pad) s = .next t ∧ OnlySm4 s t ∧ t.sm4.rk = s.sm4.rk ∧
      KeptOutside s t s.dst.toNat s.len.toNat ∧ y.length = s.len.toNat ∧
      (∀ j, j < s.len.toNat / 16 →
        blockAt y j = (sm4Dec s.sm4.rk (blockAt c j)).xor (if j = 0 then s.sm4.cv else blockAt c (j - 1))) ∧
      (pad = false → Completed t .none false ∧ t.outlen = s.len ∧ HoldsAt t s.dst.toNat y) ∧
      (pad = true → valid7 y = true → Completed t .none false ∧ t.outlen.toNat = (strip7 y).length ∧
        HoldsAt t s.dst.toNat (strip7 y ++ List.replicate (s.len.toNat - (strip7 y).length) 0)) ∧
      (pad = true → valid7 y = false → Completed t .validation false ∧ t.outlen = 0 ∧
        HoldsAt t s.dst.toNat (List.replicate s.len.toNat 0)) ∧
      t.sm4.cv = if s.len.toNat = 0 ∨ (pad = true ∧ valid7 y = false) then s.sm4.cv
        else blockAt c (s.len.toNat / 16 - 1)

/-- 45_sm4.md R357: Pad7 makes whole blocks that Valid7 accepts and Strip7 undoes. -/
def Obligations.PaddingRoundTrip : Prop :=
  ∀ m : List Byte, (pad7 m).length = m.length + 16 - m.length % 16 ∧ valid7 (pad7 m) = true ∧ strip7 (pad7 m) = m

/-- 45_sm4.md R390: what an SM4 command encrypted, its counterpart restores, under the same RK and the same CV before,
wherever the output is decrypted to. -/
def Obligations.DecryptionRestoresTheMessage : Prop :=
  ∀ (i j : Instr) (s t u v : State) (m : List Byte),
    (i = .ecbenc ∧ j = .ecbdec) ∨ (∃ pad, i = .cbcenc pad ∧ j = .cbcdec pad) →
    m.length = s.len.toNat → HoldsAt s s.src.toNat m →
    exec i s = .next t → t.status.err = false →
    u.sm4.rk = s.sm4.rk → u.sm4.cv = s.sm4.cv → u.dbuf = t.dbuf → u.src = s.dst → u.len = t.outlen →
    ModeRegions u u.len.toNat → exec j u = .next v →
    v.status.err = false ∧ v.outlen.toNat = m.length ∧ HoldsAt v u.dst.toNat m
end

