-- ==== Sys2Proof/Laws/State.lean ====
section
/-! SUPPORT. One lemma per field per update of the state, true by rfl, so that no proof unfolds a record update. -/
namespace Sys2Proof.Machine

@[simp] theorem State.startCommand_ie (s : State) : s.startCommand.ie = s.ie := rfl
@[simp] theorem State.startCommand_cmd (s : State) : s.startCommand.cmd = s.cmd := rfl
@[simp] theorem State.startCommand_status (s : State) :
    s.startCommand.status = { s.status with busy := true, done := false, err := false, vok := false, errcode := .none } := rfl
@[simp] theorem State.startCommand_irqDone (s : State) : s.startCommand.irqDone = s.irqDone := rfl
@[simp] theorem State.startCommand_src (s : State) : s.startCommand.src = s.src := rfl
@[simp] theorem State.startCommand_dst (s : State) : s.startCommand.dst = s.dst := rfl
@[simp] theorem State.startCommand_len (s : State) : s.startCommand.len = s.len := rfl
@[simp] theorem State.startCommand_outlen (s : State) : s.startCommand.outlen = s.outlen := rfl
@[simp] theorem State.startCommand_retry (s : State) : s.startCommand.retry = s.retry := rfl
@[simp] theorem State.startCommand_pflags (s : State) : s.startCommand.pflags = s.pflags := rfl
@[simp] theorem State.startCommand_sm3 (s : State) : s.startCommand.sm3 = s.sm3 := rfl
@[simp] theorem State.startCommand_sm4 (s : State) : s.startCommand.sm4 = s.sm4 := rfl
@[simp] theorem State.startCommand_opnd (s : State) : s.startCommand.opnd = s.opnd := rfl
@[simp] theorem State.startCommand_dbuf (s : State) : s.startCommand.dbuf = s.dbuf := rfl
@[simp] theorem State.startCommand_cmdl (s : State) : s.startCommand.cmdl = s.cmd := rfl
@[simp] theorem State.startCommand_phase (s : State) : s.startCommand.phase = .run := rfl
@[simp] theorem State.startCommand_attempt (s : State) : s.startCommand.attempt = 0 := rfl
@[simp] theorem State.startCommand_nonce (s : State) : s.startCommand.nonce = none := rfl
@[simp] theorem State.startCommand_turns (s : State) : s.startCommand.turns = s.turns := rfl
@[simp] theorem State.startCommand_rng (s : State) : s.startCommand.rng = s.rng := rfl
@[simp] theorem State.startCommand_draws (s : State) : s.startCommand.draws = s.draws := rfl
@[simp] theorem State.startCommand_resp (s : State) : s.startCommand.resp = s.resp := rfl

@[simp] theorem State.complete_ie (s : State) (code : ErrCode) (vok : Bool) : (s.complete code vok).ie = s.ie := rfl
@[simp] theorem State.complete_cmd (s : State) (code : ErrCode) (vok : Bool) :
    (s.complete code vok).cmd = s.cmd := rfl
@[simp] theorem State.complete_status (s : State) (code : ErrCode) (vok : Bool) :
    (s.complete code vok).status = ⟨false, true, decide (code ≠ .none), vok, false, code⟩ := rfl
@[simp] theorem State.complete_irqDone (s : State) (code : ErrCode) (vok : Bool) :
    (s.complete code vok).irqDone = true := rfl
@[simp] theorem State.complete_src (s : State) (code : ErrCode) (vok : Bool) :
    (s.complete code vok).src = s.src := rfl
@[simp] theorem State.complete_dst (s : State) (code : ErrCode) (vok : Bool) :
    (s.complete code vok).dst = s.dst := rfl
@[simp] theorem State.complete_len (s : State) (code : ErrCode) (vok : Bool) :
    (s.complete code vok).len = s.len := rfl
@[simp] theorem State.complete_outlen (s : State) (code : ErrCode) (vok : Bool) :
    (s.complete code vok).outlen = s.outlen := rfl
@[simp] theorem State.complete_retry (s : State) (code : ErrCode) (vok : Bool) :
    (s.complete code vok).retry = s.retry := rfl
@[simp] theorem State.complete_pflags (s : State) (code : ErrCode) (vok : Bool) :
    (s.complete code vok).pflags = s.pflags := rfl
@[simp] theorem State.complete_sm3 (s : State) (code : ErrCode) (vok : Bool) :
    (s.complete code vok).sm3 = s.sm3 := rfl
@[simp] theorem State.complete_sm4 (s : State) (code : ErrCode) (vok : Bool) :
    (s.complete code vok).sm4 = s.sm4 := rfl
@[simp] theorem State.complete_opnd (s : State) (code : ErrCode) (vok : Bool) :
    (s.complete code vok).opnd = s.opnd := rfl
@[simp] theorem State.complete_dbuf (s : State) (code : ErrCode) (vok : Bool) :
    (s.complete code vok).dbuf = s.dbuf := rfl
@[simp] theorem State.complete_cmdl (s : State) (code : ErrCode) (vok : Bool) :
    (s.complete code vok).cmdl = s.cmdl := rfl
@[simp] theorem State.complete_phase (s : State) (code : ErrCode) (vok : Bool) :
    (s.complete code vok).phase = .idle := rfl
@[simp] theorem State.complete_attempt (s : State) (code : ErrCode) (vok : Bool) :
    (s.complete code vok).attempt = 0 := rfl
@[simp] theorem State.complete_nonce (s : State) (code : ErrCode) (vok : Bool) :
    (s.complete code vok).nonce = none := rfl
@[simp] theorem State.complete_turns (s : State) (code : ErrCode) (vok : Bool) :
    (s.complete code vok).turns = s.turns := rfl
@[simp] theorem State.complete_rng (s : State) (code : ErrCode) (vok : Bool) :
    (s.complete code vok).rng = s.rng := rfl
@[simp] theorem State.complete_draws (s : State) (code : ErrCode) (vok : Bool) :
    (s.complete code vok).draws = s.draws := rfl
@[simp] theorem State.complete_resp (s : State) (code : ErrCode) (vok : Bool) :
    (s.complete code vok).resp = s.resp := rfl

@[simp] theorem State.waitRng_ie (s : State) : s.waitRng.ie = s.ie := rfl
@[simp] theorem State.waitRng_cmd (s : State) : s.waitRng.cmd = s.cmd := rfl
@[simp] theorem State.waitRng_status (s : State) : s.waitRng.status = { s.status with rngw := true } := rfl
@[simp] theorem State.waitRng_irqDone (s : State) : s.waitRng.irqDone = s.irqDone := rfl
@[simp] theorem State.waitRng_src (s : State) : s.waitRng.src = s.src := rfl
@[simp] theorem State.waitRng_dst (s : State) : s.waitRng.dst = s.dst := rfl
@[simp] theorem State.waitRng_len (s : State) : s.waitRng.len = s.len := rfl
@[simp] theorem State.waitRng_outlen (s : State) : s.waitRng.outlen = s.outlen := rfl
@[simp] theorem State.waitRng_retry (s : State) : s.waitRng.retry = s.retry := rfl
@[simp] theorem State.waitRng_pflags (s : State) : s.waitRng.pflags = s.pflags := rfl
@[simp] theorem State.waitRng_sm3 (s : State) : s.waitRng.sm3 = s.sm3 := rfl
@[simp] theorem State.waitRng_sm4 (s : State) : s.waitRng.sm4 = s.sm4 := rfl
@[simp] theorem State.waitRng_opnd (s : State) : s.waitRng.opnd = s.opnd := rfl
@[simp] theorem State.waitRng_dbuf (s : State) : s.waitRng.dbuf = s.dbuf := rfl
@[simp] theorem State.waitRng_cmdl (s : State) : s.waitRng.cmdl = s.cmdl := rfl
@[simp] theorem State.waitRng_phase (s : State) : s.waitRng.phase = .waitRng := rfl
@[simp] theorem State.waitRng_attempt (s : State) : s.waitRng.attempt = s.attempt := rfl
@[simp] theorem State.waitRng_nonce (s : State) : s.waitRng.nonce = s.nonce := rfl
@[simp] theorem State.waitRng_turns (s : State) : s.waitRng.turns = s.turns := rfl
@[simp] theorem State.waitRng_rng (s : State) : s.waitRng.rng = s.rng := rfl
@[simp] theorem State.waitRng_draws (s : State) : s.waitRng.draws = s.draws := rfl
@[simp] theorem State.waitRng_resp (s : State) : s.waitRng.resp = s.resp := rfl

@[simp] theorem State.drew_ie (s : State) (n : Nat) : (s.drew n).ie = s.ie := rfl
@[simp] theorem State.drew_cmd (s : State) (n : Nat) : (s.drew n).cmd = s.cmd := rfl
@[simp] theorem State.drew_status (s : State) (n : Nat) : (s.drew n).status = s.status := rfl
@[simp] theorem State.drew_irqDone (s : State) (n : Nat) : (s.drew n).irqDone = s.irqDone := rfl
@[simp] theorem State.drew_src (s : State) (n : Nat) : (s.drew n).src = s.src := rfl
@[simp] theorem State.drew_dst (s : State) (n : Nat) : (s.drew n).dst = s.dst := rfl
@[simp] theorem State.drew_len (s : State) (n : Nat) : (s.drew n).len = s.len := rfl
@[simp] theorem State.drew_outlen (s : State) (n : Nat) : (s.drew n).outlen = s.outlen := rfl
@[simp] theorem State.drew_retry (s : State) (n : Nat) : (s.drew n).retry = s.retry := rfl
@[simp] theorem State.drew_pflags (s : State) (n : Nat) : (s.drew n).pflags = s.pflags := rfl
@[simp] theorem State.drew_sm3 (s : State) (n : Nat) : (s.drew n).sm3 = s.sm3 := rfl
@[simp] theorem State.drew_sm4 (s : State) (n : Nat) : (s.drew n).sm4 = s.sm4 := rfl
@[simp] theorem State.drew_opnd (s : State) (n : Nat) : (s.drew n).opnd = s.opnd := rfl
@[simp] theorem State.drew_dbuf (s : State) (n : Nat) : (s.drew n).dbuf = s.dbuf := rfl
@[simp] theorem State.drew_cmdl (s : State) (n : Nat) : (s.drew n).cmdl = s.cmdl := rfl
@[simp] theorem State.drew_phase (s : State) (n : Nat) : (s.drew n).phase = s.phase := rfl
@[simp] theorem State.drew_attempt (s : State) (n : Nat) : (s.drew n).attempt = s.attempt := rfl
@[simp] theorem State.drew_nonce (s : State) (n : Nat) : (s.drew n).nonce = s.nonce := rfl
@[simp] theorem State.drew_turns (s : State) (n : Nat) : (s.drew n).turns = s.turns := rfl
@[simp] theorem State.drew_rng (s : State) (n : Nat) : (s.drew n).rng = s.rng := rfl
@[simp] theorem State.drew_draws (s : State) (n : Nat) : (s.drew n).draws = s.draws + n := rfl
@[simp] theorem State.drew_resp (s : State) (n : Nat) : (s.drew n).resp = s.resp := rfl

@[simp] theorem State.memWrite_ie (s : State) (x : Nat) (bs : List Byte) : (s.memWrite x bs).ie = s.ie := rfl
@[simp] theorem State.memWrite_cmd (s : State) (x : Nat) (bs : List Byte) : (s.memWrite x bs).cmd = s.cmd := rfl
@[simp] theorem State.memWrite_status (s : State) (x : Nat) (bs : List Byte) :
    (s.memWrite x bs).status = s.status := rfl
@[simp] theorem State.memWrite_irqDone (s : State) (x : Nat) (bs : List Byte) :
    (s.memWrite x bs).irqDone = s.irqDone := rfl
@[simp] theorem State.memWrite_src (s : State) (x : Nat) (bs : List Byte) : (s.memWrite x bs).src = s.src := rfl
@[simp] theorem State.memWrite_dst (s : State) (x : Nat) (bs : List Byte) : (s.memWrite x bs).dst = s.dst := rfl
@[simp] theorem State.memWrite_len (s : State) (x : Nat) (bs : List Byte) : (s.memWrite x bs).len = s.len := rfl
@[simp] theorem State.memWrite_outlen (s : State) (x : Nat) (bs : List Byte) :
    (s.memWrite x bs).outlen = s.outlen := rfl
@[simp] theorem State.memWrite_retry (s : State) (x : Nat) (bs : List Byte) : (s.memWrite x bs).retry = s.retry := rfl
@[simp] theorem State.memWrite_pflags (s : State) (x : Nat) (bs : List Byte) :
    (s.memWrite x bs).pflags = s.pflags := rfl
@[simp] theorem State.memWrite_sm3 (s : State) (x : Nat) (bs : List Byte) : (s.memWrite x bs).sm3 = s.sm3 := rfl
@[simp] theorem State.memWrite_sm4 (s : State) (x : Nat) (bs : List Byte) : (s.memWrite x bs).sm4 = s.sm4 := rfl
@[simp] theorem State.memWrite_opnd (s : State) (x : Nat) (bs : List Byte) : (s.memWrite x bs).opnd = s.opnd := rfl
@[simp] theorem State.memWrite_dbuf (s : State) (x : Nat) (bs : List Byte) :
    (s.memWrite x bs).dbuf = Memory.writeBytes s.dbuf x bs := rfl
@[simp] theorem State.memWrite_cmdl (s : State) (x : Nat) (bs : List Byte) : (s.memWrite x bs).cmdl = s.cmdl := rfl
@[simp] theorem State.memWrite_phase (s : State) (x : Nat) (bs : List Byte) : (s.memWrite x bs).phase = s.phase := rfl
@[simp] theorem State.memWrite_attempt (s : State) (x : Nat) (bs : List Byte) :
    (s.memWrite x bs).attempt = s.attempt := rfl
@[simp] theorem State.memWrite_nonce (s : State) (x : Nat) (bs : List Byte) : (s.memWrite x bs).nonce = s.nonce := rfl
@[simp] theorem State.memWrite_turns (s : State) (x : Nat) (bs : List Byte) : (s.memWrite x bs).turns = s.turns := rfl
@[simp] theorem State.memWrite_rng (s : State) (x : Nat) (bs : List Byte) : (s.memWrite x bs).rng = s.rng := rfl
@[simp] theorem State.memWrite_draws (s : State) (x : Nat) (bs : List Byte) : (s.memWrite x bs).draws = s.draws := rfl
@[simp] theorem State.memWrite_resp (s : State) (x : Nat) (bs : List Byte) : (s.memWrite x bs).resp = s.resp := rfl

@[simp] theorem State.writeC_ie (s : State) (v : Nat) : (s.writeC v).ie = s.ie := rfl
@[simp] theorem State.writeC_cmd (s : State) (v : Nat) : (s.writeC v).cmd = s.cmd := rfl
@[simp] theorem State.writeC_status (s : State) (v : Nat) : (s.writeC v).status = s.status := rfl
@[simp] theorem State.writeC_irqDone (s : State) (v : Nat) : (s.writeC v).irqDone = s.irqDone := rfl
@[simp] theorem State.writeC_src (s : State) (v : Nat) : (s.writeC v).src = s.src := rfl
@[simp] theorem State.writeC_dst (s : State) (v : Nat) : (s.writeC v).dst = s.dst := rfl
@[simp] theorem State.writeC_len (s : State) (v : Nat) : (s.writeC v).len = s.len := rfl
@[simp] theorem State.writeC_outlen (s : State) (v : Nat) : (s.writeC v).outlen = s.outlen := rfl
@[simp] theorem State.writeC_retry (s : State) (v : Nat) : (s.writeC v).retry = s.retry := rfl
@[simp] theorem State.writeC_pflags (s : State) (v : Nat) : (s.writeC v).pflags = s.pflags := rfl
@[simp] theorem State.writeC_sm3 (s : State) (v : Nat) : (s.writeC v).sm3 = s.sm3 := rfl
@[simp] theorem State.writeC_sm4 (s : State) (v : Nat) : (s.writeC v).sm4 = s.sm4 := rfl
@[simp] theorem State.writeC_opnd (s : State) (v : Nat) :
    (s.writeC v).opnd = { s.opnd with c := BitVec.ofNat 256 v } := rfl
@[simp] theorem State.writeC_dbuf (s : State) (v : Nat) : (s.writeC v).dbuf = s.dbuf := rfl
@[simp] theorem State.writeC_cmdl (s : State) (v : Nat) : (s.writeC v).cmdl = s.cmdl := rfl
@[simp] theorem State.writeC_phase (s : State) (v : Nat) : (s.writeC v).phase = s.phase := rfl
@[simp] theorem State.writeC_attempt (s : State) (v : Nat) : (s.writeC v).attempt = s.attempt := rfl
@[simp] theorem State.writeC_nonce (s : State) (v : Nat) : (s.writeC v).nonce = s.nonce := rfl
@[simp] theorem State.writeC_turns (s : State) (v : Nat) : (s.writeC v).turns = s.turns := rfl
@[simp] theorem State.writeC_rng (s : State) (v : Nat) : (s.writeC v).rng = s.rng := rfl
@[simp] theorem State.writeC_draws (s : State) (v : Nat) : (s.writeC v).draws = s.draws := rfl
@[simp] theorem State.writeC_resp (s : State) (v : Nat) : (s.writeC v).resp = s.resp := rfl

@[simp] theorem State.writeKeyPair_ie (s : State) (d : Nat) : (s.writeKeyPair d).ie = s.ie := rfl
@[simp] theorem State.writeKeyPair_cmd (s : State) (d : Nat) : (s.writeKeyPair d).cmd = s.cmd := rfl
@[simp] theorem State.writeKeyPair_status (s : State) (d : Nat) : (s.writeKeyPair d).status = s.status := rfl
@[simp] theorem State.writeKeyPair_irqDone (s : State) (d : Nat) : (s.writeKeyPair d).irqDone = s.irqDone := rfl
@[simp] theorem State.writeKeyPair_src (s : State) (d : Nat) : (s.writeKeyPair d).src = s.src := rfl
@[simp] theorem State.writeKeyPair_dst (s : State) (d : Nat) : (s.writeKeyPair d).dst = s.dst := rfl
@[simp] theorem State.writeKeyPair_len (s : State) (d : Nat) : (s.writeKeyPair d).len = s.len := rfl
@[simp] theorem State.writeKeyPair_outlen (s : State) (d : Nat) : (s.writeKeyPair d).outlen = s.outlen := rfl
@[simp] theorem State.writeKeyPair_retry (s : State) (d : Nat) : (s.writeKeyPair d).retry = s.retry := rfl
@[simp] theorem State.writeKeyPair_pflags (s : State) (d : Nat) :
    (s.writeKeyPair d).pflags = { s.pflags with qinf := false } := rfl
@[simp] theorem State.writeKeyPair_sm3 (s : State) (d : Nat) : (s.writeKeyPair d).sm3 = s.sm3 := rfl
@[simp] theorem State.writeKeyPair_sm4 (s : State) (d : Nat) : (s.writeKeyPair d).sm4 = s.sm4 := rfl
@[simp] theorem State.writeKeyPair_opnd (s : State) (d : Nat) :
    (s.writeKeyPair d).opnd = { s.opnd with
      d := BitVec.ofNat 256 d
      qx := BitVec.ofNat 256 (ecMul d pointG).x
      qy := BitVec.ofNat 256 (ecMul d pointG).y } := rfl
@[simp] theorem State.writeKeyPair_dbuf (s : State) (d : Nat) : (s.writeKeyPair d).dbuf = s.dbuf := rfl
@[simp] theorem State.writeKeyPair_cmdl (s : State) (d : Nat) : (s.writeKeyPair d).cmdl = s.cmdl := rfl
@[simp] theorem State.writeKeyPair_phase (s : State) (d : Nat) : (s.writeKeyPair d).phase = s.phase := rfl
@[simp] theorem State.writeKeyPair_attempt (s : State) (d : Nat) : (s.writeKeyPair d).attempt = s.attempt := rfl
@[simp] theorem State.writeKeyPair_nonce (s : State) (d : Nat) : (s.writeKeyPair d).nonce = s.nonce := rfl
@[simp] theorem State.writeKeyPair_turns (s : State) (d : Nat) : (s.writeKeyPair d).turns = s.turns := rfl
@[simp] theorem State.writeKeyPair_rng (s : State) (d : Nat) : (s.writeKeyPair d).rng = s.rng := rfl
@[simp] theorem State.writeKeyPair_draws (s : State) (d : Nat) : (s.writeKeyPair d).draws = s.draws := rfl
@[simp] theorem State.writeKeyPair_resp (s : State) (d : Nat) : (s.writeKeyPair d).resp = s.resp := rfl

@[simp] theorem State.writeSig_ie (s : State) (r t : Nat) : (s.writeSig r t).ie = s.ie := rfl
@[simp] theorem State.writeSig_cmd (s : State) (r t : Nat) : (s.writeSig r t).cmd = s.cmd := rfl
@[simp] theorem State.writeSig_status (s : State) (r t : Nat) : (s.writeSig r t).status = s.status := rfl
@[simp] theorem State.writeSig_irqDone (s : State) (r t : Nat) : (s.writeSig r t).irqDone = s.irqDone := rfl
@[simp] theorem State.writeSig_src (s : State) (r t : Nat) : (s.writeSig r t).src = s.src := rfl
@[simp] theorem State.writeSig_dst (s : State) (r t : Nat) : (s.writeSig r t).dst = s.dst := rfl
@[simp] theorem State.writeSig_len (s : State) (r t : Nat) : (s.writeSig r t).len = s.len := rfl
@[simp] theorem State.writeSig_outlen (s : State) (r t : Nat) : (s.writeSig r t).outlen = s.outlen := rfl
@[simp] theorem State.writeSig_retry (s : State) (r t : Nat) : (s.writeSig r t).retry = s.retry := rfl
@[simp] theorem State.writeSig_pflags (s : State) (r t : Nat) : (s.writeSig r t).pflags = s.pflags := rfl
@[simp] theorem State.writeSig_sm3 (s : State) (r t : Nat) : (s.writeSig r t).sm3 = s.sm3 := rfl
@[simp] theorem State.writeSig_sm4 (s : State) (r t : Nat) : (s.writeSig r t).sm4 = s.sm4 := rfl
@[simp] theorem State.writeSig_opnd (s : State) (r t : Nat) :
    (s.writeSig r t).opnd = { s.opnd with sr := BitVec.ofNat 256 r, ss := BitVec.ofNat 256 t } := rfl
@[simp] theorem State.writeSig_dbuf (s : State) (r t : Nat) : (s.writeSig r t).dbuf = s.dbuf := rfl
@[simp] theorem State.writeSig_cmdl (s : State) (r t : Nat) : (s.writeSig r t).cmdl = s.cmdl := rfl
@[simp] theorem State.writeSig_phase (s : State) (r t : Nat) : (s.writeSig r t).phase = s.phase := rfl
@[simp] theorem State.writeSig_attempt (s : State) (r t : Nat) : (s.writeSig r t).attempt = s.attempt := rfl
@[simp] theorem State.writeSig_nonce (s : State) (r t : Nat) : (s.writeSig r t).nonce = s.nonce := rfl
@[simp] theorem State.writeSig_turns (s : State) (r t : Nat) : (s.writeSig r t).turns = s.turns := rfl
@[simp] theorem State.writeSig_rng (s : State) (r t : Nat) : (s.writeSig r t).rng = s.rng := rfl
@[simp] theorem State.writeSig_draws (s : State) (r t : Nat) : (s.writeSig r t).draws = s.draws := rfl
@[simp] theorem State.writeSig_resp (s : State) (r t : Nat) : (s.writeSig r t).resp = s.resp := rfl

@[simp] theorem State.drewNonce_ie (s : State) (l : List RngAnswer) (k : Nat) : (s.drewNonce l k).ie = s.ie := rfl
@[simp] theorem State.drewNonce_cmd (s : State) (l : List RngAnswer) (k : Nat) : (s.drewNonce l k).cmd = s.cmd := rfl
@[simp] theorem State.drewNonce_status (s : State) (l : List RngAnswer) (k : Nat) : (s.drewNonce l k).status = s.status := rfl
@[simp] theorem State.drewNonce_irqDone (s : State) (l : List RngAnswer) (k : Nat) : (s.drewNonce l k).irqDone = s.irqDone := rfl
@[simp] theorem State.drewNonce_src (s : State) (l : List RngAnswer) (k : Nat) : (s.drewNonce l k).src = s.src := rfl
@[simp] theorem State.drewNonce_dst (s : State) (l : List RngAnswer) (k : Nat) : (s.drewNonce l k).dst = s.dst := rfl
@[simp] theorem State.drewNonce_len (s : State) (l : List RngAnswer) (k : Nat) : (s.drewNonce l k).len = s.len := rfl
@[simp] theorem State.drewNonce_outlen (s : State) (l : List RngAnswer) (k : Nat) : (s.drewNonce l k).outlen = s.outlen := rfl
@[simp] theorem State.drewNonce_retry (s : State) (l : List RngAnswer) (k : Nat) : (s.drewNonce l k).retry = s.retry := rfl
@[simp] theorem State.drewNonce_pflags (s : State) (l : List RngAnswer) (k : Nat) : (s.drewNonce l k).pflags = s.pflags := rfl
@[simp] theorem State.drewNonce_sm3 (s : State) (l : List RngAnswer) (k : Nat) : (s.drewNonce l k).sm3 = s.sm3 := rfl
@[simp] theorem State.drewNonce_sm4 (s : State) (l : List RngAnswer) (k : Nat) : (s.drewNonce l k).sm4 = s.sm4 := rfl
@[simp] theorem State.drewNonce_opnd (s : State) (l : List RngAnswer) (k : Nat) : (s.drewNonce l k).opnd = s.opnd := rfl
@[simp] theorem State.drewNonce_dbuf (s : State) (l : List RngAnswer) (k : Nat) : (s.drewNonce l k).dbuf = s.dbuf := rfl
@[simp] theorem State.drewNonce_cmdl (s : State) (l : List RngAnswer) (k : Nat) : (s.drewNonce l k).cmdl = s.cmdl := rfl
@[simp] theorem State.drewNonce_phase (s : State) (l : List RngAnswer) (k : Nat) : (s.drewNonce l k).phase = s.phase := rfl
@[simp] theorem State.drewNonce_attempt (s : State) (l : List RngAnswer) (k : Nat) : (s.drewNonce l k).attempt = s.attempt := rfl
@[simp] theorem State.drewNonce_nonce (s : State) (l : List RngAnswer) (k : Nat) : (s.drewNonce l k).nonce = some k := rfl
@[simp] theorem State.drewNonce_turns (s : State) (l : List RngAnswer) (k : Nat) : (s.drewNonce l k).turns = s.turns := rfl
@[simp] theorem State.drewNonce_rng (s : State) (l : List RngAnswer) (k : Nat) : (s.drewNonce l k).rng = l := rfl
@[simp] theorem State.drewNonce_draws (s : State) (l : List RngAnswer) (k : Nat) : (s.drewNonce l k).draws = s.draws := rfl
@[simp] theorem State.drewNonce_resp (s : State) (l : List RngAnswer) (k : Nat) : (s.drewNonce l k).resp = s.resp := rfl

@[simp] theorem State.retried_ie (s : State) : s.retried.ie = s.ie := rfl
@[simp] theorem State.retried_cmd (s : State) : s.retried.cmd = s.cmd := rfl
@[simp] theorem State.retried_status (s : State) : s.retried.status = s.status := rfl
@[simp] theorem State.retried_irqDone (s : State) : s.retried.irqDone = s.irqDone := rfl
@[simp] theorem State.retried_src (s : State) : s.retried.src = s.src := rfl
@[simp] theorem State.retried_dst (s : State) : s.retried.dst = s.dst := rfl
@[simp] theorem State.retried_len (s : State) : s.retried.len = s.len := rfl
@[simp] theorem State.retried_outlen (s : State) : s.retried.outlen = s.outlen := rfl
@[simp] theorem State.retried_retry (s : State) : s.retried.retry = s.retry := rfl
@[simp] theorem State.retried_pflags (s : State) : s.retried.pflags = s.pflags := rfl
@[simp] theorem State.retried_sm3 (s : State) : s.retried.sm3 = s.sm3 := rfl
@[simp] theorem State.retried_sm4 (s : State) : s.retried.sm4 = s.sm4 := rfl
@[simp] theorem State.retried_opnd (s : State) : s.retried.opnd = s.opnd := rfl
@[simp] theorem State.retried_dbuf (s : State) : s.retried.dbuf = s.dbuf := rfl
@[simp] theorem State.retried_cmdl (s : State) : s.retried.cmdl = s.cmdl := rfl
@[simp] theorem State.retried_phase (s : State) : s.retried.phase = s.phase := rfl
@[simp] theorem State.retried_attempt (s : State) : s.retried.attempt = s.attempt + 1 := rfl
@[simp] theorem State.retried_nonce (s : State) : s.retried.nonce = none := rfl
@[simp] theorem State.retried_turns (s : State) : s.retried.turns = s.turns := rfl
@[simp] theorem State.retried_rng (s : State) : s.retried.rng = s.rng := rfl
@[simp] theorem State.retried_draws (s : State) : s.retried.draws = s.draws := rfl
@[simp] theorem State.retried_resp (s : State) : s.retried.resp = s.resp := rfl

@[simp] theorem State.waitAttempt_ie (s : State) (l : List RngAnswer) : (s.waitAttempt l).ie = s.ie := rfl
@[simp] theorem State.waitAttempt_cmd (s : State) (l : List RngAnswer) : (s.waitAttempt l).cmd = s.cmd := rfl
@[simp] theorem State.waitAttempt_status (s : State) (l : List RngAnswer) : (s.waitAttempt l).status = { s.status with rngw := true } := rfl
@[simp] theorem State.waitAttempt_irqDone (s : State) (l : List RngAnswer) : (s.waitAttempt l).irqDone = s.irqDone := rfl
@[simp] theorem State.waitAttempt_src (s : State) (l : List RngAnswer) : (s.waitAttempt l).src = s.src := rfl
@[simp] theorem State.waitAttempt_dst (s : State) (l : List RngAnswer) : (s.waitAttempt l).dst = s.dst := rfl
@[simp] theorem State.waitAttempt_len (s : State) (l : List RngAnswer) : (s.waitAttempt l).len = s.len := rfl
@[simp] theorem State.waitAttempt_outlen (s : State) (l : List RngAnswer) : (s.waitAttempt l).outlen = s.outlen := rfl
@[simp] theorem State.waitAttempt_retry (s : State) (l : List RngAnswer) : (s.waitAttempt l).retry = s.retry := rfl
@[simp] theorem State.waitAttempt_pflags (s : State) (l : List RngAnswer) : (s.waitAttempt l).pflags = s.pflags := rfl
@[simp] theorem State.waitAttempt_sm3 (s : State) (l : List RngAnswer) : (s.waitAttempt l).sm3 = s.sm3 := rfl
@[simp] theorem State.waitAttempt_sm4 (s : State) (l : List RngAnswer) : (s.waitAttempt l).sm4 = s.sm4 := rfl
@[simp] theorem State.waitAttempt_opnd (s : State) (l : List RngAnswer) : (s.waitAttempt l).opnd = s.opnd := rfl
@[simp] theorem State.waitAttempt_dbuf (s : State) (l : List RngAnswer) : (s.waitAttempt l).dbuf = s.dbuf := rfl
@[simp] theorem State.waitAttempt_cmdl (s : State) (l : List RngAnswer) : (s.waitAttempt l).cmdl = s.cmdl := rfl
@[simp] theorem State.waitAttempt_phase (s : State) (l : List RngAnswer) : (s.waitAttempt l).phase = .waitRng := rfl
@[simp] theorem State.waitAttempt_attempt (s : State) (l : List RngAnswer) : (s.waitAttempt l).attempt = s.attempt := rfl
@[simp] theorem State.waitAttempt_nonce (s : State) (l : List RngAnswer) : (s.waitAttempt l).nonce = none := rfl
@[simp] theorem State.waitAttempt_turns (s : State) (l : List RngAnswer) : (s.waitAttempt l).turns = s.turns := rfl
@[simp] theorem State.waitAttempt_rng (s : State) (l : List RngAnswer) : (s.waitAttempt l).rng = l := rfl
@[simp] theorem State.waitAttempt_draws (s : State) (l : List RngAnswer) : (s.waitAttempt l).draws = s.draws := rfl
@[simp] theorem State.waitAttempt_resp (s : State) (l : List RngAnswer) : (s.waitAttempt l).resp = s.resp := rfl

@[simp] theorem State.zeroized_ie (s : State) : s.zeroized.ie = s.ie := rfl
@[simp] theorem State.zeroized_cmd (s : State) : s.zeroized.cmd = s.cmd := rfl
@[simp] theorem State.zeroized_status (s : State) : s.zeroized.status = s.status := rfl
@[simp] theorem State.zeroized_irqDone (s : State) : s.zeroized.irqDone = s.irqDone := rfl
@[simp] theorem State.zeroized_src (s : State) : s.zeroized.src = s.src := rfl
@[simp] theorem State.zeroized_dst (s : State) : s.zeroized.dst = s.dst := rfl
@[simp] theorem State.zeroized_len (s : State) : s.zeroized.len = s.len := rfl
@[simp] theorem State.zeroized_outlen (s : State) : s.zeroized.outlen = 0 := rfl
@[simp] theorem State.zeroized_retry (s : State) : s.zeroized.retry = s.retry := rfl
@[simp] theorem State.zeroized_pflags (s : State) : s.zeroized.pflags = PFlags.reset := rfl
@[simp] theorem State.zeroized_sm3 (s : State) : s.zeroized.sm3 = Sm3Ctx.reset := rfl
@[simp] theorem State.zeroized_sm4 (s : State) : s.zeroized.sm4 = Sm4Ctx.reset := rfl
@[simp] theorem State.zeroized_opnd (s : State) : s.zeroized.opnd = Opnds.reset := rfl
@[simp] theorem State.zeroized_dbuf (s : State) : s.zeroized.dbuf = Memory.zeroed := by
  simp only [State.zeroized]
@[simp] theorem State.zeroized_cmdl (s : State) : s.zeroized.cmdl = s.cmdl := rfl
@[simp] theorem State.zeroized_phase (s : State) : s.zeroized.phase = s.phase := rfl
@[simp] theorem State.zeroized_attempt (s : State) : s.zeroized.attempt = s.attempt := rfl
@[simp] theorem State.zeroized_nonce (s : State) : s.zeroized.nonce = s.nonce := rfl
@[simp] theorem State.zeroized_turns (s : State) : s.zeroized.turns = s.turns := rfl
@[simp] theorem State.zeroized_rng (s : State) : s.zeroized.rng = s.rng := rfl
@[simp] theorem State.zeroized_draws (s : State) : s.zeroized.draws = s.draws := rfl
@[simp] theorem State.zeroized_resp (s : State) : s.zeroized.resp = s.resp := rfl

@[simp] theorem State.modeOutput_ie (s : State) (out : List Byte) (cv : Block) (n : Nat) :
    (s.modeOutput out cv n).ie = s.ie := rfl
@[simp] theorem State.modeOutput_cmd (s : State) (out : List Byte) (cv : Block) (n : Nat) :
    (s.modeOutput out cv n).cmd = s.cmd := rfl
@[simp] theorem State.modeOutput_status (s : State) (out : List Byte) (cv : Block) (n : Nat) :
    (s.modeOutput out cv n).status = s.status := rfl
@[simp] theorem State.modeOutput_irqDone (s : State) (out : List Byte) (cv : Block) (n : Nat) :
    (s.modeOutput out cv n).irqDone = s.irqDone := rfl
@[simp] theorem State.modeOutput_src (s : State) (out : List Byte) (cv : Block) (n : Nat) :
    (s.modeOutput out cv n).src = s.src := rfl
@[simp] theorem State.modeOutput_dst (s : State) (out : List Byte) (cv : Block) (n : Nat) :
    (s.modeOutput out cv n).dst = s.dst := rfl
@[simp] theorem State.modeOutput_len (s : State) (out : List Byte) (cv : Block) (n : Nat) :
    (s.modeOutput out cv n).len = s.len := rfl
@[simp] theorem State.modeOutput_outlen (s : State) (out : List Byte) (cv : Block) (n : Nat) :
    (s.modeOutput out cv n).outlen = BitVec.ofNat 32 n := rfl
@[simp] theorem State.modeOutput_retry (s : State) (out : List Byte) (cv : Block) (n : Nat) :
    (s.modeOutput out cv n).retry = s.retry := rfl
@[simp] theorem State.modeOutput_pflags (s : State) (out : List Byte) (cv : Block) (n : Nat) :
    (s.modeOutput out cv n).pflags = s.pflags := rfl
@[simp] theorem State.modeOutput_sm3 (s : State) (out : List Byte) (cv : Block) (n : Nat) :
    (s.modeOutput out cv n).sm3 = s.sm3 := rfl
@[simp] theorem State.modeOutput_sm4 (s : State) (out : List Byte) (cv : Block) (n : Nat) :
    (s.modeOutput out cv n).sm4 = { s.sm4 with cv := cv } := rfl
@[simp] theorem State.modeOutput_opnd (s : State) (out : List Byte) (cv : Block) (n : Nat) :
    (s.modeOutput out cv n).opnd = s.opnd := rfl
@[simp] theorem State.modeOutput_dbuf (s : State) (out : List Byte) (cv : Block) (n : Nat) :
    (s.modeOutput out cv n).dbuf = Memory.writeBytes s.dbuf s.dst.toNat out := rfl
@[simp] theorem State.modeOutput_cmdl (s : State) (out : List Byte) (cv : Block) (n : Nat) :
    (s.modeOutput out cv n).cmdl = s.cmdl := rfl
@[simp] theorem State.modeOutput_phase (s : State) (out : List Byte) (cv : Block) (n : Nat) :
    (s.modeOutput out cv n).phase = s.phase := rfl
@[simp] theorem State.modeOutput_attempt (s : State) (out : List Byte) (cv : Block) (n : Nat) :
    (s.modeOutput out cv n).attempt = s.attempt := rfl
@[simp] theorem State.modeOutput_nonce (s : State) (out : List Byte) (cv : Block) (n : Nat) :
    (s.modeOutput out cv n).nonce = s.nonce := rfl
@[simp] theorem State.modeOutput_turns (s : State) (out : List Byte) (cv : Block) (n : Nat) :
    (s.modeOutput out cv n).turns = s.turns := rfl
@[simp] theorem State.modeOutput_rng (s : State) (out : List Byte) (cv : Block) (n : Nat) :
    (s.modeOutput out cv n).rng = s.rng := rfl
@[simp] theorem State.modeOutput_draws (s : State) (out : List Byte) (cv : Block) (n : Nat) :
    (s.modeOutput out cv n).draws = s.draws + s.len.toNat := rfl
@[simp] theorem State.modeOutput_resp (s : State) (out : List Byte) (cv : Block) (n : Nat) :
    (s.modeOutput out cv n).resp = s.resp := rfl

@[simp] theorem State.cleared_ie (s : State) : s.cleared.ie = State.reset.ie := rfl
@[simp] theorem State.cleared_cmd (s : State) : s.cleared.cmd = State.reset.cmd := rfl
@[simp] theorem State.cleared_status (s : State) : s.cleared.status = State.reset.status := rfl
@[simp] theorem State.cleared_irqDone (s : State) : s.cleared.irqDone = State.reset.irqDone := rfl
@[simp] theorem State.cleared_src (s : State) : s.cleared.src = State.reset.src := rfl
@[simp] theorem State.cleared_dst (s : State) : s.cleared.dst = State.reset.dst := rfl
@[simp] theorem State.cleared_len (s : State) : s.cleared.len = State.reset.len := rfl
@[simp] theorem State.cleared_outlen (s : State) : s.cleared.outlen = State.reset.outlen := rfl
@[simp] theorem State.cleared_retry (s : State) : s.cleared.retry = State.reset.retry := rfl
@[simp] theorem State.cleared_pflags (s : State) : s.cleared.pflags = State.reset.pflags := rfl
@[simp] theorem State.cleared_sm3 (s : State) : s.cleared.sm3 = State.reset.sm3 := rfl
@[simp] theorem State.cleared_sm4 (s : State) : s.cleared.sm4 = State.reset.sm4 := rfl
@[simp] theorem State.cleared_opnd (s : State) : s.cleared.opnd = State.reset.opnd := rfl
@[simp] theorem State.cleared_dbuf (s : State) : s.cleared.dbuf = s.dbuf := rfl
@[simp] theorem State.cleared_cmdl (s : State) : s.cleared.cmdl = State.reset.cmdl := rfl
@[simp] theorem State.cleared_phase (s : State) : s.cleared.phase = State.reset.phase := rfl
@[simp] theorem State.cleared_attempt (s : State) : s.cleared.attempt = State.reset.attempt := rfl
@[simp] theorem State.cleared_nonce (s : State) : s.cleared.nonce = State.reset.nonce := rfl
@[simp] theorem State.cleared_turns (s : State) : s.cleared.turns = s.turns := rfl
@[simp] theorem State.cleared_rng (s : State) : s.cleared.rng = s.rng := rfl
@[simp] theorem State.cleared_draws (s : State) : s.cleared.draws = s.draws := rfl
@[simp] theorem State.cleared_resp (s : State) : s.cleared.resp = s.resp := rfl

@[simp] theorem State.hardReset_ie (s : State) : s.hardReset.ie = State.reset.ie := rfl
@[simp] theorem State.hardReset_cmd (s : State) : s.hardReset.cmd = State.reset.cmd := rfl
@[simp] theorem State.hardReset_status (s : State) : s.hardReset.status = State.reset.status := rfl
@[simp] theorem State.hardReset_irqDone (s : State) : s.hardReset.irqDone = State.reset.irqDone := rfl
@[simp] theorem State.hardReset_src (s : State) : s.hardReset.src = State.reset.src := rfl
@[simp] theorem State.hardReset_dst (s : State) : s.hardReset.dst = State.reset.dst := rfl
@[simp] theorem State.hardReset_len (s : State) : s.hardReset.len = State.reset.len := rfl
@[simp] theorem State.hardReset_outlen (s : State) : s.hardReset.outlen = State.reset.outlen := rfl
@[simp] theorem State.hardReset_retry (s : State) : s.hardReset.retry = State.reset.retry := rfl
@[simp] theorem State.hardReset_pflags (s : State) : s.hardReset.pflags = State.reset.pflags := rfl
@[simp] theorem State.hardReset_sm3 (s : State) : s.hardReset.sm3 = State.reset.sm3 := rfl
@[simp] theorem State.hardReset_sm4 (s : State) : s.hardReset.sm4 = State.reset.sm4 := rfl
@[simp] theorem State.hardReset_opnd (s : State) : s.hardReset.opnd = State.reset.opnd := rfl
@[simp] theorem State.hardReset_dbuf (s : State) : s.hardReset.dbuf = [] := rfl
@[simp] theorem State.hardReset_cmdl (s : State) : s.hardReset.cmdl = State.reset.cmdl := rfl
@[simp] theorem State.hardReset_phase (s : State) : s.hardReset.phase = State.reset.phase := rfl
@[simp] theorem State.hardReset_attempt (s : State) : s.hardReset.attempt = State.reset.attempt := rfl
@[simp] theorem State.hardReset_nonce (s : State) : s.hardReset.nonce = State.reset.nonce := rfl
@[simp] theorem State.hardReset_turns (s : State) : s.hardReset.turns = s.turns := rfl
@[simp] theorem State.hardReset_rng (s : State) : s.hardReset.rng = s.rng := rfl
@[simp] theorem State.hardReset_draws (s : State) : s.hardReset.draws = s.draws := rfl
@[simp] theorem State.hardReset_resp (s : State) : s.hardReset.resp = s.resp := rfl

/-- A successful completion and an error are completions (40_control.md R175). -/
@[simp] theorem State.done_eq (s : State) : s.done = s.complete .none false := rfl
@[simp] theorem State.raise_eq (s : State) (code : ErrCode) : s.raise code = s.complete code false := rfl
@[simp] theorem State.modeError_eq (s : State) (code : ErrCode) :
    s.modeError code = { s with outlen := 0 }.complete code false := rfl

@[simp] theorem State.writeR_ie (s : State) (q : Point) : (s.writeR q).ie = s.ie := by cases q <;> rfl
@[simp] theorem State.writeR_cmd (s : State) (q : Point) : (s.writeR q).cmd = s.cmd := by cases q <;> rfl
@[simp] theorem State.writeR_status (s : State) (q : Point) : (s.writeR q).status = s.status := by cases q <;> rfl
@[simp] theorem State.writeR_irqDone (s : State) (q : Point) : (s.writeR q).irqDone = s.irqDone := by cases q <;> rfl
@[simp] theorem State.writeR_src (s : State) (q : Point) : (s.writeR q).src = s.src := by cases q <;> rfl
@[simp] theorem State.writeR_dst (s : State) (q : Point) : (s.writeR q).dst = s.dst := by cases q <;> rfl
@[simp] theorem State.writeR_len (s : State) (q : Point) : (s.writeR q).len = s.len := by cases q <;> rfl
@[simp] theorem State.writeR_outlen (s : State) (q : Point) : (s.writeR q).outlen = s.outlen := by cases q <;> rfl
@[simp] theorem State.writeR_retry (s : State) (q : Point) : (s.writeR q).retry = s.retry := by cases q <;> rfl
@[simp] theorem State.writeR_sm3 (s : State) (q : Point) : (s.writeR q).sm3 = s.sm3 := by cases q <;> rfl
@[simp] theorem State.writeR_sm4 (s : State) (q : Point) : (s.writeR q).sm4 = s.sm4 := by cases q <;> rfl
@[simp] theorem State.writeR_dbuf (s : State) (q : Point) : (s.writeR q).dbuf = s.dbuf := by cases q <;> rfl
@[simp] theorem State.writeR_cmdl (s : State) (q : Point) : (s.writeR q).cmdl = s.cmdl := by cases q <;> rfl
@[simp] theorem State.writeR_phase (s : State) (q : Point) : (s.writeR q).phase = s.phase := by cases q <;> rfl
@[simp] theorem State.writeR_attempt (s : State) (q : Point) : (s.writeR q).attempt = s.attempt := by cases q <;> rfl
@[simp] theorem State.writeR_nonce (s : State) (q : Point) : (s.writeR q).nonce = s.nonce := by cases q <;> rfl
@[simp] theorem State.writeR_turns (s : State) (q : Point) : (s.writeR q).turns = s.turns := by cases q <;> rfl
@[simp] theorem State.writeR_rng (s : State) (q : Point) : (s.writeR q).rng = s.rng := by cases q <;> rfl
@[simp] theorem State.writeR_draws (s : State) (q : Point) : (s.writeR q).draws = s.draws := by cases q <;> rfl
@[simp] theorem State.writeR_resp (s : State) (q : Point) : (s.writeR q).resp = s.resp := by cases q <;> rfl

/-- Everything `WriteR` writes (42_curve.md R237): RX, RY and RINF. -/
theorem State.writeR_eq (s : State) (q : Point) :
    s.writeR q =
      { s with
        pflags := { s.pflags with rinf := decide (q = .inf) }
        opnd := { s.opnd with rx := BitVec.ofNat 256 q.x, ry := BitVec.ofNat 256 q.y } } := by
  cases q <;> simp [State.writeR, Point.x, Point.y]

end Sys2Proof.Machine
end

