-- ==== Sys2Proof/Laws/Memory.lean ====
section
/-! SUPPORT. The laws of DBUF: a read after a write, bytes written elsewhere, and the canonical form, which every
memory operation keeps. -/
namespace Sys2Proof.Machine

@[simp] theorem Memory.read_nil (x : Nat) : Memory.read [] x = none := rfl

theorem Memory.read_cons (c : Host.Cell) (m : Memory) (x : Nat) :
    Memory.read (c :: m) x = if c.1 = x then some c.2 else Memory.read m x := rfl

/-- An offset below every listed one is not listed. -/
theorem Memory.read_eq_none {m : Memory} {x : Nat} (h : ∀ c ∈ m, c.1 ≠ x) : Memory.read m x = none := by
  induction m with
  | nil => rfl
  | cons c m ih =>
    rw [Memory.read_cons, if_neg (h c (by simp))]
    exact ih (fun d hd => h d (by simp [hd]))

/-- A read after a write to the same offset gives the byte written. -/
@[simp] theorem Memory.read_write_same (m : Memory) (x : Nat) (v : Byte) :
    Memory.read (Memory.write m x v) x = some v := by
  induction m with
  | nil => simp [Memory.write, Memory.read]
  | cons c m ih =>
    rw [Memory.write]
    split
    · simp [Memory.read_cons]
    · split
      · simp [Memory.read_cons]
      · rw [Memory.read_cons, if_neg (by omega), ih]

/-- A write leaves every other offset alone. -/
theorem Memory.read_write_ne (m : Memory) {x y : Nat} (v : Byte) (h : y ≠ x) :
    Memory.read (Memory.write m x v) y = Memory.read m y := by
  induction m with
  | nil => simp [Memory.write, Memory.read, h.symm]
  | cons c m ih =>
    rw [Memory.write]
    split
    · rw [Memory.read_cons, if_neg (Ne.symm h)]
    · split
      · rename_i hx
        rw [Memory.read_cons, Memory.read_cons, if_neg (Ne.symm h), if_neg (by omega)]
      · rw [Memory.read_cons, Memory.read_cons, ih]

/-- The offsets a write lists. -/
theorem Memory.mem_write {m : Memory} {x : Nat} {v : Byte} {c : Host.Cell}
    (h : c ∈ Memory.write m x v) : c = (x, v) ∨ c ∈ m := by
  induction m with
  | nil => simpa [Memory.write] using h
  | cons d m ih =>
    rw [Memory.write] at h
    split at h
    · simpa using h
    · split at h
      · rcases List.mem_cons.mp h with h | h
        · exact .inl h
        · exact .inr (by simp [h])
      · rcases List.mem_cons.mp h with h | h
        · exact .inr (by simp [h])
        · rcases ih h with h | h
          · exact .inl h
          · exact .inr (by simp [h])

theorem Memory.wf_nil : Memory.wf [] := by simp [Memory.wf]

theorem Memory.wf_tail {c : Host.Cell} {m : Memory} (h : Memory.wf (c :: m)) : Memory.wf m := by
  obtain ⟨h1, h2⟩ := h
  simp only [List.map_cons, List.pairwise_cons] at h1
  exact ⟨h1.2, fun d hd => h2 d (by simp [hd])⟩

theorem Memory.wf_head_lt {c : Host.Cell} {m : Memory} (h : Memory.wf (c :: m)) : ∀ d ∈ m, c.1 < d.1 := by
  have h1 := h.1
  simp only [List.map_cons, List.pairwise_cons] at h1
  exact fun d hd => h1.1 d.1 (List.mem_map_of_mem hd)

theorem Memory.wf_cons {c : Host.Cell} {m : Memory} (hm : Memory.wf m) (hc : c.1 < Config.dbufSize)
    (hlt : ∀ d ∈ m, c.1 < d.1) : Memory.wf (c :: m) := by
  refine ⟨?_, ?_⟩
  · simp only [List.map_cons, List.pairwise_cons]
    refine ⟨?_, hm.1⟩
    intro a ha
    obtain ⟨d, hd, rfl⟩ := List.mem_map.mp ha
    exact hlt d hd
  · intro d hd
    rcases List.mem_cons.mp hd with rfl | hd
    · exact hc
    · exact hm.2 d hd

/-- A write inside the buffer keeps the canonical form. -/
theorem Memory.wf_write {m : Memory} {x : Nat} {v : Byte} (h : Memory.wf m) (hx : x < Config.dbufSize) :
    Memory.wf (Memory.write m x v) := by
  induction m with
  | nil => exact Memory.wf_cons Memory.wf_nil hx (by simp)
  | cons c m ih =>
    have hc := Memory.wf_head_lt h
    rw [Memory.write]
    split
    · refine Memory.wf_cons h hx ?_
      intro d hd
      rcases List.mem_cons.mp hd with rfl | hd
      · assumption
      · have := hc d hd
        simp only
        omega
    · split
      · refine Memory.wf_cons (Memory.wf_tail h) hx ?_
        intro d hd
        have := hc d hd
        simp only
        omega
      · refine Memory.wf_cons (ih (Memory.wf_tail h)) (h.2 c (by simp)) ?_
        intro d hd
        rcases Memory.mem_write hd with rfl | hd
        · simp only
          omega
        · exact hc d hd

/-- A byte string written inside the buffer keeps the canonical form. -/
theorem Memory.wf_writeBytes {m : Memory} {x : Nat} {bs : List Byte} (h : Memory.wf m)
    (hx : x + bs.length ≤ Config.dbufSize) : Memory.wf (Memory.writeBytes m x bs) := by
  induction bs generalizing m x with
  | nil => exact h
  | cons b bs ih =>
    simp only [List.length_cons] at hx
    exact ih (Memory.wf_write h (by omega)) (by omega)

/-- A byte string written leaves every offset outside it alone. -/
theorem Memory.read_writeBytes_outside (m : Memory) (x : Nat) (bs : List Byte) {y : Nat}
    (h : y < x ∨ x + bs.length ≤ y) : Memory.read (Memory.writeBytes m x bs) y = Memory.read m y := by
  induction bs generalizing m x with
  | nil => rfl
  | cons b bs ih =>
    simp only [List.length_cons] at h
    rw [Memory.writeBytes, ih _ _ (by omega), Memory.read_write_ne _ _ (by omega)]

/-- A byte string written reads back. -/
theorem Memory.read_writeBytes_inside (m : Memory) (x : Nat) (bs : List Byte) {i : Nat}
    (h : i < bs.length) : Memory.read (Memory.writeBytes m x bs) (x + i) = some bs[i] := by
  induction bs generalizing m x i with
  | nil => simp at h
  | cons b bs ih =>
    rw [Memory.writeBytes]
    cases i with
    | zero =>
      rw [Memory.read_writeBytes_outside _ _ _ (by omega)]
      simp
    | succ i =>
      have := ih (Memory.write m x b) (x + 1) (i := i) (by simpa using h)
      rw [show x + (i + 1) = x + 1 + i by omega, this]
      simp

/-- Bytes made unspecified read as none; every other offset is left alone. -/
theorem Memory.read_forget (m : Memory) (x l y : Nat) :
    Memory.read (Memory.forget m x l) y = if x ≤ y ∧ y < x + l then none else Memory.read m y := by
  induction m with
  | nil => simp [Memory.forget, Memory.read]
  | cons c m ih =>
    rw [Memory.forget] at ih ⊢
    rw [List.filter_cons]
    by_cases hc : x ≤ c.1 ∧ c.1 < x + l
    · rw [if_neg (by simp [hc]), ih, Memory.read_cons]
      by_cases hy : x ≤ y ∧ y < x + l
      · simp [hy]
      · rw [if_neg hy, if_neg hy, if_neg (by omega)]
    · rw [if_pos (by
          simp only [Bool.not_eq_true', Bool.and_eq_false_iff, decide_eq_false_iff_not]
          omega), Memory.read_cons, Memory.read_cons, ih]
      by_cases hcy : c.1 = y
      · subst hcy
        simp [hc]
      · simp [hcy]

/-- Making bytes unspecified keeps the canonical form. -/
theorem Memory.wf_forget {m : Memory} (h : Memory.wf m) (x l : Nat) : Memory.wf (Memory.forget m x l) := by
  refine ⟨?_, fun c hc => h.2 c (List.mem_of_mem_filter hc)⟩
  exact h.1.sublist ((List.filter_sublist (l := m)).map _)

theorem Memory.zeroed_eq : Memory.zeroed = (List.range Config.dbufSize).map (fun x => (x, (0 : Byte))) := by
  simp only [Memory.zeroed]

/-- ZEROIZE's DBUF is in canonical form. -/
theorem Memory.wf_zeroed : Memory.wf Memory.zeroed := by
  rw [Memory.zeroed_eq]
  refine ⟨?_, ?_⟩
  · rw [List.map_map]
    simpa [Function.comp_def] using List.pairwise_lt_range
  · intro c hc
    obtain ⟨x, hx, rfl⟩ := List.mem_map.mp hc
    exact List.mem_range.mp hx

theorem Memory.read_map_zero (xs : List Nat) (y : Nat) :
    Memory.read (xs.map (fun x => (x, (0 : Byte)))) y = if y ∈ xs then some 0 else none := by
  induction xs with
  | nil => rfl
  | cons x xs ih =>
    rw [List.map_cons, Memory.read_cons, ih]
    by_cases h : x = y
    · simp [h]
    · simp [h, Ne.symm h]

/-- Every byte of ZEROIZE's DBUF is defined and zero (40_control.md R182). -/
theorem Memory.read_zeroed {y : Nat} (h : y < Config.dbufSize) : Memory.read Memory.zeroed y = some 0 := by
  rw [Memory.zeroed_eq, Memory.read_map_zero, if_pos (List.mem_range.mpr h)]

/-- `MemRead` gives as many bytes as it is asked for. -/
@[simp] theorem State.length_memRead (s : State) (x l : Nat) : (s.memRead x l).length = l := by
  simp [State.memRead]

/-- Byte i of `MemRead`. -/
theorem State.getElem_memRead (s : State) (x l : Nat) {i : Nat} (h : i < (s.memRead x l).length) :
    (s.memRead x l)[i] = s.byteAt (x + i) i := by
  simp [State.memRead]

/-- A defined byte reads as it is held. -/
theorem State.byteAt_of_read {s : State} {x : Nat} {b : Byte} (h : Memory.read s.dbuf x = some b) (i : Nat) :
    s.byteAt x i = b := by
  simp [State.byteAt, h]

/-- A defined region reads as the bytes that stand there. -/
theorem State.memRead_of_read {s : State} {x : Nat} {bs : List Byte}
    (h : ∀ i, (hi : i < bs.length) → Memory.read s.dbuf (x + i) = some bs[i]) :
    s.memRead x bs.length = bs := by
  apply List.ext_getElem (by simp)
  intro i h1 h2
  rw [State.getElem_memRead, State.byteAt_of_read (h i h2)]

end Sys2Proof.Machine
end

