-- ==== Sys2Proof/Laws/Bus.lean ====
section
/-! SUPPORT. The laws of the register window: what an offset names, an access as one step, the registers' words, and the soft reset (10_state.md R32, 20_memory.md R122, 70_reset_and_hazards.md R451). -/
namespace Sys2Proof.Machine

/-- An aligned word write inside the window is accepted (20_memory.md R105). -/
theorem wr_accepted {off : Nat} {v : Word} (h : off < 8192) (h4 : off % 4 = 0) : (Access.wr off v).accepted = true := by
  simp [Access.accepted, Access.wr, Config.windowSize]; omega

/-- An aligned word read inside the window is accepted (20_memory.md R105). -/
theorem rd_accepted {off : Nat} (h : off < 8192) (h4 : off % 4 = 0) : (Access.rd off).accepted = true := by
  simp [Access.accepted, Access.rd, Config.windowSize]; omega

/-- An accepted write is the host write of the register there. -/
theorem busAccess_wr (s : State) {off : Nat} {v : Word} (h : off < 8192) (h4 : off % 4 = 0) :
    s.busAccess (.wr off v) = s.hostWrite (regAt off) v := by
  rw [State.busAccess, if_pos (wr_accepted h h4)]; rfl

/-- An accepted read is the host read of the register there. -/
theorem busAccess_rd (s : State) {off : Nat} (h : off < 8192) (h4 : off % 4 = 0) :
    s.busAccess (.rd off) = s.hostRead (regAt off) := by
  rw [State.busAccess, if_pos (rd_accepted h h4)]; rfl

/-- A step on a listed write is the host write of the register there. -/
theorem step_write {s : State} {off : Nat} {v : Word} {ts : List Turn} (hw : HostWrites s off v ts)
    (h : off < 8192) (h4 : off % 4 = 0) : step s = .next ({ s with turns := ts }.hostWrite (regAt off) v) := by
  rw [step, hw]; simp only [turnStep]; rw [busAccess_wr _ h h4]

/-- A step on a listed read is the host read of the register there. -/
theorem step_read {s : State} {off : Nat} {ts : List Turn} (hw : HostReads s off ts)
    (h : off < 8192) (h4 : off % 4 = 0) : step s = .next ({ s with turns := ts }.hostRead (regAt off)) := by
  rw [step, hw]; simp only [turnStep]; rw [busAccess_rd _ h h4]

/-- Offsets of 0x38 and above. -/
theorem regAt_above {off : Nat} (h : 0x38 ≤ off) : regAt off = regAbove off := by
  unfold regAt; split <;> first | omega | rfl

/-- SM3V_i stands at 0x040 + 4i. -/
theorem regAt_sm3v (i : Fin 8) : regAt (0x040 + 4 * i.val) = .sm3v i := by revert i; decide

/-- SM4KEY_i stands at 0x060 + 4i. -/
theorem regAt_sm4key (i : Fin 4) : regAt (0x060 + 4 * i.val) = .sm4key i := by revert i; decide

/-- SM4CV_i stands at 0x070 + 4i. -/
theorem regAt_sm4cv (i : Fin 4) : regAt (0x070 + 4 * i.val) = .sm4cv i := by revert i; decide

/-- SM4RK_i stands at 0x080 + 4i. -/
theorem regAt_sm4rk (i : Fin 32) : regAt (0x080 + 4 * i.val) = .sm4rk i := by revert i; decide

/-- Word j of operand register i stands at 0x100 + 0x20·i + 4·j. -/
theorem regAt_opnd {i j : Nat} (hi : i < 15) (hj : j < 8) :
    regAt (0x100 + 0x20 * i + 4 * j) = .opnd (Opnd.ofIndex i) ⟨j, hj⟩ := by
  rw [regAt_above (by omega)]
  unfold regAbove
  rw [if_neg (by omega), if_neg (by omega), if_neg (by omega), if_neg (by omega), if_neg (by omega),
    if_pos (by omega)]
  have h1 : (0x100 + 0x20 * i + 4 * j - 0x100) / 0x20 = i := by omega
  have h2 : (0x100 + 0x20 * i + 4 * j - 0x100) % 0x20 / 4 = j := by omega
  rw [h1, h2]
  congr 1
  simp [Fin.ofNat, Nat.mod_eq_of_lt hj]

/-- DBUF stands at 0x1000 and above. -/
theorem regAt_dbuf (x : Nat) : regAt (0x1000 + x) = .dbuf x := by
  rw [regAt_above (by omega)]
  unfold regAbove
  rw [if_neg (by omega), if_neg (by omega), if_neg (by omega), if_neg (by omega), if_neg (by omega),
    if_neg (by omega), if_neg (by omega), Nat.add_sub_cancel_left]

/-- The reserved offsets (10_state.md R61). -/
theorem regAt_reserved {off : Nat} (h : off = 0x038 ∨ off = 0x03C ∨ (0x2E0 ≤ off ∧ off < 0x1000)) : regAt off = .reserved := by
  rw [regAt_above (by omega)]
  unfold regAbove
  rcases h with rfl | rfl | ⟨h1, h2⟩
  · rfl
  · rfl
  · rw [if_neg (by omega), if_neg (by omega), if_neg (by omega), if_neg (by omega), if_neg (by omega),
    if_neg (by omega), if_pos (by omega)]

/-- Only offset 4 names CTRL. -/
theorem regAt_eq_ctrl {off : Nat} : regAt off = .ctrl ↔ off = 4 := by
  constructor
  · intro h
    unfold regAt at h
    split at h <;> first | rfl | (exfalso; revert h; simp; done) | skip
    unfold regAbove at h
    repeat' split at h
    all_goals cases h
  · rintro rfl; rfl

/-- Only offset 0x10 names IRQSTAT. -/
theorem regAt_eq_irqstat {off : Nat} : regAt off = .irqstat ↔ off = 0x10 := by
  constructor
  · intro h
    unfold regAt at h
    split at h <;> first | rfl | (exfalso; revert h; simp; done) | skip
    unfold regAbove at h
    repeat' split at h
    all_goals cases h
  · rintro rfl; rfl

/-- The offsets whose busy read is free (70_reset_and_hazards.md R462). -/
theorem regAt_free {off : Nat} (h4 : off % 4 = 0) (h : off = 0x020 ∨ off = 0x028 ∨ off = 0x02C ∨ off = 0x030 ∨ off = 0x034 ∨ (0x040 ≤ off ∧ off < 0x2E0) ∨
      (0x1000 ≤ off ∧ off < 0x2000)) : (regAt off).exactWhileBusy = false := by
  rcases h with rfl | rfl | rfl | rfl | rfl | h | h
  · rfl
  · rfl
  · rfl
  · rfl
  · rfl
  · rw [regAt_above (by omega)]
    unfold regAbove
    rw [if_neg (by omega)]
    repeat' split
    all_goals first | rfl | omega
  · rw [regAt_above (by omega)]
    unfold regAbove
    rw [if_neg (by omega), if_neg (by omega), if_neg (by omega), if_neg (by omega), if_neg (by omega),
    if_neg (by omega), if_neg (by omega)]; rfl

/-- An idle write of a register with no action of its own stores its word. -/
theorem hostWrite_idle (s : State) (r : Reg) (v : Word) (hb : s.status.busy = false) (h1 : r ≠ .ctrl) (h2 : r ≠ .irqstat) :
    s.hostWrite r v = { s.regWrite r v with resp := some ⟨false, 0⟩ } := by
  cases r <;> first | contradiction | (simp [State.hostWrite, State.writeEffect, hb])

/-- An idle read outside DBUF returns the register's word. -/
theorem hostRead_idle (s : State) (r : Reg) (hb : s.status.busy = false) (h1 : ∀ x, r ≠ .dbuf x)  :
    s.hostRead r = { s with resp := some ⟨false, s.regRead r⟩ } := by
  cases r <;> first | (exfalso; exact h1 _ rfl) | (simp [State.hostRead, hb, Reg.readDraws, State.drew])

/-- A read that is exact while busy returns the register's word, busy or idle. -/
theorem hostRead_status (s : State) (r : Reg) (h : r.exactWhileBusy = true) :
    s.hostRead r = { s with resp := some ⟨false, s.regRead r⟩ } := by
  cases r <;> simp_all [State.hostRead, Reg.exactWhileBusy, Reg.readDraws, State.drew]

/-- The bits of a 256-bit register after one of its words is written (10_state.md R58). -/
theorem setWord256_getLsbD (x : U256) (j : Fin 8) (v : Word) (b : Nat) (hb : b < 256) :
    (setWord256 x j v).getLsbD b = if 224 - 32 * j.val ≤ b ∧ b ≤ 255 - 32 * j.val then v.getLsbD (b - (224 - 32 * j.val))
        else x.getLsbD b := by
  have hj := j.isLt
  unfold setWord256
  simp only [BitVec.getLsbD_or, BitVec.getLsbD_and, BitVec.getLsbD_not, BitVec.getLsbD_shiftLeft, BitVec.getLsbD_setWidth]
  have hm : ∀ k, (0xFFFFFFFF : U256).getLsbD k = decide (k < 32) := by
    intro k
    have : (0xFFFFFFFF : U256) = (BitVec.allOnes 32).setWidth 256 := by decide
    rw [this, BitVec.getLsbD_setWidth, BitVec.getLsbD_allOnes]
    by_cases hk : k < 32
    · have : k < 256 := by omega
      simp [hk, this]
    · simp [hk]
  rw [hm]
  split
  · rename_i h
    have h1 : ¬ b < 224 - 32 * j.val := by omega
    have h2 : b - (224 - 32 * j.val) < 32 := by omega
    have h3 : b - (224 - 32 * j.val) < 256 := by omega
    simp [hb, h1, h2, h3, -BitVec.getLsbD_eq_getElem]
  · rename_i h
    by_cases h1 : b < 224 - 32 * j.val
    · simp [hb, h1, -BitVec.getLsbD_eq_getElem]
    · have h2 : ¬ b - (224 - 32 * j.val) < 32 := by omega
      have h3 : v.getLsbD (b - (224 - 32 * j.val)) = false := BitVec.getLsbD_of_ge _ _ (by omega)
      simp [hb, h1, h2, h3, -BitVec.getLsbD_eq_getElem]

/-- An operand register read after one is written. -/
theorem Opnds.get_set (o : Opnds) (r q : Opnd) (v : U256) : (o.set r v).get q = if q = r then v else o.get q := by
  cases r <;> cases q <;> rfl

/-- What a soft reset aborts: a mode command whose checks had passed, or nothing that leaves DBUF unspecified. -/
theorem softReset_or (s : State) : (∃ i n, s.phase ≠ .idle ∧ decode s.cmdl = .ok i ∧ modeOutLen i s.len.toNat = some n ∧
    modeChecks i n s = .none ∧ s.abortedRegion = some (s.dst.toNat, n)) ∨ s.abortedRegion = none := by
  unfold State.abortedRegion
  split
  · right; rfl
  · split
    · split
      · split
        · left; exact ⟨_, _, ‹_›, by assumption, by assumption, by assumption, rfl⟩
        · right; rfl
      · right; rfl
    · right; rfl

/-- No such command, no aborted region. -/
theorem abortedRegion_none {s : State} (h : ¬ ∃ i n, s.phase ≠ .idle ∧ decode s.cmdl = .ok i ∧ modeOutLen i s.len.toNat = some n ∧
    modeChecks i n s = .none) : s.abortedRegion = none := by
  rcases softReset_or s with ⟨i, n, h1, h2, h3, h4, -⟩ | h'
  · exact absurd ⟨i, n, h1, h2, h3, h4⟩ h
  · exact h'

end Sys2Proof.Machine
end

