-- ==== Sys2Proof/Laws/Cipher.lean ====
section
/-! SUPPORT. Lengths and conversions of byte strings and blocks (45_sm4.md R350, R357), and the CBC recurrences. -/
namespace Sys2Proof.Machine

@[simp] theorem length_pieces (n k : Nat) (bs : List Byte) : (pieces n k bs).length = k := by
  induction k generalizing bs with
  | zero => rfl
  | succ k ih => simp [pieces, ih]

/-- Piece j of a byte string. -/
theorem getElem_pieces (n k : Nat) (bs : List Byte) (j : Nat) (h : j < (pieces n k bs).length) :
    (pieces n k bs)[j] = (bs.drop (n * j)).take n := by
  induction k generalizing bs j with
  | zero => simp [pieces] at h
  | succ k ih =>
    cases j with
    | zero => simp [pieces]
    | succ j =>
      simp only [pieces, List.getElem_cons_succ]
      rw [ih, List.drop_drop, Nat.mul_succ, Nat.add_comm]

@[simp] theorem length_toBlocks (bs : List Byte) : (toBlocks bs).length = bs.length / 16 := by
  simp [toBlocks]

/-- Block j of a byte string. -/
theorem getElem_toBlocks (bs : List Byte) (j : Nat) (h : j < (toBlocks bs).length) :
    (toBlocks bs)[j] = Block.ofBytes ((bs.drop (16 * j)).take 16) := by
  simp [toBlocks, getElem_pieces]

@[simp] theorem length_w2os (w : Word) : (w2os w).length = 4 := rfl

@[simp] theorem length_blockBytes (x : Block) : x.bytes.length = 16 := rfl

@[simp] theorem length_ofBlocks (xs : List Block) : (ofBlocks xs).length = 16 * xs.length := by
  induction xs with
  | nil => rfl
  | cons x xs ih =>
    rw [ofBlocks, List.flatMap_cons, List.length_append, length_blockBytes]
    rw [ofBlocks] at ih
    rw [ih, List.length_cons]
    omega

@[simp] theorem ofBlocks_nil : ofBlocks [] = [] := rfl

@[simp] theorem ofBlocks_cons (x : Block) (xs : List Block) : ofBlocks (x :: xs) = x.bytes ++ ofBlocks xs := rfl

/-- A word's bytes make the word again. -/
theorem be32_w2os (w : Word) :
    be32 (w.extractLsb' 24 8) (w.extractLsb' 16 8) (w.extractLsb' 8 8) (w.extractLsb' 0 8) = w := by
  apply BitVec.eq_of_getLsbD_eq
  intro i hi
  simp only [be32, BitVec.getLsbD_append, BitVec.getLsbD_extractLsb']
  by_cases h1 : i < 8
  · simp [h1]
  · by_cases h2 : i < 16
    · simp [h1, show i - 8 < 8 by omega, show 8 + (i - 8) = i by omega]
    · by_cases h3 : i < 24
      · simp [h1, show ¬ i - 8 < 8 by omega, show i - 8 - 8 < 8 by omega,
          show 16 + (i - 8 - 8) = i by omega]
      · simp [h1, show ¬ i - 8 < 8 by omega, show ¬ i - 8 - 8 < 8 by omega,
          show i - 8 - 8 - 8 < 8 by omega, show 24 + (i - 8 - 8 - 8) = i by omega]

/-- The bytes of a word make the bytes again. -/
theorem w2os_be32 (a b c d : Byte) : w2os (be32 a b c d) = [a, b, c, d] := by
  have h : ∀ (i : Nat), i < 8 → (be32 a b c d).getLsbD i = d.getLsbD i := by
    intro i hi
    simp only [be32, BitVec.getLsbD_append]
    simp only [hi, if_true]
  have h8 : ∀ (i : Nat), i < 8 → (be32 a b c d).getLsbD (8 + i) = c.getLsbD i := by
    intro i hi
    simp only [be32, BitVec.getLsbD_append]
    simp [show ¬ 8 + i < 8 by omega, show 8 + i - 8 = i by omega, hi]
  have h16 : ∀ (i : Nat), i < 8 → (be32 a b c d).getLsbD (16 + i) = b.getLsbD i := by
    intro i hi
    simp only [be32, BitVec.getLsbD_append]
    simp [show ¬ 16 + i < 8 by omega, show ¬ 16 + i - 8 < 8 by omega, show 16 + i - 8 - 8 = i by omega, hi]
  have h24 : ∀ (i : Nat), i < 8 → (be32 a b c d).getLsbD (24 + i) = a.getLsbD i := by
    intro i hi
    simp only [be32, BitVec.getLsbD_append]
    simp [show ¬ 24 + i < 8 by omega, show ¬ 24 + i - 8 < 8 by omega, show ¬ 24 + i - 8 - 8 < 8 by omega,
      show 24 + i - 8 - 8 - 8 = i by omega]
  simp only [w2os, List.cons.injEq, and_true]
  refine ⟨?_, ?_, ?_, ?_⟩ <;> apply BitVec.eq_of_getLsbD_eq <;> intro i hi <;>
    simp only [BitVec.getLsbD_extractLsb', hi, decide_true, Bool.true_and]
  · exact h24 i hi
  · exact h16 i hi
  · exact h8 i hi
  · simpa using h i hi

/-- A block's bytes make the block again (45_sm4.md R350). -/
@[simp] theorem ofBytes_bytes (x : Block) : Block.ofBytes x.bytes = x := by
  cases x
  simp only [Block.ofBytes, Block.bytes, wordAt, w2os, List.cons_append, List.nil_append,
    List.getD_eq_getElem?_getD, List.getElem?_cons_succ, List.getElem?_cons_zero, Option.getD_some,
    Nat.mul_zero, Nat.zero_add, Nat.reduceMul, Nat.reduceAdd, be32_w2os]

/-- A string of 16 bytes is the bytes of its block (45_sm4.md R350). -/
theorem bytes_ofBytes {bs : List Byte} (h : bs.length = 16) : (Block.ofBytes bs).bytes = bs := by
  match bs, h with
  | [b0, b1, b2, b3, b4, b5, b6, b7, b8, b9, b10, b11, b12, b13, b14, b15], _ =>
    simp only [Block.ofBytes, Block.bytes, wordAt, List.getD_eq_getElem?_getD, List.getElem?_cons_succ,
      List.getElem?_cons_zero, Option.getD_some, Nat.mul_zero, Nat.zero_add, Nat.reduceMul,
      Nat.reduceAdd, w2os_be32, List.cons_append, List.nil_append]

/-- The blocks of blocks' bytes are the blocks. -/
@[simp] theorem toBlocks_ofBlocks (xs : List Block) : toBlocks (ofBlocks xs) = xs := by
  rw [toBlocks, length_ofBlocks, Nat.mul_div_cancel_left _ (by omega : 0 < 16)]
  induction xs with
  | nil => rfl
  | cons x xs ih =>
    rw [List.length_cons, ofBlocks_cons, pieces, List.map_cons,
      List.take_append_of_le_length (by simp), List.drop_append_of_le_length (by simp),
      show List.take 16 x.bytes = x.bytes from rfl, show List.drop 16 x.bytes = [] from rfl,
      List.nil_append, ih, ofBytes_bytes]

/-- Whole blocks of bytes are the bytes of their blocks. -/
theorem ofBlocks_toBlocks {bs : List Byte} (h : bs.length % 16 = 0) : ofBlocks (toBlocks bs) = bs := by
  have key : ∀ (k : Nat) (bs : List Byte), bs.length = 16 * k →
      ofBlocks ((pieces 16 k bs).map Block.ofBytes) = bs := by
    intro k
    induction k with
    | zero =>
      intro bs hb
      obtain rfl : bs = [] := List.length_eq_zero_iff.mp (by simpa using hb)
      rfl
    | succ k ih =>
      intro bs hb
      rw [pieces, List.map_cons, ofBlocks_cons, ih _ (by rw [List.length_drop]; omega),
        bytes_ofBytes (by rw [List.length_take]; omega), List.take_append_drop]
  exact key _ _ (by omega)

@[simp] theorem length_cbcEncBlocks (rk : Vector Word 32) (prev : Block) (ms : List Block) :
    (cbcEncBlocks rk prev ms).1.length = ms.length := by
  induction ms generalizing prev with
  | nil => rfl
  | cons m ms ih => simp [cbcEncBlocks, ih]

@[simp] theorem length_cbcDecBlocks (rk : Vector Word 32) (prev : Block) (cs : List Block) :
    (cbcDecBlocks rk prev cs).1.length = cs.length := by
  induction cs generalizing prev with
  | nil => rfl
  | cons c cs ih => simp [cbcDecBlocks, ih]

/-- The padded length is the next multiple of 16 above (45_sm4.md R357). -/
@[simp] theorem length_pad7 (m : List Byte) : (pad7 m).length = m.length + 16 - m.length % 16 := by
  simp only [pad7, List.length_append, List.length_replicate]
  have := Nat.mod_lt m.length (by omega : 0 < 16)
  omega

theorem length_strip7_le (y : List Byte) : (strip7 y).length ≤ y.length := by
  simp only [strip7, List.length_take]
  omega

end Sys2Proof.Machine
end

