-- ==== Sys2Proof/Laws/Prime.lean ====
section
/-! SUPPORT. `powMod` computes powers, p and n are prime (41_field.md R200, by Lucas certificates), and `invMod` is the
inverse (00_scope.md R10, 41_field.md R213). -/
namespace Sys2Proof.Machine

/-- `powMod` is the power modulo m when the fuel covers the exponent's bits. -/
theorem powMod_eq (m fuel b e : Nat) (h : e < 2 ^ fuel) : powMod m fuel b e % m = b ^ e % m := by
  induction fuel generalizing b e with
  | zero =>
    have : e = 0 := by simpa using h
    simp [powMod, this]
  | succ f ih =>
    have hlt : e / 2 < 2 ^ f := by rw [Nat.pow_succ] at h; omega
    have hsq : powMod m f (b * b % m) (e / 2) % m = b ^ (2 * (e / 2)) % m := by
      rw [ih _ _ hlt, Nat.pow_mod, Nat.mod_mod, ← Nat.pow_mod, ← pow_two, pow_mul]
    rw [powMod]
    split
    · rename_i hodd
      rw [Nat.mod_mod, Nat.mul_mod, hsq, ← Nat.mul_mod, ← pow_succ']
      congr 2
      omega
    · rename_i heven
      rw [hsq]
      congr 2
      omega

/-- A Lucas certificate (N, a, the prime factors of N - 1), as one evaluation. -/
def lucasCheck (N a : Nat) (fs : List Nat) : Bool :=
  decide (1 < N) && decide (N < 2 ^ 256) && decide (fs.prod = N - 1) &&
    decide (powMod N 256 a (N - 1) % N = 1) &&
    fs.all (fun q => decide (powMod N 256 a ((N - 1) / q) % N ≠ 1))

theorem zmod_pow_eq_one_iff {N : Nat} (hN : 1 < N) (hN' : N < 2 ^ 256) (a e : Nat) (he : e ≤ N - 1) :
    ((a : ZMod N) ^ e = 1) ↔ powMod N 256 a e % N = 1 := by
  rw [powMod_eq N 256 a e (by omega)]
  constructor
  · intro h
    have h' : ((a ^ e : Nat) : ZMod N) = ((1 : Nat) : ZMod N) := by push_cast; exact h
    have := (ZMod.natCast_eq_natCast_iff' _ _ _).mp h'
    rwa [Nat.mod_eq_of_lt hN] at this
  · intro h
    have : ((a ^ e : Nat) : ZMod N) = ((1 : Nat) : ZMod N) :=
      (ZMod.natCast_eq_natCast_iff' _ _ _).mpr (by rwa [Nat.mod_eq_of_lt hN])
    simpa using this

/-- A number with a Lucas certificate whose factors are prime is prime. -/
theorem prime_of_lucasCheck {N a : Nat} {fs : List Nat} (h : lucasCheck N a fs = true)
    (hfs : ∀ q ∈ fs, q.Prime) : N.Prime := by
  simp only [lucasCheck, Bool.and_eq_true, decide_eq_true_eq, List.all_eq_true] at h
  obtain ⟨⟨⟨⟨h1, h2⟩, hprod⟩, hone⟩, hne⟩ := h
  refine lucas_primality N (a : ZMod N) ((zmod_pow_eq_one_iff h1 h2 a _ le_rfl).mpr hone) ?_
  intro q hq hdvd
  rw [← hprod] at hdvd
  obtain ⟨r, hr, hqr⟩ := (Prime.dvd_prod_iff hq.prime).mp hdvd
  have : q = r := (Nat.prime_dvd_prime_iff_eq hq (hfs r hr)).mp hqr
  subst this
  rw [ne_eq, zmod_pow_eq_one_iff h1 h2 a _ (Nat.div_le_self _ _)]
  exact hne q hr

theorem prime_3079049 : Nat.Prime 3079049 :=
  prime_of_lucasCheck (a := 3)
    (fs := [2, 2, 2, 7, 54983])
    (by decide +kernel) (by
      intro q hq
      simp only [List.mem_cons, List.not_mem_nil, or_false] at hq
      rcases hq with rfl | rfl | rfl | rfl | rfl
      · norm_num
      · norm_num
      · norm_num
      · norm_num
      · norm_num)

theorem prime_6158099 : Nat.Prime 6158099 :=
  prime_of_lucasCheck (a := 2)
    (fs := [2, 3079049])
    (by decide +kernel) (by
      intro q hq
      simp only [List.mem_cons, List.not_mem_nil, or_false] at hq
      rcases hq with rfl | rfl
      · norm_num
      · exact prime_3079049)

theorem prime_4773264379806847 : Nat.Prime 4773264379806847 :=
  prime_of_lucasCheck (a := 3)
    (fs := [2, 3, 7, 11, 823, 34511, 363761])
    (by decide +kernel) (by
      intro q hq
      simp only [List.mem_cons, List.not_mem_nil, or_false] at hq
      rcases hq with rfl | rfl | rfl | rfl | rfl | rfl | rfl
      · norm_num
      · norm_num
      · norm_num
      · norm_num
      · norm_num
      · norm_num
      · norm_num)

theorem prime_66013261729388519804782124120027 : Nat.Prime 66013261729388519804782124120027 :=
  prime_of_lucasCheck (a := 2)
    (fs := [2, 13, 1213, 71209, 6158099, 4773264379806847])
    (by decide +kernel) (by
      intro q hq
      simp only [List.mem_cons, List.not_mem_nil, or_false] at hq
      rcases hq with rfl | rfl | rfl | rfl | rfl | rfl
      · norm_num
      · norm_num
      · norm_num
      · norm_num
      · exact prime_6158099
      · exact prime_4773264379806847)

theorem prime_3017783777 : Nat.Prime 3017783777 :=
  prime_of_lucasCheck (a := 3)
    (fs := [2, 2, 2, 2, 2, 7, 7, 337, 5711])
    (by decide +kernel) (by
      intro q hq
      simp only [List.mem_cons, List.not_mem_nil, or_false] at hq
      rcases hq with rfl | rfl | rfl | rfl | rfl | rfl | rfl | rfl | rfl
      · norm_num
      · norm_num
      · norm_num
      · norm_num
      · norm_num
      · norm_num
      · norm_num
      · norm_num
      · norm_num)

theorem prime_4641351449027 : Nat.Prime 4641351449027 :=
  prime_of_lucasCheck (a := 2)
    (fs := [2, 769, 3017783777])
    (by decide +kernel) (by
      intro q hq
      simp only [List.mem_cons, List.not_mem_nil, or_false] at hq
      rcases hq with rfl | rfl | rfl
      · norm_num
      · norm_num
      · exact prime_3017783777)

theorem prime_8214737 : Nat.Prime 8214737 :=
  prime_of_lucasCheck (a := 3)
    (fs := [2, 2, 2, 2, 67, 79, 97])
    (by decide +kernel) (by
      intro q hq
      simp only [List.mem_cons, List.not_mem_nil, or_false] at hq
      rcases hq with rfl | rfl | rfl | rfl | rfl | rfl | rfl
      · norm_num
      · norm_num
      · norm_num
      · norm_num
      · norm_num
      · norm_num
      · norm_num)

theorem prime_417514796639753 : Nat.Prime 417514796639753 :=
  prime_of_lucasCheck (a := 3)
    (fs := [2, 2, 2, 7, 367, 2473, 8214737])
    (by decide +kernel) (by
      intro q hq
      simp only [List.mem_cons, List.not_mem_nil, or_false] at hq
      rcases hq with rfl | rfl | rfl | rfl | rfl | rfl | rfl
      · norm_num
      · norm_num
      · norm_num
      · norm_num
      · norm_num
      · norm_num
      · exact prime_8214737)

theorem prime_348253387243 : Nat.Prime 348253387243 :=
  prime_of_lucasCheck (a := 3)
    (fs := [2, 3, 61, 5303, 179429])
    (by decide +kernel) (by
      intro q hq
      simp only [List.mem_cons, List.not_mem_nil, or_false] at hq
      rcases hq with rfl | rfl | rfl | rfl | rfl
      · norm_num
      · norm_num
      · norm_num
      · norm_num
      · norm_num)

theorem prime_sm2p : Nat.Prime sm2p :=
  prime_of_lucasCheck (a := 13)
    (fs := [2, 43, 30223, 348253387243, 4641351449027, 417514796639753, 66013261729388519804782124120027])
    (by decide +kernel) (by
      intro q hq
      simp only [List.mem_cons, List.not_mem_nil, or_false] at hq
      rcases hq with rfl | rfl | rfl | rfl | rfl | rfl | rfl
      · norm_num
      · norm_num
      · norm_num
      · exact prime_348253387243
      · exact prime_4641351449027
      · exact prime_417514796639753
      · exact prime_66013261729388519804782124120027)

theorem prime_10042883 : Nat.Prime 10042883 :=
  prime_of_lucasCheck (a := 2)
    (fs := [2, 1013, 4957])
    (by decide +kernel) (by
      intro q hq
      simp only [List.mem_cons, List.not_mem_nil, or_false] at hq
      rcases hq with rfl | rfl | rfl
      · norm_num
      · norm_num
      · norm_num)

theorem prime_2368433183657 : Nat.Prime 2368433183657 :=
  prime_of_lucasCheck (a := 3)
    (fs := [2, 2, 2, 41, 719, 10042883])
    (by decide +kernel) (by
      intro q hq
      simp only [List.mem_cons, List.not_mem_nil, or_false] at hq
      rcases hq with rfl | rfl | rfl | rfl | rfl | rfl
      · norm_num
      · norm_num
      · norm_num
      · norm_num
      · norm_num
      · exact prime_10042883)

theorem prime_3258964060712033 : Nat.Prime 3258964060712033 :=
  prime_of_lucasCheck (a := 3)
    (fs := [2, 2, 2, 2, 2, 43, 2368433183657])
    (by decide +kernel) (by
      intro q hq
      simp only [List.mem_cons, List.not_mem_nil, or_false] at hq
      rcases hq with rfl | rfl | rfl | rfl | rfl | rfl | rfl
      · norm_num
      · norm_num
      · norm_num
      · norm_num
      · norm_num
      · norm_num
      · exact prime_2368433183657)

theorem prime_17965699 : Nat.Prime 17965699 :=
  prime_of_lucasCheck (a := 2)
    (fs := [2, 3, 71, 181, 233])
    (by decide +kernel) (by
      intro q hq
      simp only [List.mem_cons, List.not_mem_nil, or_false] at hq
      rcases hq with rfl | rfl | rfl | rfl | rfl
      · norm_num
      · norm_num
      · norm_num
      · norm_num
      · norm_num)

theorem prime_107615843 : Nat.Prime 107615843 :=
  prime_of_lucasCheck (a := 2)
    (fs := [2, 43, 103, 12149])
    (by decide +kernel) (by
      intro q hq
      simp only [List.mem_cons, List.not_mem_nil, or_false] at hq
      rcases hq with rfl | rfl | rfl | rfl
      · norm_num
      · norm_num
      · norm_num
      · norm_num)

theorem prime_9061163 : Nat.Prime 9061163 :=
  prime_of_lucasCheck (a := 2)
    (fs := [2, 11, 71, 5801])
    (by decide +kernel) (by
      intro q hq
      simp only [List.mem_cons, List.not_mem_nil, or_false] at hq
      rcases hq with rfl | rfl | rfl | rfl
      · norm_num
      · norm_num
      · norm_num
      · norm_num)

theorem prime_5636460199499 : Nat.Prime 5636460199499 :=
  prime_of_lucasCheck (a := 2)
    (fs := [2, 31, 79, 127, 9061163])
    (by decide +kernel) (by
      intro q hq
      simp only [List.mem_cons, List.not_mem_nil, or_false] at hq
      rcases hq with rfl | rfl | rfl | rfl | rfl
      · norm_num
      · norm_num
      · norm_num
      · norm_num
      · exact prime_9061163)

theorem prime_101456283590983 : Nat.Prime 101456283590983 :=
  prime_of_lucasCheck (a := 3)
    (fs := [2, 3, 3, 5636460199499])
    (by decide +kernel) (by
      intro q hq
      simp only [List.mem_cons, List.not_mem_nil, or_false] at hq
      rcases hq with rfl | rfl | rfl | rfl
      · norm_num
      · norm_num
      · norm_num
      · exact prime_5636460199499)

theorem prime_2566129871 : Nat.Prime 2566129871 :=
  prime_of_lucasCheck (a := 7)
    (fs := [2, 5, 3049, 84163])
    (by decide +kernel) (by
      intro q hq
      simp only [List.mem_cons, List.not_mem_nil, or_false] at hq
      rcases hq with rfl | rfl | rfl | rfl
      · norm_num
      · norm_num
      · norm_num
      · norm_num)

theorem prime_18120927127286907576013935251791662753637 : Nat.Prime 18120927127286907576013935251791662753637 :=
  prime_of_lucasCheck (a := 6)
    (fs := [2, 2, 3, 3, 17965699, 107615843, 2566129871, 101456283590983])
    (by decide +kernel) (by
      intro q hq
      simp only [List.mem_cons, List.not_mem_nil, or_false] at hq
      rcases hq with rfl | rfl | rfl | rfl | rfl | rfl | rfl | rfl
      · norm_num
      · norm_num
      · norm_num
      · norm_num
      · exact prime_17965699
      · exact prime_107615843
      · exact prime_2566129871
      · exact prime_101456283590983)

theorem prime_125197554539772723432468576818475380947471091418362477724521 : Nat.Prime 125197554539772723432468576818475380947471091418362477724521 :=
  prime_of_lucasCheck (a := 3)
    (fs := [2, 2, 2, 5, 53, 3258964060712033, 18120927127286907576013935251791662753637])
    (by decide +kernel) (by
      intro q hq
      simp only [List.mem_cons, List.not_mem_nil, or_false] at hq
      rcases hq with rfl | rfl | rfl | rfl | rfl | rfl | rfl
      · norm_num
      · norm_num
      · norm_num
      · norm_num
      · norm_num
      · exact prime_3258964060712033
      · exact prime_18120927127286907576013935251791662753637)

theorem prime_117774739 : Nat.Prime 117774739 :=
  prime_of_lucasCheck (a := 2)
    (fs := [2, 3, 3, 59, 110899])
    (by decide +kernel) (by
      intro q hq
      simp only [List.mem_cons, List.not_mem_nil, or_false] at hq
      rcases hq with rfl | rfl | rfl | rfl | rfl
      · norm_num
      · norm_num
      · norm_num
      · norm_num
      · norm_num)

theorem prime_1413296869 : Nat.Prime 1413296869 :=
  prime_of_lucasCheck (a := 6)
    (fs := [2, 2, 3, 117774739])
    (by decide +kernel) (by
      intro q hq
      simp only [List.mem_cons, List.not_mem_nil, or_false] at hq
      rcases hq with rfl | rfl | rfl | rfl
      · norm_num
      · norm_num
      · norm_num
      · exact prime_117774739)

theorem prime_sm2n : Nat.Prime sm2n :=
  prime_of_lucasCheck (a := 3)
    (fs := [2, 3, 7759, 14057, 1413296869, 125197554539772723432468576818475380947471091418362477724521])
    (by decide +kernel) (by
      intro q hq
      simp only [List.mem_cons, List.not_mem_nil, or_false] at hq
      rcases hq with rfl | rfl | rfl | rfl | rfl | rfl
      · norm_num
      · norm_num
      · norm_num
      · norm_num
      · exact prime_1413296869
      · exact prime_125197554539772723432468576818475380947471091418362477724521)

/-- Both moduli are prime (41_field.md R200). -/
theorem prime_modulus (m : Modulus) : Nat.Prime (modulus m) := by
  cases m
  · exact prime_sm2p
  · exact prime_sm2n

theorem modulus_lt (m : Modulus) : modulus m < 2 ^ 256 := by cases m <;> decide

theorem powMod_lt (m : Nat) (hm : 0 < m) (fuel b e : Nat) : powMod m fuel b e < m := by
  induction fuel generalizing b e with
  | zero => exact Nat.mod_lt _ hm
  | succ f ih =>
    rw [powMod]
    split
    · exact Nat.mod_lt _ hm
    · exact ih _ _

theorem invMod_lt (m x : Nat) (hm : 0 < m) : invMod m x < m := powMod_lt m hm _ _ _

/-- `invMod` is the inverse modulo a prime (00_scope.md R10). -/
theorem mul_invMod {m : Nat} (hp : m.Prime) (hm : m < 2 ^ 256) {x : Nat} (hx : x % m ≠ 0) :
    x * invMod m x % m = 1 := by
  have h2 := hp.two_le
  rw [invMod, Nat.mul_mod, powMod_eq m 256 x (m - 2) (by omega), ← Nat.mul_mod, ← pow_succ',
    show m - 2 + 1 = m - 1 by omega]
  have hcop : Nat.Coprime x m := by
    rw [Nat.coprime_comm, hp.coprime_iff_not_dvd]
    exact fun h => hx (Nat.mod_eq_zero_of_dvd h)
  have h := Nat.ModEq.pow_totient hcop
  rwa [Nat.totient_prime hp, Nat.ModEq, Nat.mod_eq_of_lt hp.one_lt] at h

/-- The inverse is not 0. -/
theorem invMod_pos {m : Nat} (hp : m.Prime) (hm : m < 2 ^ 256) {x : Nat} (hx : x % m ≠ 0) :
    0 < invMod m x := by
  rcases Nat.eq_zero_or_pos (invMod m x) with h | h
  · have := mul_invMod hp hm hx
    simp [h] at this
  · exact h

/-- `zmod` lies in [0, m) (00_scope.md R10). -/
theorem zmod_lt (x : Int) {m : Nat} (hm : 0 < m) : zmod x m < m := by
  unfold zmod
  have h1 := Int.emod_nonneg x (b := (m : Int)) (by omega)
  have h2 := Int.emod_lt_of_pos x (b := (m : Int)) (by omega)
  omega

/-- `zmod` is the remainder. -/
theorem zmod_cast (x : Int) {m : Nat} (hm : 0 < m) : (zmod x m : Int) = x % (m : Int) := by
  unfold zmod
  exact Int.toNat_of_nonneg (Int.emod_nonneg x (by omega))

/-- `zmod` of a natural number is its remainder. -/
theorem zmod_natCast (x m : Nat) : zmod (x : Int) m = x % m := by
  unfold zmod
  rw [← Int.natCast_emod, Int.toNat_natCast]

end Sys2Proof.Machine
end

