-- ==== Sys2Proof/Laws/CurveGroup.lean ====
section
/-! SUPPORT. The model's point operations are the group of the curve y² = x³ + a·x + b over the integers modulo p
(42_curve.md R231-R236), as Mathlib's group of points of a Weierstrass curve. -/
namespace Sys2Proof.Machine

/-- The curve of 42_curve.md R231. -/
def sm2Curve : WeierstrassCurve.Affine (ZMod sm2p) := ⟨0, 0, 0, sm2a, sm2b⟩

theorem zmod_cast_zmod (x : Int) : ((zmod x sm2p : Nat) : ZMod sm2p) = (x : ZMod sm2p) := by
  have h : ((zmod x sm2p : Nat) : Int) = x % (sm2p : Int) := zmod_cast x prime_sm2p.pos
  calc ((zmod x sm2p : Nat) : ZMod sm2p) = (((zmod x sm2p : Nat) : Int) : ZMod sm2p) := by push_cast; rfl
    _ = (x : ZMod sm2p) := by rw [h]; exact ZMod.intCast_mod x sm2p

theorem sm2Curve_equation (x y : ZMod sm2p) :
    sm2Curve.Equation x y ↔ y ^ 2 = x ^ 3 + (sm2a : ZMod sm2p) * x + sm2b := by
  rw [WeierstrassCurve.Affine.equation_iff]
  simp [sm2Curve]

theorem sm2Curve_disc_ne_zero [Fact (Nat.Prime sm2p)] : sm2Curve.Δ ≠ 0 := by
  have h : sm2Curve.Δ = -((16 * (4 * sm2a ^ 3 + 27 * sm2b ^ 2) : Nat) : ZMod sm2p) := by
    simp only [WeierstrassCurve.Δ, WeierstrassCurve.b₂, WeierstrassCurve.b₄, WeierstrassCurve.b₆,
      WeierstrassCurve.b₈, sm2Curve]
    push_cast
    ring
  rw [h, neg_ne_zero, ne_eq, ZMod.natCast_eq_zero_iff, Nat.dvd_iff_mod_eq_zero]
  decide +kernel

/-- A point with affine coordinates is valid iff they are below p and on the curve (42_curve.md R233). -/
theorem pointValid_aff (x y : Nat) :
    pointValid (.aff x y) = true ↔
      x < sm2p ∧ y < sm2p ∧ sm2Curve.Equation (x : ZMod sm2p) (y : ZMod sm2p) := by
  have key : zmod ((y * y : Int) - (x * x * x + sm2a * x + sm2b)) sm2p = 0 ↔
      sm2Curve.Equation (x : ZMod sm2p) (y : ZMod sm2p) := by
    rw [sm2Curve_equation, ← sub_eq_zero (a := (y : ZMod sm2p) ^ 2)]
    have hlt := zmod_lt ((y * y : Int) - (x * x * x + sm2a * x + sm2b)) prime_sm2p.pos
    have hc := zmod_cast_zmod ((y * y : Int) - (x * x * x + sm2a * x + sm2b))
    have e : ((((y * y : Int) - (x * x * x + sm2a * x + sm2b)) : Int) : ZMod sm2p) =
        (y : ZMod sm2p) ^ 2 - ((x : ZMod sm2p) ^ 3 + (sm2a : ZMod sm2p) * x + sm2b) := by
      push_cast
      ring
    rw [← e, ← hc, ZMod.natCast_eq_zero_iff]
    constructor
    · intro h
      rw [h]
      exact dvd_zero _
    · intro h
      exact Nat.eq_zero_of_dvd_of_lt h hlt
  simp only [pointValid, Bool.and_eq_true, decide_eq_true_eq, key, and_assoc]

theorem pointValid_pointG : pointValid pointG = true := by decide +kernel

section
variable [Fact (Nat.Prime sm2p)]

theorem sm2Curve_nonsingular {x y : ZMod sm2p} (h : sm2Curve.Equation x y) :
    sm2Curve.Nonsingular x y :=
  (sm2Curve.equation_iff_nonsingular_of_Δ_ne_zero sm2Curve_disc_ne_zero).mp h

theorem invMod_cast {x : Nat} (hx : (x : ZMod sm2p) ≠ 0) :
    ((invMod sm2p x : Nat) : ZMod sm2p) = (x : ZMod sm2p)⁻¹ := by
  have hx' : x % sm2p ≠ 0 := fun h => hx ((ZMod.natCast_eq_zero_iff _ _).mpr (Nat.dvd_of_mod_eq_zero h))
  have h := mul_invMod prime_sm2p (modulus_lt .p) hx'
  have h2 : ((x * invMod sm2p x : Nat) : ZMod sm2p) = ((1 : Nat) : ZMod sm2p) :=
    (ZMod.natCast_eq_natCast_iff' _ _ _).mpr (by rw [h, Nat.mod_eq_of_lt prime_sm2p.one_lt])
  push_cast at h2
  exact (eq_inv_of_mul_eq_one_right h2)

open Classical in
/-- The curve point of a model point; O for coordinates off the curve. -/
noncomputable def toCurve : Point → sm2Curve.Point
  | .inf => 0
  | .aff x y => if h : sm2Curve.Nonsingular (x : ZMod sm2p) (y : ZMod sm2p) then .some _ _ h else 0

@[simp] theorem toCurve_inf : toCurve .inf = 0 := rfl

theorem toCurve_aff {x y : Nat} (h : sm2Curve.Nonsingular (x : ZMod sm2p) (y : ZMod sm2p)) :
    toCurve (.aff x y) = .some _ _ h := by
  simp [toCurve, h]

theorem natCast_inj_of_lt {x y : Nat} (hx : x < sm2p) (hy : y < sm2p)
    (h : (x : ZMod sm2p) = (y : ZMod sm2p)) : x = y := by
  have := (ZMod.natCast_eq_natCast_iff' _ _ _).mp h
  rwa [Nat.mod_eq_of_lt hx, Nat.mod_eq_of_lt hy] at this

/-- Valid points with one curve point are equal. -/
theorem toCurve_inj {P Q : Point} (hP : pointValid P = true) (hQ : pointValid Q = true)
    (h : toCurve P = toCurve Q) : P = Q := by
  cases P with
  | inf =>
    cases Q with
    | inf => rfl
    | aff x y =>
      obtain ⟨-, -, he⟩ := (pointValid_aff x y).mp hQ
      rw [toCurve_aff (sm2Curve_nonsingular he)] at h
      exact absurd h.symm (WeierstrassCurve.Affine.Point.some_ne_zero _)
  | aff x y =>
    obtain ⟨hx, hy, he⟩ := (pointValid_aff x y).mp hP
    cases Q with
    | inf =>
      rw [toCurve_aff (sm2Curve_nonsingular he)] at h
      exact absurd h (WeierstrassCurve.Affine.Point.some_ne_zero _)
    | aff x' y' =>
      obtain ⟨hx', hy', he'⟩ := (pointValid_aff x' y').mp hQ
      rw [toCurve_aff (sm2Curve_nonsingular he), toCurve_aff (sm2Curve_nonsingular he')] at h
      injection h with h1 h2
      rw [natCast_inj_of_lt hx hx' h1, natCast_inj_of_lt hy hy' h2]

/-- The slope of `ecAdd` is the slope of the line through the points (42_curve.md R234). -/
theorem ecSlope_cast {x1 y1 x2 y2 : Nat} (hx1 : x1 < sm2p) (hx2 : x2 < sm2p)
    (he1 : sm2Curve.Equation (x1 : ZMod sm2p) (y1 : ZMod sm2p))
    (he2 : sm2Curve.Equation (x2 : ZMod sm2p) (y2 : ZMod sm2p))
    (hne : ¬(x1 = x2 ∧ (y1 + y2) % sm2p = 0)) :
    ((ecSlope x1 y1 x2 y2 : Nat) : ZMod sm2p) = sm2Curve.slope (x1 : ZMod sm2p) x2 y1 y2 := by
  by_cases hx : x1 = x2
  · subst hx
    have hy : ¬ ((y1 : ZMod sm2p) = sm2Curve.negY x1 y2) := by
      intro h
      apply hne
      refine ⟨rfl, ?_⟩
      have : ((y1 + y2 : Nat) : ZMod sm2p) = 0 := by
        push_cast
        rw [h]
        simp [WeierstrassCurve.Affine.negY, sm2Curve]
      exact Nat.mod_eq_zero_of_dvd ((ZMod.natCast_eq_zero_iff _ _).mp this)
    have hsq : (y1 : ZMod sm2p) ^ 2 = (y2 : ZMod sm2p) ^ 2 := by
      rw [(sm2Curve_equation _ _).mp he1, (sm2Curve_equation _ _).mp he2]
    have hyy : (y1 : ZMod sm2p) = y2 := by
      rcases sq_eq_sq_iff_eq_or_eq_neg.mp hsq with h | h
      · exact h
      · exact absurd (by rw [h]; simp [WeierstrassCurve.Affine.negY, sm2Curve]) hy
    have h2y : (2 * (y1 : ZMod sm2p)) ≠ 0 := by
      intro h
      apply hy
      rw [← hyy]
      simp only [WeierstrassCurve.Affine.negY, sm2Curve]
      linear_combination h
    have hc : ((zmod (2 * y1) sm2p : Nat) : ZMod sm2p) = 2 * (y1 : ZMod sm2p) := by
      rw [zmod_cast_zmod]
      push_cast
      rfl
    rw [WeierstrassCurve.Affine.slope_of_Y_ne rfl hy, ecSlope, if_pos rfl, zmod_cast_zmod]
    push_cast
    rw [invMod_cast (by rw [hc]; exact h2y), hc, div_eq_mul_inv]
    simp only [WeierstrassCurve.Affine.negY, sm2Curve]
    rw [show (y1 : ZMod sm2p) - (-y1 - 0 * x1 - 0) = 2 * y1 by ring]
    ring
  · have hxz : (x1 : ZMod sm2p) ≠ (x2 : ZMod sm2p) := fun h => hx (natCast_inj_of_lt hx1 hx2 h)
    have hc : ((zmod ((x2 : Int) - x1) sm2p : Nat) : ZMod sm2p) = (x2 : ZMod sm2p) - x1 := by
      rw [zmod_cast_zmod]
      push_cast
      rfl
    rw [WeierstrassCurve.Affine.slope_of_X_ne hxz, ecSlope, if_neg hx, zmod_cast_zmod]
    push_cast
    rw [invMod_cast (by rw [hc]; exact sub_ne_zero.mpr (Ne.symm hxz)), hc, ← neg_sub (y2 : ZMod sm2p),
      ← neg_sub (x2 : ZMod sm2p), neg_div_neg_eq, div_eq_mul_inv]

/-- `ecAdd` of valid points is a valid point, and it is the group's sum (42_curve.md R234). -/
theorem ecAdd_spec {P Q : Point} (hP : pointValid P = true) (hQ : pointValid Q = true) :
    pointValid (ecAdd P Q) = true ∧ toCurve (ecAdd P Q) = toCurve P + toCurve Q := by
  cases P with
  | inf => simp [ecAdd, hQ]
  | aff x1 y1 =>
    cases Q with
    | inf => simp [ecAdd, hP]
    | aff x2 y2 =>
      obtain ⟨hx1, hy1, he1⟩ := (pointValid_aff x1 y1).mp hP
      obtain ⟨hx2, hy2, he2⟩ := (pointValid_aff x2 y2).mp hQ
      have hn1 := sm2Curve_nonsingular he1
      have hn2 := sm2Curve_nonsingular he2
      rw [toCurve_aff hn1, toCurve_aff hn2]
      by_cases hO : x1 = x2 ∧ (y1 + y2) % sm2p = 0
      · have hyneg : (y1 : ZMod sm2p) = sm2Curve.negY x2 y2 := by
          have : ((y1 + y2 : Nat) : ZMod sm2p) = 0 :=
            (ZMod.natCast_eq_zero_iff _ _).mpr (Nat.dvd_of_mod_eq_zero hO.2)
          push_cast at this
          simp only [WeierstrassCurve.Affine.negY, sm2Curve]
          linear_combination this
        rw [ecAdd, if_pos hO, WeierstrassCurve.Affine.Point.add_of_Y_eq (by rw [hO.1]) hyneg]
        exact ⟨rfl, rfl⟩
      · have hxy : ¬((x1 : ZMod sm2p) = x2 ∧ (y1 : ZMod sm2p) = sm2Curve.negY x2 y2) := by
          rintro ⟨h1, h2⟩
          apply hO
          refine ⟨natCast_inj_of_lt hx1 hx2 h1, ?_⟩
          have : ((y1 + y2 : Nat) : ZMod sm2p) = 0 := by
            push_cast
            rw [h2]
            simp [WeierstrassCurve.Affine.negY, sm2Curve]
          exact Nat.mod_eq_zero_of_dvd ((ZMod.natCast_eq_zero_iff _ _).mp this)
        have hl := ecSlope_cast hx1 hx2 he1 he2 hO
        have hsum := WeierstrassCurve.Affine.nonsingular_add hn1 hn2 hxy
        rw [ecAdd, if_neg hO, WeierstrassCurve.Affine.Point.add_some hxy]
        have hX : ((zmod ((ecSlope x1 y1 x2 y2 * ecSlope x1 y1 x2 y2 : Int) - x1 - x2) sm2p : Nat) : ZMod sm2p)
            = sm2Curve.addX x1 x2 (sm2Curve.slope (x1 : ZMod sm2p) x2 y1 y2) := by
          rw [zmod_cast_zmod, ← hl]
          simp only [WeierstrassCurve.Affine.addX, sm2Curve]
          push_cast
          ring
        have hY : ((zmod ((ecSlope x1 y1 x2 y2 : Int) * ((x1 : Int) -
              zmod ((ecSlope x1 y1 x2 y2 * ecSlope x1 y1 x2 y2 : Int) - x1 - x2) sm2p) - y1) sm2p : Nat) : ZMod sm2p)
            = sm2Curve.addY x1 x2 y1 (sm2Curve.slope (x1 : ZMod sm2p) x2 y1 y2) := by
          rw [zmod_cast_zmod]
          push_cast
          rw [hX, ← hl]
          simp only [WeierstrassCurve.Affine.addY, WeierstrassCurve.Affine.negAddY,
            WeierstrassCurve.Affine.negY, WeierstrassCurve.Affine.addX, sm2Curve]
          ring
        constructor
        · rw [pointValid_aff]
          refine ⟨zmod_lt _ prime_sm2p.pos, zmod_lt _ prime_sm2p.pos, ?_⟩
          rw [hX, hY]
          exact hsum.1
        · have hns : sm2Curve.Nonsingular
              ((zmod ((ecSlope x1 y1 x2 y2 * ecSlope x1 y1 x2 y2 : Int) - x1 - x2) sm2p : Nat) : ZMod sm2p)
              ((zmod ((ecSlope x1 y1 x2 y2 : Int) * ((x1 : Int) -
                zmod ((ecSlope x1 y1 x2 y2 * ecSlope x1 y1 x2 y2 : Int) - x1 - x2) sm2p) - y1) sm2p : Nat) :
                ZMod sm2p) := by
            rw [hX, hY]
            exact hsum
          simp only [toCurve_aff hns, hX, hY]

/-- The loop of `ecMul` from a valid point (42_curve.md R236). -/
theorem ecMulFrom_spec {P : Point} (hP : pointValid P = true) (k i : Nat) {R : Point}
    (hR : pointValid R = true) :
    pointValid (ecMulFrom k P i R) = true ∧
      toCurve (ecMulFrom k P i R) = 2 ^ i • toCurve R + (k % 2 ^ i) • toCurve P := by
  induction i generalizing R with
  | zero => simp [ecMulFrom, hR, Nat.mod_one]
  | succ i ih =>
    have hd := ecAdd_spec hR hR
    have hbit : k % 2 ^ (i + 1) = 2 ^ i * (k / 2 ^ i % 2) + k % 2 ^ i := by
      rw [pow_succ, Nat.mod_mul, add_comm]
    have ht : k.testBit i = decide (k / 2 ^ i % 2 = 1) := by
      rw [Nat.testBit_eq_decide_div_mod_eq]
    simp only [ecMulFrom, ecDbl]
    split
    · rename_i h
      have ha := ecAdd_spec hd.1 hP
      have hih := ih ha.1
      refine ⟨hih.1, ?_⟩
      rw [ht, decide_eq_true_eq] at h
      rw [hih.2, ha.2, hd.2, hbit, h]
      module
    · rename_i h
      have hih := ih hd.1
      refine ⟨hih.1, ?_⟩
      rw [ht, decide_eq_true_eq] at h
      have h0 : k / 2 ^ i % 2 = 0 := by omega
      rw [hih.2, hd.2, hbit, h0]
      module

/-- `ecMul` is the k-fold sum (42_curve.md R236). -/
theorem ecMul_spec {P : Point} (hP : pointValid P = true) (k : Nat) (hk : k < 2 ^ 256) :
    pointValid (ecMul k P) = true ∧ toCurve (ecMul k P) = k • toCurve P := by
  have h := ecMulFrom_spec hP k 256 (R := .inf) rfl
  rw [Nat.mod_eq_of_lt hk] at h
  simpa [ecMul] using h

end

end Sys2Proof.Machine
end

