-- ==== Sys2Proof/Laws/Encoding.lean ====
section
/-! SUPPORT. The laws of the command word: packing and unpacking its fields, and what each kind of row accepts (30_encoding.md R141, R148). -/
namespace Sys2Proof.Machine

/-- Packing the fields of a word gives the word (30_encoding.md R141). -/
theorem pack_unpack (w : Word) : packCmd (unpackCmd w) = w := by
  apply BitVec.eq_of_getLsbD_eq
  intro i hi
  simp only [packCmd, unpackCmd, BitVec.getLsbD_append, BitVec.getLsbD_extractLsb', BitVec.getLsbD_ofBool]
  grind

/-- A plain row accepts MSEL = PAD = 0 alone. -/
theorem plainRow_ok {f : CmdFields} {i j : Instr} (h : plainRow f i = .ok j) :
    j = i ∧ f.msel = false ∧ f.pad = false := by
  unfold plainRow at h
  split at h
  · cases h
  · split at h
    · cases h
    · cases h; simp_all

/-- A field row accepts PAD = 0 alone and takes its modulus from MSEL. -/
theorem fieldRow_ok {f : CmdFields} {i : Modulus → Instr} {j : Instr} (h : fieldRow f i = .ok j) :
    j = i (if f.msel then .n else .p) ∧ f.pad = false := by
  unfold fieldRow at h
  split at h
  · cases h
  · cases h; simp_all

/-- A CBC row accepts MSEL = 0 alone and takes PAD. -/
theorem cbcRow_ok {f : CmdFields} {i : Bool → Instr} {j : Instr} (h : cbcRow f i = .ok j) :
    j = i f.pad ∧ f.msel = false := by
  unfold cbcRow at h
  split at h
  · cases h
  · cases h; simp_all

/-- The fields a row is selected by are the fields that encode its command. -/
theorem decodeOp_fields (f : CmdFields) (i : Instr) (hr : f.rsv = 0) (h : decodeOp f = .ok i) : i.fields = f := by
  obtain ⟨r, p, m, op⟩ := f
  subst hr
  unfold decodeOp at h
  split at h
  all_goals first
    | (obtain ⟨rfl, hm, hp⟩ := plainRow_ok h; simp_all [Instr.fields, plainFields])
    | (obtain ⟨rfl, hp⟩ := fieldRow_ok h; cases m <;> simp_all [Instr.fields, plainFields, Modulus.msel])
    | (obtain ⟨rfl, hp⟩ := cbcRow_ok h; simp_all [Instr.fields, plainFields])
    | cases h

end Sys2Proof.Machine
end

