-- ==== Sys2Proof/Laws/Hash.lean ====
section
/-! SUPPORT. What absorbing bytes does to an SM3 context (44_sm3.md R319, R324). -/
namespace Sys2Proof.Machine

@[simp] theorem sm3Absorb_st (c : Sm3Ctx) (b : Byte) : (sm3Absorb c b).st = c.st := by
  unfold sm3Absorb
  split <;> rfl

@[simp] theorem sm3Absorb_cnt (c : Sm3Ctx) (b : Byte) : (sm3Absorb c b).cnt = c.cnt := by
  unfold sm3Absorb
  split <;> rfl

/-- PLEN counts the bytes modulo 64. -/
theorem sm3Absorb_plen (c : Sm3Ctx) (b : Byte) : (sm3Absorb c b).plen.val = (c.plen.val + 1) % 64 := by
  have := c.plen.isLt
  unfold sm3Absorb
  split
  · rename_i h
    exact (Nat.mod_eq_of_lt h).symm
  · rename_i h
    have : c.plen.val + 1 = 64 := by omega
    rw [this]
    rfl

@[simp] theorem sm3Fold_st (c : Sm3Ctx) (m : List Byte) : (m.foldl sm3Absorb c).st = c.st := by
  induction m generalizing c with
  | nil => rfl
  | cons b m ih => simp [ih]

@[simp] theorem sm3Fold_cnt (c : Sm3Ctx) (m : List Byte) : (m.foldl sm3Absorb c).cnt = c.cnt := by
  induction m generalizing c with
  | nil => rfl
  | cons b m ih => simp [ih]

theorem sm3Fold_plen (c : Sm3Ctx) (m : List Byte) :
    (m.foldl sm3Absorb c).plen.val = (c.plen.val + m.length) % 64 := by
  induction m generalizing c with
  | nil => simp [Nat.mod_eq_of_lt c.plen.isLt]
  | cons b m ih =>
    rw [List.foldl_cons, ih, sm3Absorb_plen, List.length_cons]
    omega

@[simp] theorem sm3Update_st (c : Sm3Ctx) (m : List Byte) : (sm3Update c m).st = c.st := by simp [sm3Update]

@[simp] theorem sm3Update_cnt (c : Sm3Ctx) (m : List Byte) :
    (sm3Update c m).cnt = c.cnt + BitVec.ofNat 64 m.length := rfl

theorem sm3Update_plen (c : Sm3Ctx) (m : List Byte) :
    (sm3Update c m).plen.val = (c.plen.val + m.length) % 64 := by
  simp [sm3Update, sm3Fold_plen]

/-- Absorbing two byte strings in turn is absorbing them joined (44_sm3.md R324). -/
theorem sm3Update_append (c : Sm3Ctx) (m m' : List Byte) :
    sm3Update (sm3Update c m) m' = sm3Update c (m ++ m') := by
  have h : ∀ (m' : List Byte) (c : Sm3Ctx) (n : U64),
      m'.foldl sm3Absorb { c with cnt := n } = { m'.foldl sm3Absorb c with cnt := n } := by
    intro m'
    induction m' with
    | nil => intro c n; rfl
    | cons b m' ih =>
      intro c n
      rw [List.foldl_cons, List.foldl_cons, ← ih]
      congr 1
      simp only [sm3Absorb]
      split <;> rfl
  have e : sm3Update (sm3Update c m) m' =
      { m'.foldl sm3Absorb { m.foldl sm3Absorb c with cnt := c.cnt + BitVec.ofNat 64 m.length } with
        cnt := c.cnt + BitVec.ofNat 64 m.length + BitVec.ofNat 64 m'.length } := rfl
  rw [e, h, BitVec.add_assoc, ← BitVec.ofNat_add, ← List.length_append, ← List.foldl_append]
  rfl

@[simp] theorem length_i2os (x l : Nat) : (i2os x l).length = l := by
  induction l with
  | zero => rfl
  | succ l ih => simp [i2os, ih]

/-- The padding fills the message to whole blocks (44_sm3.md R317). -/
theorem length_sm3Pad (l : Nat) : (l + (sm3Pad l).length) % 64 = 0 := by
  have h : zmod (55 - (l % 64 : Nat)) 64 = (119 - l % 64) % 64 := by
    unfold zmod
    have := Nat.mod_lt l (by omega : 0 < 64)
    omega
  simp only [sm3Pad, List.length_cons, List.length_append, List.length_replicate, length_i2os, h]
  omega

end Sys2Proof.Machine
end

