-- ==== Sys2Proof/Laws/Exec.lean ====
section
/-! SUPPORT. Said once: how a command's engine step can end (40_control.md R175-R177), what each family's shared
operation can do, and that every step answers a next state. -/
namespace Sys2Proof.Machine

theorem HostKept.refl (s : State) : HostKept s s := ⟨rfl, rfl, rfl, rfl, rfl, rfl, rfl, rfl, rfl⟩

/-- A completion leaves what `Completed` says (40_control.md R175). -/
theorem completed_complete (s : State) (code : ErrCode) (vok : Bool) : Completed (s.complete code vok) code vok :=
  ⟨rfl, rfl, rfl, rfl, rfl, rfl, rfl, rfl, rfl, rfl⟩

/-- The clauses of the invariant about the SM3 context (44_sm3.md R319, 10_state.md R53, R63). -/
structure Sm3Ctx.Ok (c : Sm3Ctx) : Prop where
  idle : c.st = .idle → c.v = Sm3Words.zero ∧ c.cnt = 0 ∧ c.plen = 0
  active : c.st = .active → c.plen.val = c.cnt.toNat % 64
  final : c.st = .final → c.plen = 0 ∧ c.pbuf = pbufZero

theorem Sm3Ctx.ok_reset : Sm3Ctx.reset.Ok := ⟨fun _ => ⟨rfl, rfl, rfl⟩, nofun, nofun⟩

theorem Sm3Ctx.ok_init : Sm3Ctx.init.Ok := ⟨nofun, fun _ => rfl, nofun⟩

theorem Sm3Ctx.ok_finished (c : Sm3Ctx) : c.finished.Ok := ⟨nofun, nofun, fun _ => ⟨rfl, rfl⟩⟩

theorem Sm3Ctx.ok_update {c : Sm3Ctx} (h : c.Ok) (hst : c.st = .active) (m : List Byte) :
    (sm3Update c m).Ok := by
  refine ⟨?_, ?_, ?_⟩
  · intro h'
    rw [sm3Update_st, hst] at h'
    contradiction
  · intro _
    rw [sm3Update_plen, sm3Update_cnt, BitVec.toNat_add, BitVec.toNat_ofNat, h.active hst]
    omega
  · intro h'
    rw [sm3Update_st, hst] at h'
    contradiction

/-- What a command's result writes keep, whatever the command: what the host alone writes, DBUF's canonical form,
and the SM3 clauses of the invariant. -/
structure ResultKeeps (s u : State) : Prop where
  host : HostKept s u
  dbuf : Memory.wf s.dbuf → Memory.wf u.dbuf
  sm3 : s.sm3.Ok → u.sm3.Ok

theorem ResultKeeps.refl (s : State) : ResultKeeps s s := ⟨HostKept.refl s, id, id⟩

/-- A result that touches neither DBUF nor the SM3 context. -/
theorem ResultKeeps.of_eq {s u : State} (h : HostKept s u) (hd : u.dbuf = s.dbuf) (hm : u.sm3 = s.sm3) :
    ResultKeeps s u := ⟨h, by rw [hd]; exact id, by rw [hm]; exact id⟩

/-- How a command's engine step can end: completed on a state u that holds its result writes, or waiting on the
entropy source inside KEYGEN or SIGN. -/
inductive Ends (i : Instr) (s : State) : State → Prop where
  | completes (u : State) (code : ErrCode) (vok : Bool) (hv : vok = true → code = .none)
      (hk : ResultKeeps s u) : Ends i s (u.complete code vok)
  | keygenWaits (rest : List RngAnswer) (hi : i = .keygen) : Ends i s { s with rng := rest }.waitRng
  | signWaits (rest : List RngAnswer) (made : Nat) (hi : i = .sign)
      (hm : s.attempt = 0 ∨ s.attempt < s.retry.toNat → made < s.retry.toNat) :
      Ends i s ({ s with attempt := made }.waitAttempt rest)

theorem Ends.raise {i : Instr} {s u : State} (code : ErrCode) (hk : ResultKeeps s u) : Ends i s (u.raise code) :=
  .completes u code false nofun hk

theorem Ends.done {i : Instr} {s u : State} (hk : ResultKeeps s u) : Ends i s u.done :=
  .completes u .none false nofun hk

theorem fieldBinary_ends (i : Instr) (m : Modulus) (f : Int → Int → Int) (s : State) :
    Ends i s (fieldBinary m f s) := by
  unfold fieldBinary
  split
  · exact .done (.of_eq (by constructor <;> rfl) rfl rfl)
  · exact .raise _ (.refl s)

theorem writeR_keeps (s : State) (q : Point) : ResultKeeps s (s.writeR q) :=
  .of_eq (by constructor <;> simp) (by simp) (by simp)

/-- How SIGN's attempts can end (43_sm2.md R281): a signature, SIGNING_FAILED, RANDOM_SOURCE, or a wait that holds no
nonce and keeps the attempts within the budget. -/
theorem signLoop_cases (s : State) (answers : List RngAnswer) :
    (∃ rest r t, signLoop s answers = ({ s with rng := rest }.writeSig r t).done) ∨
    (∃ rest, signLoop s answers = { s with rng := rest }.raise .signingFailed) ∨
    (∃ rest, signLoop s answers = { s with rng := rest }.raise .randomSource) ∨
    (∃ rest made, (s.attempt < s.retry.toNat → made < s.retry.toNat) ∧
      signLoop s answers = { s with attempt := made }.waitAttempt rest) := by
  induction answers generalizing s with
  | nil => exact .inr (.inr (.inr ⟨[], s.attempt, id, rfl⟩))
  | cons ans rest ih =>
    rw [signLoop]
    split
    · dsimp only
      split
      · exact .inl ⟨rest, _, _, rfl⟩
      · split
        · rename_i k _ _ _ hlt
          rcases ih (s.drewNonce rest k).retried with ⟨r, a, b, h⟩ | ⟨r, h⟩ | ⟨r, h⟩ | ⟨r, m, hm, h⟩
          · exact .inl ⟨r, a, b, h⟩
          · exact .inr (.inl ⟨r, h⟩)
          · exact .inr (.inr (.inl ⟨r, h⟩))
          · exact .inr (.inr (.inr ⟨r, m, fun _ => hm hlt, h⟩))
        · exact .inr (.inl ⟨rest, rfl⟩)
    · exact .inr (.inr (.inr ⟨rest, s.attempt, id, rfl⟩))
    · exact .inr (.inr (.inl ⟨rest, rfl⟩))

/-- The checks of an SM4 mode command that passed (45_sm4.md R361): both regions are inside DBUF, they agree, and the
length is one the command takes. -/
theorem modeChecks_none {i : Instr} {outlen : Nat} {s : State} (h : modeChecks i outlen s = .none) :
    validRegion s.src.toNat s.len.toNat = true ∧ validRegion s.dst.toNat outlen = true ∧
      regionsAgree s.src.toNat s.len.toNat s.dst.toNat outlen = true ∧
      badBlockLength i s.len.toNat = false := by
  unfold modeChecks at h
  grind

theorem validRegion_iff (off len : Nat) :
    validRegion off len = true ↔ off ≤ Config.dbufSize ∧ len ≤ Config.dbufSize - off := by
  simp [validRegion]

theorem modeError_ends (i : Instr) (s : State) (code : ErrCode) : Ends i s (s.modeError code) :=
  .raise code (.of_eq (by constructor <;> rfl) rfl rfl)

theorem modeOutput_keeps (s : State) (out : List Byte) (cv : Block) (n : Nat)
    (h : s.dst.toNat + out.length ≤ Config.dbufSize) : ResultKeeps s (s.modeOutput out cv n) :=
  ⟨by constructor <;> rfl, fun hw => Memory.wf_writeBytes hw h, id⟩

theorem blockLength_of_checks {i : Instr} {s : State} (hi : i = .ecbenc ∨ i = .ecbdec ∨ i = .cbcenc false ∨
    i = .cbcdec false ∨ i = .cbcdec true) (h : badBlockLength i s.len.toNat = false) :
    s.len.toNat % 16 = 0 := by
  rcases hi with rfl | rfl | rfl | rfl | rfl <;> simp_all [badBlockLength]

theorem ecbRun_ends (i : Instr) (hi : i = .ecbenc ∨ i = .ecbdec) (f : Block → Block) (s : State) :
    Ends i s (ecbRun i f s) := by
  unfold ecbRun
  split
  · rename_i h
    obtain ⟨-, h2, -, h4⟩ := modeChecks_none h
    rw [validRegion_iff] at h2
    refine .done (modeOutput_keeps _ _ _ _ ?_)
    have := blockLength_of_checks (by rcases hi with rfl | rfl <;> simp) h4
    simp only [length_ofBlocks, List.length_map, length_toBlocks, State.modeInput, State.length_memRead]
    omega
  · exact modeError_ends _ _ _

theorem execCbcenc_ends (pad : Bool) (s t : State) (h : execCbcenc pad s = .next t) :
    Ends (.cbcenc pad) s t := by
  simp only [execCbcenc, Host.Outcome.next.injEq] at h
  subst h
  split
  · rename_i h
    obtain ⟨-, h2, -, h4⟩ := modeChecks_none h
    rw [validRegion_iff] at h2
    refine .done (modeOutput_keeps _ _ _ _ ?_)
    cases pad
    · have := blockLength_of_checks (i := .cbcenc false) (by simp) h4
      simp only [cbcEncLen, Bool.false_eq_true, if_false] at h2
      simp only [Bool.false_eq_true, if_false, length_ofBlocks, length_cbcEncBlocks, length_toBlocks,
        State.modeInput, State.length_memRead]
      omega
    · simp only [cbcEncLen, if_true] at h2
      simp only [if_true, length_ofBlocks, length_cbcEncBlocks, length_toBlocks, length_pad7,
        State.modeInput, State.length_memRead]
      omega
  · exact modeError_ends _ _ _

theorem cbcStripped_ends (i : Instr) (s : State) (y : List Byte) (cv : Block)
    (h : s.dst.toNat + s.len.toNat ≤ Config.dbufSize) (hy : y.length ≤ s.len.toNat) :
    Ends i s (s.cbcStripped y cv) := by
  unfold State.cbcStripped
  split
  · refine .done (modeOutput_keeps _ _ _ _ ?_)
    have := length_strip7_le y
    simp only [List.length_append, List.length_replicate]
    omega
  · refine .raise _ (modeOutput_keeps _ _ _ _ ?_)
    simpa using h

theorem execCbcdec_ends (pad : Bool) (s t : State) (h : execCbcdec pad s = .next t) :
    Ends (.cbcdec pad) s t := by
  simp only [execCbcdec, Host.Outcome.next.injEq] at h
  subst h
  split
  · rename_i h
    obtain ⟨-, h2, -, h4⟩ := modeChecks_none h
    rw [validRegion_iff] at h2
    have := blockLength_of_checks (i := .cbcdec pad) (by cases pad <;> simp) h4
    have hlen : (ofBlocks (cbcDecBlocks s.sm4.rk s.sm4.cv (toBlocks s.modeInput)).1).length = s.len.toNat := by
      simp only [length_ofBlocks, length_cbcDecBlocks, length_toBlocks, State.modeInput, State.length_memRead]
      omega
    cases pad
    · refine .done (modeOutput_keeps _ _ _ _ ?_)
      rw [hlen]
      omega
    · exact cbcStripped_ends _ _ _ _ (by omega) hlen.le
  · exact modeError_ends _ _ _

/-- How any command's engine step ends (40_control.md R175, R177). -/
theorem exec_ends (i : Instr) (s t : State) (h : exec i s = .next t) : Ends i s t := by
  cases i with
  | nop => cases h; exact .done (.refl s)
  | zeroize =>
    cases h
    exact .done ⟨by constructor <;> rfl, fun _ => by rw [State.zeroized_dbuf]; exact Memory.wf_zeroed,
      fun _ => Sm3Ctx.ok_reset⟩
  | fadd m => cases h; exact fieldBinary_ends _ _ _ _
  | fsub m => cases h; exact fieldBinary_ends _ _ _ _
  | fmul m => cases h; exact fieldBinary_ends _ _ _ _
  | finv m =>
    simp only [exec, execFinv, Host.Outcome.next.injEq] at h
    subst h
    split
    · exact .done (.of_eq (by constructor <;> rfl) rfl rfl)
    · exact .raise _ (.refl s)
  | fred m => cases h; exact .done (.of_eq (by constructor <;> rfl) rfl rfl)
  | padd =>
    simp only [exec, execPadd, Host.Outcome.next.injEq] at h
    subst h
    split
    · exact .done (writeR_keeps s _)
    · exact .raise _ (.refl s)
  | pdbl =>
    simp only [exec, execPdbl, Host.Outcome.next.injEq] at h
    subst h
    split
    · exact .done (writeR_keeps s _)
    · exact .raise _ (.refl s)
  | pmul =>
    simp only [exec, execPmul, Host.Outcome.next.injEq] at h
    subst h
    split
    · exact .done (writeR_keeps s _)
    · exact .raise _ (.refl s)
  | pmulg => cases h; exact .done (writeR_keeps s _)
  | pchk => cases h; exact .completes s .none _ (fun _ => rfl) (.refl s)
  | keygen =>
    simp only [exec, execKeygen, Host.Outcome.next.injEq] at h
    subst h
    split
    · rename_i hr
      have : s = { s with rng := [] } := by rw [← hr]
      rw [this]
      exact .keygenWaits _ rfl
    · split
      · exact .done (.of_eq (by constructor <;> rfl) rfl rfl)
      · exact .keygenWaits _ rfl
      · exact .raise _ (.of_eq (by constructor <;> rfl) rfl rfl)
  | sign =>
    simp only [exec, execSign, Host.Outcome.next.injEq] at h
    subst h
    split
    · rename_i hc
      simp only [Bool.and_eq_true, decide_eq_true_eq] at hc
      rcases signLoop_cases s s.rng with ⟨r, a, b, h⟩ | ⟨r, h⟩ | ⟨r, h⟩ | ⟨r, m', hm, h⟩
      · rw [h]; exact .done (.of_eq (by constructor <;> rfl) rfl rfl)
      · rw [h]; exact .raise _ (.of_eq (by constructor <;> rfl) rfl rfl)
      · rw [h]; exact .raise _ (.of_eq (by constructor <;> rfl) rfl rfl)
      · rw [h]
        exact .signWaits r m' rfl (fun h' => hm (by omega))
    · exact .raise _ (.refl s)
  | signk =>
    simp only [exec, execSignk, Host.Outcome.next.injEq] at h
    subst h
    split
    · split
      · exact .done (.of_eq (by constructor <;> rfl) rfl rfl)
      · exact .raise _ (.refl s)
    · exact .raise _ (.refl s)
  | verify => cases h; exact .completes s .none _ (fun _ => rfl) (.refl s)
  | sm3init => cases h; exact .done ⟨by constructor <;> rfl, id, fun _ => Sm3Ctx.ok_init⟩
  | sm3upd =>
    simp only [exec, execSm3upd, Host.Outcome.next.injEq] at h
    subst h
    split
    · exact .raise _ (.refl s)
    · rename_i hst
      split
      · exact .done ⟨by constructor <;> rfl, id, fun hok => Sm3Ctx.ok_update hok (Classical.not_not.mp hst) _⟩
      · exact .raise _ (.refl s)
  | sm3fin =>
    simp only [exec, execSm3fin, Host.Outcome.next.injEq] at h
    subst h
    split
    · exact .raise _ (.refl s)
    · exact .done ⟨by constructor <;> rfl, id, fun _ => Sm3Ctx.ok_finished _⟩
  | sm4key => cases h; exact .done (.of_eq (by constructor <;> rfl) rfl rfl)
  | ecbenc => cases h; exact ecbRun_ends _ (.inl rfl) _ _
  | ecbdec => cases h; exact ecbRun_ends _ (.inr rfl) _ _
  | cbcenc pad => exact execCbcenc_ends pad s t h
  | cbcdec pad => exact execCbcdec_ends pad s t h

/-- Every command answers a next state. -/
theorem exec_next (i : Instr) (s : State) : ∃ t, exec i s = .next t := by
  cases i <;> exact ⟨_, rfl⟩

/-- Every engine step answers a next state. -/
theorem engineStep_next (s : State) : ∃ t, engineStep s = .next t := by
  unfold engineStep
  split
  · exact ⟨_, rfl⟩
  · split
    · exact exec_next _ _
    · exact ⟨_, rfl⟩

end Sys2Proof.Machine
end

