-- ==== Sys2Proof/Laws/GroupOrder.lean ====
section
/-! SUPPORT. The base point has order n (42_curve.md R230, R231): n·G = O by computation, and n is prime. -/
namespace Sys2Proof.Machine

/-- n·G = O (42_curve.md R230: checked by computation). -/
theorem ecMul_sm2n_pointG : ecMul sm2n pointG = .inf := by decide +kernel

section
variable [Fact (Nat.Prime sm2p)]

theorem toCurve_pointG_ne_zero : toCurve pointG ≠ 0 := by
  obtain ⟨-, -, he⟩ := (pointValid_aff sm2gx sm2gy).mp pointValid_pointG
  have h : toCurve pointG = .some _ _ (sm2Curve_nonsingular he) := toCurve_aff _
  rw [h]
  exact nofun

theorem addOrderOf_pointG : addOrderOf (toCurve pointG) = sm2n := by
  have : Fact (Nat.Prime sm2n) := ⟨prime_sm2n⟩
  refine addOrderOf_eq_prime ?_ toCurve_pointG_ne_zero
  rw [← (ecMul_spec pointValid_pointG sm2n (modulus_lt .n)).2, ecMul_sm2n_pointG]
  rfl

/-- A multiple of G is O exactly when n divides the scalar. -/
theorem nsmul_pointG_eq_zero (k : Nat) : k • toCurve pointG = 0 ↔ sm2n ∣ k := by
  rw [← addOrderOf_pointG, addOrderOf_dvd_iff_nsmul_eq_zero]

/-- Multiples of G by scalars that agree modulo n are equal. -/
theorem nsmul_pointG_congr {j k : Nat} (h : j % sm2n = k % sm2n) :
    j • toCurve pointG = k • toCurve pointG := by
  rw [← addOrderOf_pointG] at h
  rw [← mod_addOrderOf_nsmul, h, mod_addOrderOf_nsmul]

end

end Sys2Proof.Machine
end

