-- ==== Sys2Proof/Laws/Modes.lean ====
section
/-! SUPPORT. What the shared operations of the SM4 mode commands do: the checks, the bytes at DST, the chains, and the padding (45_sm4.md R354-R375). -/
namespace Sys2Proof.Machine

/-- The key schedule as a sequence of words: each round key is the recurrence's next word (45_sm4.md R354). -/
theorem expand_seq (cks : List Word) (k : Block) : ∃ K : Nat → Word, (∀ i : Fin 4, K i.val = k.word i) ∧
    ∀ i (h : i < cks.length), K (i + 4) = K i ^^^ sm4T' (K (i + 1) ^^^ K (i + 2) ^^^ K (i + 3) ^^^ cks[i]) ∧
      (sm4Expand cks k)[i]? = some (K (i + 4)) := by
  induction cks generalizing k with
  | nil => exact ⟨fun i => if h : i < 4 then k.word ⟨i, h⟩ else 0, fun i => by simp, fun i h => by simp at h⟩
  | cons ck cks ih =>
    obtain ⟨K, h0, h⟩ := ih ⟨k.w1, k.w2, k.w3, k.w0 ^^^ sm4T' (k.w1 ^^^ k.w2 ^^^ k.w3 ^^^ ck)⟩
    have k0 : K 0 = k.w1 := h0 0
    have k1 : K 1 = k.w2 := h0 1
    have k2 : K 2 = k.w3 := h0 2
    have k3 : K 3 = _ := h0 3
    refine ⟨fun i => match i with | 0 => k.w0 | i + 1 => K i, fun i => ?_, fun i hi => ?_⟩
    · fin_cases i
      · rfl
      · exact k0
      · exact k1
      · exact k2
    · cases i with
      | zero =>
        refine ⟨?_, ?_⟩
        · show K 3 = k.w0 ^^^ sm4T' (K 0 ^^^ K 1 ^^^ K 2 ^^^ ck)
          rw [k3, k0, k1, k2]; rfl
        · show some _ = some (K 3)
          rw [k3]; rfl
      | succ i => exact h i (by simpa using hi)

/-- The rounds of the block transform as a sequence of words (45_sm4.md R355). -/
theorem rounds_seq (ks : List Word) (b : Block) : ∃ X : Nat → Word, (∀ i : Fin 4, X i.val = b.word i) ∧
    (∀ i (h : i < ks.length), X (i + 4) = X i ^^^ sm4T (X (i + 1) ^^^ X (i + 2) ^^^ X (i + 3) ^^^ ks[i])) ∧
    ks.foldl sm4Round b = ⟨X ks.length, X (ks.length + 1), X (ks.length + 2), X (ks.length + 3)⟩ := by
  induction ks generalizing b with
  | nil => exact ⟨fun i => if h : i < 4 then b.word ⟨i, h⟩ else 0, fun i => by simp, fun i h => by simp at h, rfl⟩
  | cons k ks ih =>
    obtain ⟨X, h0, h, hf⟩ := ih (sm4Round b k)
    have k0 : X 0 = b.w1 := h0 0
    have k1 : X 1 = b.w2 := h0 1
    have k2 : X 2 = b.w3 := h0 2
    have k3 : X 3 = _ := h0 3
    refine ⟨fun i => match i with | 0 => b.w0 | i + 1 => X i, fun i => ?_, fun i hi => ?_, ?_⟩
    · fin_cases i
      · rfl
      · exact k0
      · exact k1
      · exact k2
    · cases i with
      | zero =>
        show X 3 = b.w0 ^^^ sm4T (X 0 ^^^ X 1 ^^^ X 2 ^^^ k)
        rw [k3, k0, k1, k2]; rfl
      | succ i => exact h i (by simpa using hi)
    · exact hf

/-- A round undoes itself on the reversed block. -/
theorem round_rev (x : Block) (k : Word) : sm4Round (sm4Round x k).rev k = x.rev := by
  simp only [sm4Round, Block.rev, Block.mk.injEq, true_and]
  rw [show x.w3 ^^^ x.w2 ^^^ x.w1 ^^^ k = x.w1 ^^^ x.w2 ^^^ x.w3 ^^^ k by ac_rfl, BitVec.xor_assoc, BitVec.xor_self, BitVec.xor_zero]

/-- The region rule in words (20_memory.md R113). -/
theorem regionsAgree_iff (src len dst outlen : Nat) : regionsAgree src len dst outlen = true ↔
    (dst = src ∨ dst + outlen ≤ src ∨ src + len ≤ dst ∨ len = 0 ∨ outlen = 0) := by
  simp [regionsAgree, or_assoc]

/-- The regions of a mode command as the checks compute them. -/
theorem modeRegions_iff (s : State) (n : Nat) : ModeRegions s n ↔
    (validRegion s.src.toNat s.len.toNat = true ∧ validRegion s.dst.toNat n = true ∧ regionsAgree s.src.toNat s.len.toNat s.dst.toNat n = true) := by
  rw [validRegion_iff, validRegion_iff, regionsAgree_iff, BitVec.toNat_inj]
  rfl

/-- The checks of a mode command fail first on its regions (45_sm4.md R361). -/
theorem modeChecks_of_not_regions {i : Instr} {n : Nat} {s : State} (h : ¬ ModeRegions s n) :
    modeChecks i n s = .invalidParams := by
  rw [modeRegions_iff] at h
  unfold modeChecks
  grind

/-- With its regions in order, a mode command's checks rest on its length (45_sm4.md R361). -/
theorem modeChecks_of_regions {i : Instr} {n : Nat} {s : State} (h : ModeRegions s n) :
    modeChecks i n s = if badBlockLength i s.len.toNat then .invalidBlockLength else .none := by
  rw [modeRegions_iff] at h
  unfold modeChecks
  grind

/-- A mode command whose checks passed. -/
theorem checks_regions {i : Instr} {s : State} {n : Nat} (h : modeChecks i n s = .none) :
    ModeRegions s n ∧ badBlockLength i s.len.toNat = false := by
  obtain ⟨h1, h2, h3, h4⟩ := modeChecks_none h
  exact ⟨(modeRegions_iff s n).mpr ⟨h1, h2, h3⟩, h4⟩

/-- What a failed mode command leaves (45_sm4.md R361). -/
theorem modeError_spec (s : State) (code : ErrCode) : Completed (s.modeError code) code false ∧
    DataKept { s with outlen := 0 } (s.modeError code) ∧ (s.modeError code).rng = s.rng :=
  ⟨completed_complete _ _ _, by constructor <;> first | rfl | (constructor <;> rfl), rfl⟩

/-- A mode command whose checks fail. -/
theorem exec_mode_error {i : Instr} {s : State} {n : Nat} {code : ErrCode} (hn : modeOutLen i s.len.toNat = some n)
    (hc : modeChecks i n s = code) (h0 : code ≠ .none) : exec i s = .next (s.modeError code) := by
  cases i <;> simp only [modeOutLen, Option.some.injEq, reduceCtorEq] at hn <;> subst hn
  · simp only [exec, execEcbenc, ecbRun]; rw [hc]; cases code <;> first | rfl | exact absurd rfl h0
  · simp only [exec, execEcbdec, ecbRun]; rw [hc]; cases code <;> first | rfl | exact absurd rfl h0
  · simp only [exec, execCbcenc]; rw [hc]; cases code <;> first | rfl | exact absurd rfl h0
  · simp only [exec, execCbcdec]; rw [hc]; cases code <;> first | rfl | exact absurd rfl h0

/-- A mode command that completes without error passed its checks. -/
theorem exec_mode_ok {i : Instr} {s t : State} {n : Nat} (hn : modeOutLen i s.len.toNat = some n) (h : exec i s = .next t) (he : t.status.err = false) :
    modeChecks i n s = .none := by
  by_contra hc
  rw [exec_mode_error hn rfl hc] at h
  cases h
  cases hh : modeChecks i n s <;> simp_all [State.modeError, State.raise, State.complete]

/-- Bytes written stand where they were written. -/
theorem holdsAt_written (s : State) (x : Nat) (bs : List Byte) (t : State) (h : t.dbuf = Memory.writeBytes s.dbuf x bs) : HoldsAt t x bs := by
  intro i hi; rw [h]; exact Memory.read_writeBytes_inside _ _ _ hi

/-- Bytes outside a write are kept. -/
theorem kept_written (s t : State) (x : Nat) (bs : List Byte) (h : t.dbuf = Memory.writeBytes s.dbuf x bs) : KeptOutside s t x bs.length := by
  intro a ha; rw [h]; exact Memory.read_writeBytes_outside _ _ _ (by omega)

/-- Bytes outside a write of known length are kept. -/
theorem kept_out (s t : State) (x n : Nat) (out : List Byte) (h : t.dbuf = Memory.writeBytes s.dbuf x out) (hl : out.length = n) : KeptOutside s t x n := by
  subst hl; exact kept_written s t x out h

/-- Byte k of block j. -/
theorem getElem_ofBlocks (xs : List Block) (j k : Nat) (hj : j < xs.length) (hk : k < 16) (h : 16 * j + k < (ofBlocks xs).length) :
    (ofBlocks xs)[16 * j + k] = (xs[j].bytes)[k]'(by simpa using hk) := by
  induction xs generalizing j with
  | nil => simp at hj
  | cons x xs ih =>
    simp only [ofBlocks_cons]
    cases j with
    | zero =>
      rw [List.getElem_append_left (by simp; omega)]
      simp
    | succ j =>
      rw [List.getElem_append_right (by simp; omega)]
      simp only [length_blockBytes, List.getElem_cons_succ]
      rw [← ih j (by simpa using hj) (by simp at h ⊢; omega)]
      congr 1
      omega

/-- A block of a written string of blocks. -/
theorem holdsAt_block {t : State} {x : Nat} {xs : List Block} (h : HoldsAt t x (ofBlocks xs)) (j : Nat) (hj : j < xs.length) :
    HoldsAt t (x + 16 * j) xs[j].bytes := by
  intro i hi
  have hi' : i < 16 := by simpa using hi
  have hl : 16 * j + i < (ofBlocks xs).length := by simp; omega
  have := h (16 * j + i) hl
  rw [getElem_ofBlocks xs j i hj hi' hl] at this
  rw [Nat.add_assoc]; exact this

/-- The head of a written string. -/
theorem holdsAt_append_left {t : State} {x : Nat} {a b : List Byte} (h : HoldsAt t x (a ++ b)) : HoldsAt t x a := by
  intro i hi
  have := h i (by simp; omega)
  rwa [List.getElem_append_left hi] at this

/-- A region that holds bytes reads as them. -/
theorem memRead_holds {s : State} {x n : Nat} {bs : List Byte} (h : HoldsAt s x bs) (hn : n = bs.length) : s.memRead x n = bs := by
  subst hn; exact State.memRead_of_read h

/-- Block j of a string. -/
theorem getElem_toBlocks_blockAt (bs : List Byte) (j : Nat) (h : j < (toBlocks bs).length) : (toBlocks bs)[j] = blockAt bs j :=
  getElem_toBlocks bs j h

/-- Block j of a string of blocks. -/
theorem blockAt_ofBlocks (xs : List Block) (j : Nat) (h : j < xs.length) : blockAt (ofBlocks xs) j = xs[j] := by
  have hl : j < (toBlocks (ofBlocks xs)).length := by rw [toBlocks_ofBlocks]; exact h
  rw [← getElem_toBlocks_blockAt _ _ hl]
  simp only [toBlocks_ofBlocks]

/-- A mode command's output changes CV, OUTLEN and DBUF alone. -/
theorem onlySm4_out (s : State) (out : List Byte) (cv : Block) (n : Nat) (c : ErrCode) (v : Bool) : OnlySm4 s ((s.modeOutput out cv n).complete c v) := by
  constructor <;> first | rfl | (constructor <;> rfl)

/-- An ECB command whose checks pass (45_sm4.md R365, R366). -/
theorem ecb_ok (i : Instr) (f : Vector Word 32 → Block → Block) (s : State)
    (hi : (i = .ecbenc ∧ f = sm4Enc) ∨ (i = .ecbdec ∧ f = sm4Dec)) (hr : ModeRegions s s.len.toNat) (hl : s.len.toNat % 16 = 0) :
    exec i s = .next (s.modeOutput (ofBlocks ((toBlocks s.modeInput).map (f s.sm4.rk))) s.sm4.cv s.len.toNat).done := by
  have hc : modeChecks i s.len.toNat s = .none := by
    rw [modeChecks_of_regions hr, if_neg]
    rcases hi with ⟨rfl, -⟩ | ⟨rfl, -⟩ <;> simp [badBlockLength, hl]
  rcases hi with ⟨rfl, rfl⟩ | ⟨rfl, rfl⟩
  · simp only [exec, execEcbenc, ecbRun]; rw [hc]
  · simp only [exec, execEcbdec, ecbRun]; rw [hc]

/-- The chain of CBC encryption (45_sm4.md R370). -/
theorem cbcEnc_chain (rk : Vector Word 32) (prev : Block) (ms : List Block) :
    (∀ j (h : j < ms.length), ((cbcEncBlocks rk prev ms).1[j]'(by simpa using h)) =
      sm4Enc rk (ms[j].xor (if _ : j = 0 then prev else (cbcEncBlocks rk prev ms).1[j - 1]'(by simp; omega)))) ∧
    (cbcEncBlocks rk prev ms).2 = if h : ms.length = 0 then prev else (cbcEncBlocks rk prev ms).1[ms.length - 1]'(by simp; omega) := by
  induction ms generalizing prev with
  | nil => exact ⟨fun j h => by simp at h, rfl⟩
  | cons m ms ih =>
    obtain ⟨h1, h2⟩ := ih (sm4Enc rk (m.xor prev))
    refine ⟨fun j h => ?_, ?_⟩
    · cases j with
      | zero => simp [cbcEncBlocks]
      | succ j =>
        simp only [cbcEncBlocks, List.getElem_cons_succ]
        rw [h1 j (by simpa using h)]
        cases j <;> simp
    · simp only [cbcEncBlocks]
      rw [h2]
      cases ms <;> simp

/-- The chain of CBC decryption (45_sm4.md R375). -/
theorem cbcDec_chain (rk : Vector Word 32) (prev : Block) (cs : List Block) :
    (∀ j (h : j < cs.length), ((cbcDecBlocks rk prev cs).1[j]'(by simpa using h)) =
      (sm4Dec rk cs[j]).xor (if _ : j = 0 then prev else cs[j - 1]'(by omega))) ∧
    (cbcDecBlocks rk prev cs).2 = if h : cs.length = 0 then prev else cs[cs.length - 1]'(by omega) := by
  induction cs generalizing prev with
  | nil => exact ⟨fun j h => by simp at h, rfl⟩
  | cons m ms ih =>
    obtain ⟨h1, h2⟩ := ih m
    refine ⟨fun j h => ?_, ?_⟩
    · cases j with
      | zero => simp [cbcDecBlocks]
      | succ j =>
        simp only [cbcDecBlocks, List.getElem_cons_succ]
        rw [h1 j (by simpa using h)]
        cases j <;> simp
    · simp only [cbcDecBlocks]
      rw [h2]
      cases ms <;> simp

/-- CBCDEC whose checks pass (45_sm4.md R375). -/
theorem cbcdec_ok (pad : Bool) (s : State) (hr : ModeRegions s s.len.toNat) (hl : s.len.toNat % 16 = 0) (h0 : pad = true → s.len.toNat ≠ 0) :
    exec (.cbcdec pad) s = .next (if pad then s.cbcStripped (ofBlocks (cbcDecBlocks s.sm4.rk s.sm4.cv (toBlocks s.modeInput)).1)
      (cbcDecBlocks s.sm4.rk s.sm4.cv (toBlocks s.modeInput)).2 else
      s.cbcPlain (ofBlocks (cbcDecBlocks s.sm4.rk s.sm4.cv (toBlocks s.modeInput)).1)
      (cbcDecBlocks s.sm4.rk s.sm4.cv (toBlocks s.modeInput)).2) := by
  have hc : modeChecks (.cbcdec pad) s.len.toNat s = .none := by
    rw [modeChecks_of_regions hr, if_neg]
    cases pad
    · simp [badBlockLength, hl]
    · have := h0 rfl
      simp [badBlockLength, hl]
      intro hh; rw [hh] at this; simp at this
  simp only [exec, execCbcdec]; rw [hc]

/-- The last byte of a padded string states the pad length (45_sm4.md R357). -/
theorem padLen_pad7 (m : List Byte) : padLen (pad7 m) = 16 - m.length % 16 := by
  have hlt := Nat.mod_lt m.length (by omega : 0 < 16)
  have hl := length_pad7 m
  unfold padLen
  rw [hl, List.getD_eq_getElem?_getD, pad7]
  rw [List.getElem?_append_right (by omega), List.getElem?_replicate_of_lt (by omega)]
  simp
  omega

end Sys2Proof.Machine
end

