-- ==== Sys2Proof/Laws/PerInstr.lean ====
section
/-! SUPPORT. The law of each command as syntax: its fields pass every check of the command word, and the word that
encodes it has exactly these fields (30_encoding.md R141, R143-R150). -/
namespace Sys2Proof.Laws.EncodesWellFormed

/-- The fields of a command are well formed, and its word unpacks to them. -/
def Statement (i : Instr) : Prop := i.fields.wellFormed = true ∧ unpackCmd (encode i) = i.fields

theorem nop : Statement .nop := by unfold Statement; decide

theorem zeroize : Statement .zeroize := by unfold Statement; decide

theorem fadd (m : Modulus) : Statement (.fadd m) := by unfold Statement; cases m <;> decide

theorem fsub (m : Modulus) : Statement (.fsub m) := by unfold Statement; cases m <;> decide

theorem fmul (m : Modulus) : Statement (.fmul m) := by unfold Statement; cases m <;> decide

theorem finv (m : Modulus) : Statement (.finv m) := by unfold Statement; cases m <;> decide

theorem fred (m : Modulus) : Statement (.fred m) := by unfold Statement; cases m <;> decide

theorem padd : Statement .padd := by unfold Statement; decide

theorem pdbl : Statement .pdbl := by unfold Statement; decide

theorem pmul : Statement .pmul := by unfold Statement; decide

theorem pmulg : Statement .pmulg := by unfold Statement; decide

theorem pchk : Statement .pchk := by unfold Statement; decide

theorem keygen : Statement .keygen := by unfold Statement; decide

theorem sign : Statement .sign := by unfold Statement; decide

theorem signk : Statement .signk := by unfold Statement; decide

theorem verify : Statement .verify := by unfold Statement; decide

theorem sm3init : Statement .sm3init := by unfold Statement; decide

theorem sm3upd : Statement .sm3upd := by unfold Statement; decide

theorem sm3fin : Statement .sm3fin := by unfold Statement; decide

theorem sm4key : Statement .sm4key := by unfold Statement; decide

theorem ecbenc : Statement .ecbenc := by unfold Statement; decide

theorem ecbdec : Statement .ecbdec := by unfold Statement; decide

theorem cbcenc (pad : Bool) : Statement (.cbcenc pad) := by unfold Statement; cases pad <;> decide

theorem cbcdec (pad : Bool) : Statement (.cbcdec pad) := by unfold Statement; cases pad <;> decide

end Sys2Proof.Laws.EncodesWellFormed
end

