-- ==== Sys2Proof/Laws/Results.lean ====
section
/-! SUPPORT. What the shared result writes of a command leave: the error, the field result, the point result, the signature, and SIGN's retries. -/
namespace Sys2Proof.Machine

/-- A completion on the state itself keeps every data register. -/
theorem dataKept_complete (s : State) (c : ErrCode) (b : Bool) : DataKept s (s.complete c b) := by
  constructor <;> first | rfl | (constructor <;> rfl)

/-- An error that writes nothing. -/
theorem raises (s : State) (c : ErrCode) : ∃ t, (Host.Outcome.next (s.raise c) : Host.Outcome State Fault Refusal) = .next t ∧ Completed t c false ∧ DataKept s t ∧ t.rng = s.rng :=
  ⟨_, rfl, completed_complete _ _ _, dataKept_complete _ _ _, rfl⟩

/-- KEYGEN's wait. -/
theorem kg_waits (s : State) (rest : List RngAnswer) : Waits s { s with rng := rest }.waitRng :=
  ⟨rfl, rfl, rfl, by constructor <;> first | rfl | (constructor <;> rfl)⟩

/-- SIGN's wait. -/
theorem sg_waits (s : State) (rest : List RngAnswer) (m : Nat) : Waits s ({ s with attempt := m }.waitAttempt rest) :=
  ⟨rfl, rfl, rfl, by constructor <;> first | rfl | (constructor <;> rfl)⟩

/-- Writing C changes C alone. -/
theorem onlyOperands_writeC (s : State) (v : Nat) : OnlyC s (s.writeC v).done := by
  refine ⟨by constructor <;> first | rfl | (constructor <;> rfl), rfl, ?_, rfl⟩
  intro r hr
  cases r <;> first | rfl | (simp at hr)

/-- C holds the number written. -/
theorem writeC_c (s : State) (v : Nat) (h : v < 2 ^ 256) : (s.writeC v).done.opnd.c.toNat = v := by
  simp only [State.done, State.complete, State.writeC, BitVec.toNat_ofNat]
  exact Nat.mod_eq_of_lt h

/-- A residue of either modulus fits a register. -/
theorem zmod_lt' (x : Int) (m : Modulus) : zmod x (modulus m) < 2 ^ 256 :=
  lt_trans (zmod_lt x (prime_modulus m).pos) (modulus_lt m)

/-- A two-operand field command on canonical operands (41_field.md R201). -/
theorem fieldBinary_ok (m : Modulus) (f : Int → Int → Int) (s : State) (ha : s.opnd.a.toNat < modulus m)
    (hb : s.opnd.b.toNat < modulus m) : fieldBinary m f s = (s.writeC (zmod (f s.opnd.a.toNat s.opnd.b.toNat) (modulus m))).done := by
  simp [fieldBinary, canonical, ha, hb]

/-- A two-operand field command on an operand that is not canonical (41_field.md R201). -/
theorem fieldBinary_bad (m : Modulus) (f : Int → Int → Int) (s : State) (h : modulus m ≤ s.opnd.a.toNat ∨ modulus m ≤ s.opnd.b.toNat) :
    fieldBinary m f s = s.raise .invalidParams := by
  unfold fieldBinary canonical
  rw [if_neg]
  simp; omega

/-- Writing the result point changes RX, RY and RINF alone. -/
theorem onlyR_writeR (s : State) (q : Point) : OnlyR s (s.writeR q).done := by
  cases q
  all_goals
    refine ⟨by constructor <;> first | rfl | (constructor <;> rfl), rfl, rfl, ?_, rfl⟩
    intro r hr
    cases r <;> first | rfl | (simp at hr)

/-- The result registers hold the point written. -/
theorem resultPoint_writeR (s : State) (q : Point) (h : pointValid q = true) : ResultPoint (s.writeR q).done q := by
  cases q with
  | inf => exact ⟨rfl, rfl, rfl⟩
  | aff x y =>
    obtain ⟨hx, hy, -⟩ := (pointValid_aff x y).mp h
    have h1 : sm2p < 2 ^ 256 := by decide
    refine ⟨rfl, ?_, ?_, hx, hy⟩
    · show (BitVec.ofNat 256 x).toNat = x
      rw [BitVec.toNat_ofNat, Nat.mod_eq_of_lt (by omega)]
    · show (BitVec.ofNat 256 y).toNat = y
      rw [BitVec.toNat_ofNat, Nat.mod_eq_of_lt (by omega)]

/-- The field prime, for the group law of the curve. -/
theorem factp : Fact (Nat.Prime sm2p) := ⟨prime_sm2p⟩

/-- The sum of valid points is valid. -/
theorem ecAdd_valid {P Q : Point} (hP : pointValid P = true) (hQ : pointValid Q = true) : pointValid (ecAdd P Q) = true :=
  haveI := factp; (ecAdd_spec hP hQ).1

/-- A multiple of a valid point is valid. -/
theorem ecMul_valid {P : Point} (hP : pointValid P = true) {k : Nat} (hk : k < 2 ^ 256) : pointValid (ecMul k P) = true :=
  haveI := factp; (ecMul_spec hP k hk).1

/-- Only O is the zero of the curve group. -/
theorem toCurve_eq_zero {P : Point} (hP : pointValid P = true) : (haveI := factp; toCurve P = 0) ↔ P = .inf := by
  have := factp
  constructor
  · intro h; exact toCurve_inj hP rfl h
  · rintro rfl; rfl

/-- n fits a register. -/
theorem sm2n_lt : sm2n < 2 ^ 256 := modulus_lt .n

/-- n is far above the small constants of the range checks. -/
theorem sm2n_big : 100 < sm2n := by decide

/-- p fits a register. -/
theorem sm2p_lt : sm2p < 2 ^ 256 := modulus_lt .p

/-- SIGN's attempts depend on no answer already taken and on no nonce of an earlier attempt (43_sm2.md R281). -/
theorem signLoop_fresh (s : State) (rng l : List RngAnswer) (k : Option Nat) :
    signLoop { s with rng := rng, nonce := k } l = signLoop s l := by
  cases l <;> rfl

/-- A value in the range of the draw is drawn (10_state.md R70). -/
theorem draw_value {lo hi v : Nat} (h1 : lo ≤ v) (h2 : v ≤ hi) : (RngAnswer.value v).draw lo hi = .got v := by
  simp [RngAnswer.draw, h1, h2]

/-- What is drawn is a value in the range (10_state.md R70). -/
theorem draw_got {ans : RngAnswer} {lo hi k : Nat} (h : ans.draw lo hi = .got k) :
    ans = .value k ∧ lo ≤ k ∧ k ≤ hi := by
  cases ans with
  | value v =>
    simp only [RngAnswer.draw] at h
    split at h
    · cases h
      exact ⟨rfl, ‹_›⟩
    · cases h
  | wait => cases h
  | fail => cases h

/-- An attempt with the drawn nonce k (43_sm2.md R274, R281). -/
theorem signLoop_got (s : State) {ans : RngAnswer} {k : Nat} (rest : List RngAnswer)
    (hk : ans.draw 1 (sm2n - 1) = .got k) :
    signLoop s (ans :: rest) =
      match signCore (s.opnd.e.toNat % sm2n) s.opnd.d.toNat k with
      | some (r, t) => ({ s with rng := rest }.writeSig r t).done
      | none =>
        if s.attempt + 1 < s.retry.toNat then signLoop { s with attempt := s.attempt + 1 } rest
        else { s with rng := rest }.raise .signingFailed := by
  rw [signLoop, hk]
  dsimp only
  rw [show (s.drewNonce rest k).attemptSign = signCore (s.opnd.e.toNat % sm2n) s.opnd.d.toNat k from rfl]
  cases signCore (s.opnd.e.toNat % sm2n) s.opnd.d.toNat k with
  | some rt => rfl
  | none =>
    show (if s.attempt + 1 < s.retry.toNat then _ else _) = (if s.attempt + 1 < s.retry.toNat then _ else _)
    split
    · exact signLoop_fresh { s with attempt := s.attempt + 1 } rest rest none
    · rfl

/-- Nonces that all give RETRY leave SIGN at the next answer, the budget counted down (43_sm2.md R281). -/
theorem signLoop_retries (s : State) (ks : List Nat) (rest : List RngAnswer)
    (hks : ∀ k, k ∈ ks → 1 ≤ k ∧ k ≤ sm2n - 1 ∧ signCore (s.opnd.e.toNat % sm2n) s.opnd.d.toNat k = none)
    (hm : s.attempt + ks.length < s.retry.toNat) :
    signLoop s (ks.map .value ++ rest) = signLoop { s with attempt := s.attempt + ks.length } rest := by
  induction ks generalizing s with
  | nil => rfl
  | cons k ks ih =>
    obtain ⟨h1, h2, h3⟩ := hks k (by simp)
    simp only [List.length_cons] at hm
    simp only [List.map_cons, List.cons_append]
    rw [signLoop_got s _ (draw_value h1 h2), h3]
    simp only
    rw [if_pos (by omega), ih { s with attempt := s.attempt + 1 } (fun k hk => hks k (by simp [hk])) (by simp only; omega)]
    simp only [List.length_cons]
    congr 2
    omega

/-- The signature of an attempt is in range. -/
theorem signCore_lt {e d k r s : Nat} (h : signCore e d k = some (r, s)) : r < sm2n ∧ s < sm2n ∧ 0 < s := by
  have hn := prime_sm2n.pos
  simp only [signCore] at h
  split at h
  · cases h
  · split at h
    · cases h
    · rename_i hs
      simp only [Option.some.injEq, Prod.mk.injEq] at h
      obtain ⟨rfl, rfl⟩ := h
      exact ⟨Nat.mod_lt _ hn, zmod_lt _ hn, Nat.pos_of_ne_zero hs⟩

/-- Writing a signature changes SR and SS alone. -/
theorem writeSig_ok (s : State) (rest : List RngAnswer) (r s' : Nat) (hr : r < sm2n) (hs : s' < sm2n) :
    Completed ({ s with rng := rest }.writeSig r s').done .none false ∧ OnlyOperands s ({ s with rng := rest }.writeSig r s').done ∧
    ({ s with rng := rest }.writeSig r s').done.pflags = s.pflags ∧
    OpndsKeptBut s ({ s with rng := rest }.writeSig r s').done [.sr, .ss] ∧
    ({ s with rng := rest }.writeSig r s').done.opnd.sr.toNat = r ∧
    ({ s with rng := rest }.writeSig r s').done.opnd.ss.toNat = s' ∧
    ({ s with rng := rest }.writeSig r s').done.rng = rest := by
  have hl := sm2n_lt
  refine ⟨completed_complete _ _ _, by constructor <;> first | rfl | (constructor <;> rfl), rfl, ?_, ?_, ?_, rfl⟩
  · intro r hr'
    cases r <;> first | rfl | (simp at hr')
  · show (BitVec.ofNat 256 r).toNat = r
    rw [BitVec.toNat_ofNat, Nat.mod_eq_of_lt (by omega)]
  · show (BitVec.ofNat 256 s').toNat = s'
    rw [BitVec.toNat_ofNat, Nat.mod_eq_of_lt (by omega)]

end Sys2Proof.Machine
end

