-- ==== Sys2Proof/Laws/Sm3Context.lean ====
section
/-! SUPPORT. The SM3 context holds the bytes absorbed (44_sm3.md R319), and finishing it gives SM3 of them (R318). -/
namespace Sys2Proof.Machine

/-- The pieces of two strings joined, the first of whole pieces. -/
theorem pieces_append (n a b : Nat) (x y : List Byte) (h : x.length = n * a) :
    pieces n (a + b) (x ++ y) = pieces n a x ++ pieces n b y := by
  induction a generalizing x with
  | zero =>
    have : x = [] := by simpa using h
    simp [this, pieces]
  | succ a ih =>
    have hn : n ≤ x.length := by rw [h, Nat.mul_succ]; omega
    rw [show a + 1 + b = (a + b) + 1 by omega, pieces, pieces, List.cons_append,
      List.take_append_of_le_length hn, List.drop_append_of_le_length hn, ih]
    rw [List.length_drop, h, Nat.mul_succ]
    omega

/-- Compressing whole blocks and then more bytes is compressing them joined. -/
theorem sm3Blocks_append (v : Sm3Words) (x y : List Byte) (h : x.length % 64 = 0) :
    sm3Blocks v (x ++ y) = sm3Blocks (sm3Blocks v x) y := by
  have hx : x.length = 64 * (x.length / 64) := by omega
  rw [sm3Blocks, sm3Blocks, sm3Blocks, ← List.foldl_append, ← pieces_append 64 _ _ x y hx]
  congr 2
  rw [List.length_append]
  omega

/-- One block. -/
theorem sm3Blocks_single (v : Sm3Words) (b : List Byte) (h : b.length = 64) : sm3Blocks v b = sm3CF v b := by
  simp [sm3Blocks, h, pieces, List.take_of_length_le]

@[simp] theorem sm3Blocks_nil (v : Sm3Words) : sm3Blocks v [] = v := rfl

/-- What V, PBUF and PLEN hold of the bytes m (44_sm3.md R319, 2 and 3). -/
structure Sm3Ctx.Pending (c : Sm3Ctx) (m : List Byte) : Prop where
  plen : c.plen.val = m.length % 64
  v : c.v = sm3Blocks sm3IV (m.take (64 * (m.length / 64)))
  pbuf : c.pbuf.toList.take c.plen.val = m.drop (64 * (m.length / 64))

theorem Sm3Ctx.Pending.absorb {c : Sm3Ctx} {m : List Byte} (h : c.Pending m) (b : Byte) :
    (sm3Absorb c b).Pending (m ++ [b]) := by
  have hlt := c.plen.isLt
  have hp := h.plen
  have hset : (c.pbuf.set c.plen.val b c.plen.isLt).toList.take (c.plen.val + 1) =
      m.drop (64 * (m.length / 64)) ++ [b] := by
    rw [Vector.toList_set, List.take_succ_eq_append_getElem (by simp), List.take_set_of_le (Nat.le_refl _), h.pbuf]
    simp
  unfold sm3Absorb
  split
  · rename_i hf
    have hq : (m ++ [b]).length / 64 = m.length / 64 := by simp; omega
    refine ⟨?_, ?_, ?_⟩
    · simp; omega
    · rw [hq, List.take_append_of_le_length (by omega)]
      exact h.v
    · rw [hq, List.drop_append_of_le_length (by omega)]
      exact hset
  · rename_i hf
    have he : c.plen.val = 63 := by omega
    have hq : 64 * ((m ++ [b]).length / 64) = (m ++ [b]).length := by simp; omega
    refine ⟨?_, ?_, ?_⟩
    · simp; omega
    · rw [hq, List.take_length]
      have hm : m ++ [b] = m.take (64 * (m.length / 64)) ++ (m.drop (64 * (m.length / 64)) ++ [b]) := by
        rw [← List.append_assoc, List.take_append_drop]
      rw [hm, sm3Blocks_append _ _ _ (by rw [List.length_take]; omega), ← h.v, sm3Blocks_single]
      · rw [← hset, List.take_of_length_le (by simp; omega)]
      · simp; omega
    · rw [hq, List.drop_length]
      rfl

theorem Sm3Ctx.Pending.fold {c : Sm3Ctx} {m : List Byte} (h : c.Pending m) (m' : List Byte) :
    (m'.foldl sm3Absorb c).Pending (m ++ m') := by
  induction m' generalizing c m with
  | nil => simpa using h
  | cons b m' ih => simpa using ih (h.absorb b)

/-- A context that holds m holds m and the absorbed bytes after an update. -/
theorem Sm3Ctx.Holds.update {c : Sm3Ctx} {m : List Byte} (h : c.Holds m) (m' : List Byte)
    (hl : m.length + m'.length < 2 ^ 64) : (sm3Update c m').Holds (m ++ m') := by
  have hp := Sm3Ctx.Pending.fold (c := c) (m := m) ⟨h.plen, h.v, h.pbuf⟩ m'
  refine ⟨by rw [sm3Update_st, h.active], ?_, hp.plen, hp.v, hp.pbuf⟩
  rw [sm3Update_cnt, BitVec.toNat_add, BitVec.toNat_ofNat, h.cnt, List.length_append]
  omega

/-- The final chaining value of a context that holds m encodes SM3(m). -/
theorem Sm3Ctx.Holds.final {c : Sm3Ctx} {m : List Byte} (h : c.Holds m) : (sm3Final c).bytes = sm3Hash m := by
  rw [sm3Final, sm3Hash, h.v, h.pbuf, h.cnt, ← sm3Blocks_append _ _ _ (by rw [List.length_take]; omega),
    ← List.append_assoc, List.take_append_drop]

theorem Sm3Ctx.holds_init : ({ st := .active, v := sm3IV, cnt := 0, pbuf := pbufZero, plen := 0 } : Sm3Ctx).Holds [] :=
  ⟨rfl, rfl, rfl, rfl, rfl⟩

end Sys2Proof.Machine
end

