-- ==== Sys2Proof/Tests/Slice0.lean ====
section
/-! SUPPORT. Tests: the ill-formed words, the decoded words, one step of each command on the vectors of
95_test_vectors.md, and for each statement with hypotheses a witness that meets them. -/
namespace Sys2Proof.Tests

open Sys2Proof Sys2Proof.Machine

set_option Elab.async false

/-! ### The checks of the command word, each on fields it refuses (30_encoding.md R143-R150) -/

theorem test_rsv_refused : CmdFields.wellFormed { rsv := 1, pad := false, msel := false, op := 0x10 } = false := by
  decide

theorem test_op_refused : CmdFields.wellFormed { rsv := 0, pad := false, msel := true, op := 0x15 } = false := by
  decide

theorem test_msel_refused : CmdFields.wellFormed { rsv := 0, pad := false, msel := true, op := 0x51 } = false := by
  decide

theorem test_pad_refused : CmdFields.wellFormed { rsv := 0, pad := true, msel := false, op := 0x10 } = false := by
  decide

theorem test_fields_accepted : CmdFields.wellFormed { rsv := 0, pad := true, msel := false, op := 0x54 } = true := by
  decide

/-! ### Words written out bit by bit from 30_encoding.md R141, R147: RSV, PAD, MSEL, OP -/

/-- A word from its four fields as bits. -/
def word (rsv : BitVec 22) (pad msel : BitVec 1) (op : Byte) : Word := rsv ++ pad ++ msel ++ op

theorem test_decode_control :
    decode (word 0 0b0 0b0 0b00000000) = .ok .nop ∧ decode (word 0 0b0 0b0 0b00000001) = .ok .zeroize := by decide

theorem test_decode_field :
    decode (word 0 0b0 0b0 0b00010000) = .ok (.fadd .p) ∧ decode (word 0 0b0 0b1 0b00010001) = .ok (.fsub .n) ∧
    decode (word 0 0b0 0b1 0b00010010) = .ok (.fmul .n) ∧ decode (word 0 0b0 0b0 0b00010011) = .ok (.finv .p) ∧
    decode (word 0 0b0 0b1 0b00010100) = .ok (.fred .n) := by decide

theorem test_decode_curve :
    decode (word 0 0b0 0b0 0b00100000) = .ok .padd ∧ decode (word 0 0b0 0b0 0b00100001) = .ok .pdbl ∧
    decode (word 0 0b0 0b0 0b00100010) = .ok .pmul ∧ decode (word 0 0b0 0b0 0b00100011) = .ok .pmulg ∧
    decode (word 0 0b0 0b0 0b00100100) = .ok .pchk := by decide

theorem test_decode_sm2 :
    decode (word 0 0b0 0b0 0b00110000) = .ok .keygen ∧ decode (word 0 0b0 0b0 0b00110001) = .ok .sign ∧
    decode (word 0 0b0 0b0 0b00110010) = .ok .signk ∧ decode (word 0 0b0 0b0 0b00110011) = .ok .verify := by decide

theorem test_decode_sm3 :
    decode (word 0 0b0 0b0 0b01000000) = .ok .sm3init ∧ decode (word 0 0b0 0b0 0b01000001) = .ok .sm3upd ∧
    decode (word 0 0b0 0b0 0b01000010) = .ok .sm3fin := by decide

theorem test_decode_sm4 :
    decode (word 0 0b0 0b0 0b01010000) = .ok .sm4key ∧ decode (word 0 0b0 0b0 0b01010001) = .ok .ecbenc ∧
    decode (word 0 0b0 0b0 0b01010010) = .ok .ecbdec ∧ decode (word 0 0b0 0b0 0b01010011) = .ok (.cbcenc false) ∧
    decode (word 0 0b1 0b0 0b01010100) = .ok (.cbcdec true) := by decide

/-- 95_test_vectors.md FV30-FV32 and program P3's 0x151. -/
theorem test_decode_illegal :
    decode 0x00000210 = .error .padNotAllowed ∧ decode 0x00000115 = .error .unassignedOp ∧
    decode 0x00000410 = .error .reservedBits ∧ decode 0x00000151 = .error .mselNotAllowed := by decide

theorem test_table_word : decodeTableWord 32 0x253 = some (.cbcenc true) ∧ decodeTableWord 32 0x400 = none := by decide

/-! ### One step of each command; the values are those of 95_test_vectors.md -/

/-- A property of the next state. -/
def next (o : Host.Outcome State Fault Refusal) (f : State → Bool) : Bool :=
  match o with
  | .next t => f t
  | .fault _ => false
  | .refused _ => false

/-- A property of the state after the command word w, started on s, has taken its step. -/
def ran (s : State) (w : Nat) (f : State → Bool) : Bool := next (step (s.withFetchWord 32 w)) f

/-- STATUS as the host reads it. -/
def statusOf (s : State) : Word := s.regRead .status

/-- The reset state with operands and point flags. -/
def operands (o : Opnds) (f : PFlags := PFlags.reset) : State := { State.reset with opnd := o, pflags := f }

def noFlags : PFlags := ⟨false, false, false⟩

def p256 : U256 := 0xFFFFFFFEFFFFFFFFFFFFFFFFFFFFFFFFFFFFFFFF00000000FFFFFFFFFFFFFFFF
def n256 : U256 := 0xFFFFFFFEFFFFFFFFFFFFFFFFFFFFFFFF7203DF6B21C6052B53BBF40939D54123
def gx : U256 := 0x32C4AE2C1F1981195F9904466A39C9948FE30BBFF2660BE1715A4589334C74C7
def gy : U256 := 0xBC3736A2F4F6779C59BDCEE36B692153D0A9877CC62A474002DF32E52139F0A0
def g2x : U256 := 0x56CEFD60D7C87C000D58EF57FA73BA4D9C0DFA08C08A7331495C2E1DA3F2BD52
def g2y : U256 := 0x31B7E7E6CC8189F668535CE0F8EAF1BD6DE84C182F6C8E716F780D3A970A23C3
def g3x : U256 := 0xA97F7CD4B3C993B4BE2DAA8CDB41E24CA13F6BD945302244E26918F1D0509EBF
def g3y : U256 := 0x530B5DD88C688EF5CCC5CEC08A72150F7C400EE5CD045292AAACDD037458F6E6

/-- P3: NOP from reset leaves STATUS = 2. -/
theorem test_nop : ran State.reset 0x00 (fun t => statusOf t == 2 && t.irqDone) = true := by decide +kernel

/-- P3: ZEROIZE clears D, leaves RETRY = 0x10 and every DBUF byte 0. -/
theorem test_zeroize : ran (operands { Opnds.reset with d := 5 } ⟨true, true, true⟩) 0x01 (fun t =>
    statusOf t == 2 && t.opnd.d == 0 && t.pflags == noFlags && t.retry == 0x10 &&
      Memory.read t.dbuf 0xFFC == some 0) = true := by decide +kernel

/-- FV2. -/
theorem test_fadd : ran (operands { Opnds.reset with a := p256 - 1, b := p256 - 1 }) 0x10 (fun t =>
    t.opnd.c == p256 - 2 && statusOf t == 2) = true := by decide +kernel

/-- FV27. -/
theorem test_fadd_range : ran (operands { Opnds.reset with a := p256, c := 7 }) 0x110 (fun t =>
    t.opnd.c == 7 && statusOf t == 0x206) = true := by decide +kernel

/-- FV4. -/
theorem test_fsub : ran (operands { Opnds.reset with b := 1 }) 0x11 (fun t => t.opnd.c == p256 - 1) = true := by
  decide +kernel

/-- FV21. -/
theorem test_fsub_n : ran (operands { Opnds.reset with a := 1, b := 2 }) 0x111 (fun t => t.opnd.c == n256 - 1) = true := by
  decide +kernel

/-- FV6. -/
theorem test_fmul : ran (operands { Opnds.reset with a := gx, b := gy }) 0x12 (fun t =>
    t.opnd.c == 0xEDD7E745BDC4630CCFA1DA1057033A525346DBF202F082F3C431349991ACE76A) = true := by decide +kernel

/-- FV22. -/
theorem test_fmul_n : ran (operands { Opnds.reset with a := gx, b := gy }) 0x112 (fun t =>
    t.opnd.c == 0xCF7296D5CBF0B64BB5E9A11B294962E9C779B41C038E9C8D815234A0DF9D6623) = true := by decide +kernel

/-- FV11. -/
theorem test_finv : ran (operands { Opnds.reset with a := gx }) 0x13 (fun t =>
    t.opnd.c == 0x053B878FB82E213C17E554B9A574B7BD31775222704B7FD9C7D6F8441026CD80) = true := by decide +kernel

/-- FV13. -/
theorem test_finv_zero : ran State.reset 0x13 (fun t => statusOf t == 0x206) = true := by decide +kernel

/-- FV15. -/
theorem test_fred : ran (operands { Opnds.reset with a := BitVec.allOnes 256 }) 0x14 (fun t =>
    t.opnd.c == 0x0000000100000000000000000000000000000000FFFFFFFF0000000000000000) = true := by decide +kernel

/-- FV26. -/
theorem test_fred_n : ran (operands { Opnds.reset with a := p256 }) 0x114 (fun t =>
    t.opnd.c == 0x000000000000000000000000000000008DFC2093DE39FAD5AC440BF6C62ABEDC) = true := by decide +kernel

/-- EC2. -/
theorem test_padd : ran (operands { Opnds.reset with px := g2x, py := g2y, qx := gx, qy := gy }) 0x20 (fun t =>
    t.opnd.rx == g3x && t.opnd.ry == g3y && t.pflags == noFlags) = true := by decide +kernel

/-- EC3. -/
theorem test_padd_opposite : ran (operands { Opnds.reset with
      px := gx, py := gy, qx := gx, rx := 9
      qy := 0x43C8C95C0B098863A642311C9496DEAC2F56788239D5B8C0FD20CD1ADEC60F5F }) 0x20 (fun t =>
    t.opnd.rx == 0 && t.opnd.ry == 0 && t.pflags == ⟨false, false, true⟩) = true := by decide +kernel

/-- EC6. -/
theorem test_pdbl : ran (operands { Opnds.reset with px := gx, py := gy }) 0x21 (fun t =>
    t.opnd.rx == g2x && t.opnd.ry == g2y) = true := by decide +kernel

/-- EC7. -/
theorem test_pdbl_inf : ran (operands Opnds.reset ⟨true, false, false⟩) 0x21 (fun t =>
    t.pflags == ⟨true, false, true⟩ && statusOf t == 2) = true := by decide +kernel

/-- EC8. -/
theorem test_pmul : ran (operands { Opnds.reset with px := gx, py := gy, k := 3 }) 0x22 (fun t =>
    t.opnd.rx == g3x && t.opnd.ry == g3y) = true := by decide +kernel

/-- EC14. -/
theorem test_pmul_invalid : ran (operands { Opnds.reset with k := 2 }) 0x22 (fun t => statusOf t == 0x406) = true := by
  decide +kernel

/-- Pt3, as 3·G. -/
theorem test_pmulg : ran (operands { Opnds.reset with k := 3 }) 0x23 (fun t =>
    t.opnd.rx == g3x && t.opnd.ry == g3y && t.pflags == noFlags) = true := by decide +kernel

/-- EC17. -/
theorem test_pmulg_zero : ran State.reset 0x23 (fun t => t.pflags == ⟨false, false, true⟩) = true := by decide +kernel

/-- EC18. -/
theorem test_pchk : ran (operands { Opnds.reset with px := gx, py := gy }) 0x24 (fun t => statusOf t == 0xA) = true := by
  decide +kernel

/-- EC20. -/
theorem test_pchk_range : ran (operands { Opnds.reset with px := gx, py := p256 }) 0x24 (fun t =>
    statusOf t == 2) = true := by decide +kernel

/-- KEYGEN (43_sm2.md R276) with the answer 2, whose point is Pt2. -/
theorem test_keygen : ran { State.reset with rng := [.value 2], pflags := ⟨false, true, false⟩ } 0x30 (fun t =>
    t.opnd.d == 2 && t.opnd.qx == g2x && t.opnd.qy == g2y && t.pflags == noFlags && t.rng == []) = true := by
  decide +kernel

/-- The sequence of 95_test_vectors.md §6.1: KEYGEN waits with STATUS = 0x11. -/
theorem test_keygen_waits : ran { State.reset with rng := [.wait] } 0x30 (fun t => statusOf t == 0x11) = true := by
  decide +kernel

/-- SG15. -/
theorem test_sign_source : ran { State.reset with opnd := { Opnds.reset with d := 1, sr := 4 }, rng := [.fail] } 0x31
    (fun t => statusOf t == 0x306 && t.opnd.sr == 4) = true := by decide +kernel

/-- SG14. -/
theorem test_sign_budget : ran { State.reset with opnd := { Opnds.reset with d := 1 }, retry := 0, rng := [.value 1] }
    0x31 (fun t => statusOf t == 0x206 && t.rng == [.value 1]) = true := by decide +kernel

def kaD : U256 := 0x3945208F7B2144B13F36E38AC6D39F95889393692860B51A42FB81EF4DF7C5B8
def kaE : U256 := 0xF0B43E94BA45ACCAACE692ED534382EB17E6AB5A19CE7B31F4486FDFC0D28640
def kaK : U256 := 0x59276E27D506861A16680F3AD9C02DCCEF3CC1FA3CDBE4CE6D54B80DEAC1BC21
def kaR : U256 := 0xF5A03B0648D2C4630EEAC513E1BB81A15944DA3827D5B74143AC7EACEEE720B3
def kaS : U256 := 0xB1B6AA29DF212FD8763182BC0D421CA1BB9038FD1F7F42D4840B69C485BBC1AA
def kaX : U256 := 0x09F9DF311E5421A150DD7D161E4BC5C672179FAD1833FC076BB08FF356F35020
def kaY : U256 := 0xCCEA490CE26775A52DC6EA718CC1AA600AED05FBF35E084A6632F6072DA9AD13

/-- SG3: the published signature KA1. -/
theorem test_signk : ran (operands { Opnds.reset with e := kaE, d := kaD, k := kaK }) 0x32 (fun t =>
    t.opnd.sr == kaR && t.opnd.ss == kaS) = true := by decide +kernel

/-- SG8. -/
theorem test_signk_range : ran (operands { Opnds.reset with d := n256 - 1, k := 1 }) 0x32 (fun t =>
    statusOf t == 0x206) = true := by decide +kernel

/-- VR1: the published signature verifies. -/
theorem test_verify : ran (operands { Opnds.reset with e := kaE, sr := kaR, ss := kaS, qx := kaX, qy := kaY }) 0x33
    (fun t => statusOf t == 0xA) = true := by decide +kernel

/-- VR10. -/
theorem test_verify_zero : ran (operands { Opnds.reset with e := kaE, sr := kaR, ss := n256 - kaR, qx := kaX, qy := kaY })
    0x33 (fun t => statusOf t == 2) = true := by decide +kernel

/-- P1: SM3INIT leaves STATUS = 0x22 and V_0 = 7380166F. -/
theorem test_sm3init : ran State.reset 0x40 (fun t => statusOf t == 0x22 && t.regRead (.sm3v 0) == 0x7380166F) = true := by
  decide +kernel

/-- The reset state with bytes in DBUF from `off`. -/
def bytesAt (off n x : Nat) : State := { State.reset with dbuf := Memory.writeBytes [] off (i2os x n) }

/-- SQ1. -/
theorem test_sm3upd : ran { bytesAt 0 64
      0x61626364616263646162636461626364616263646162636461626364616263646162636461626364616263646162636461626364616263646162636461626364
      with sm3 := Sm3Ctx.init, len := 64 } 0x41 (fun t =>
    t.sm3.v == ⟨0x5950DE81, 0x468664EB, 0x42FD4C86, 0x1E7CA00A, 0xC0A5910B, 0xAE9A55EA, 0x1ADB8D17, 0x763CA222⟩ &&
      t.sm3.cnt == 0x40 && t.regRead .sm3pend == 0) = true := by decide +kernel

/-- SQ8. -/
theorem test_sm3upd_region : ran { State.reset with sm3 := Sm3Ctx.init, src := 0xFFF, len := 2 } 0x41 (fun t =>
    statusOf t == 0x226 && t.sm3.cnt == 0) = true := by decide +kernel

/-- The SM3 context that holds "abc". -/
def abcContext : Sm3Ctx :=
  { Sm3Ctx.init with cnt := 3, plen := 3, pbuf := ((pbufZero.set 0 0x61).set 1 0x62).set 2 0x63 }

/-- KA3, on the context that holds "abc". -/
theorem test_sm3fin : ran { State.reset with sm3 := abcContext } 0x42 (fun t =>
    t.opnd.hd == 0x66C7F0F462EEEDD9D1F2D46BDC10E4E24167C4875CF2F7A2297DA02B8F4BA8E0 && statusOf t == 0x42) = true := by
  decide +kernel

/-- P4: SM3FIN before SM3INIT is a STATE error. -/
theorem test_sm3fin_state : ran State.reset 0x42 (fun t => statusOf t == 0x706) = true := by decide +kernel

def stdKey : Block := ⟨0x01234567, 0x89ABCDEF, 0xFEDCBA98, 0x76543210⟩
def stdIV : Block := ⟨0x00010203, 0x04050607, 0x08090A0B, 0x0C0D0E0F⟩

/-- 95_test_vectors.md §5.1. -/
theorem test_sm4key : ran { State.reset with sm4 := { Sm4Ctx.reset with key := stdKey } } 0x50 (fun t =>
    t.regRead (.sm4rk 0) == 0xF12186F9 && t.regRead (.sm4rk 8) == 0xA520307C && t.regRead (.sm4rk 31) == 0x9124A012) =
    true := by decide +kernel

/-- A state of 95_test_vectors.md §5.4: the standard schedule, CV = IV, and `n` input bytes at 0. -/
def mode (n x : Nat) : State :=
  { bytesAt 0 n x with
    sm4 := { key := stdKey, cv := stdIV, rk := sm4KeySchedule stdKey }, len := BitVec.ofNat 32 n }

/-- The output of a mode command: the `n` bytes at `off`. -/
def holds (t : State) (off n x : Nat) : Bool :=
  (List.range n).all (fun i => Memory.read t.dbuf (off + i) == (i2os x n)[i]?)

/-- MD1. -/
theorem test_ecbenc : ran { mode 32 0x0123456789ABCDEFFEDCBA98765432100123456789ABCDEFFEDCBA9876543210 with dst := 0x100 }
    0x51 (fun t => holds t 0x100 32 0x681EDF34D206965E86B3E94F536E4246681EDF34D206965E86B3E94F536E4246 &&
      t.outlen == 32) = true := by decide +kernel

/-- MD17. -/
theorem test_ecbenc_region : ran { State.reset with src := 0xFF8, len := 16, outlen := 3 } 0x51 (fun t =>
    statusOf t == 0x206 && t.outlen == 0) = true := by decide +kernel

/-- BK2, in place. -/
theorem test_ecbdec : ran (mode 16 0x681EDF34D206965E86B3E94F536E4246) 0x52 (fun t =>
    holds t 0 16 0x0123456789ABCDEFFEDCBA9876543210 && t.outlen == 16) = true := by decide +kernel

/-- MD4. -/
theorem test_cbcenc : ran { mode 32 0x0123456789ABCDEFFEDCBA98765432100123456789ABCDEFFEDCBA9876543210 with dst := 0x20 }
    0x53 (fun t => holds t 0x20 32 0xA9A268883A336315BAC0C9C9FF350AB1B236A4A85616D4AABF0A83555C7D4115 &&
      t.sm4.cv == ⟨0xB236A4A8, 0x5616D4AA, 0xBF0A8355, 0x5C7D4115⟩) = true := by decide +kernel

/-- MD6. -/
theorem test_cbcenc_pad : ran { mode 20 0x000102030405060708090A0B0C0D0E0F10111213 with dst := 0x40 } 0x253 (fun t =>
    holds t 0x40 32 0x2677F46B09C122CC975533105BD4A22A8E09F1FD7EF24872AE0B80E31841CC24 && t.outlen == 32 &&
      t.sm4.cv == ⟨0x8E09F1FD, 0x7EF24872, 0xAE0B80E3, 0x1841CC24⟩) = true := by decide +kernel

/-- MD7, in place. -/
theorem test_cbcdec_pad : ran (mode 32 0x2677F46B09C122CC975533105BD4A22A8E09F1FD7EF24872AE0B80E31841CC24) 0x254 (fun t =>
    holds t 0 32 0x000102030405060708090A0B0C0D0E0F10111213000000000000000000000000 && t.outlen == 20 &&
      t.sm4.cv == ⟨0x8E09F1FD, 0x7EF24872, 0xAE0B80E3, 0x1841CC24⟩) = true := by decide +kernel

/-- MD10 for CBCDEC.PAD, and MD5 for CBCDEC. -/
theorem test_cbcdec :
    ran (mode 32 0x2677F46B09C122CC975533105BD4A22B8E09F1FD7EF24872AE0B80E31841CC24) 0x254 (fun t =>
      holds t 0 32 0 && t.outlen == 0 && t.sm4.cv == stdIV && statusOf t == 0x406) = true ∧
    ran (mode 32 0xA9A268883A336315BAC0C9C9FF350AB1B236A4A85616D4AABF0A83555C7D4115) 0x54 (fun t =>
      holds t 0 32 0x0123456789ABCDEFFEDCBA98765432100123456789ABCDEFFEDCBA9876543210 && t.outlen == 32) = true := by
  decide +kernel

/-! ### The host's accesses -/

/-- P3: a write of CTRL = 5 starts the command in CMD with IE at 1. -/
theorem test_start : next (step { State.reset with cmd := 0x15, turns := [.host (.wr 0x004 5)] }) (fun t =>
    t.cmdl == 0x15 && t.status.busy && t.ie && t.regRead .ctrl == 4) = true := by decide +kernel

/-- P3: the unassigned opcode 0x15 gives STATUS = 0x106. -/
theorem test_illegal : ran State.reset 0x15 (fun t => statusOf t == 0x106) = true := by decide +kernel

/-- P1: a DBUF word written is four bytes, the first the most significant. -/
theorem test_dbuf : next (step { State.reset with turns := [.host (.wr 0x1000 0x61626300)] }) (fun t =>
    t.dbuf == [(0, 0x61), (1, 0x62), (2, 0x63), (3, 0x00)]) = true := by decide +kernel

/-- An 8-bit access has the error response and changes nothing (20_memory.md R105). -/
theorem test_bus_error : next (step { State.reset with turns := [.host ⟨0x008, 8, true, .write 0x15⟩] }) (fun t =>
    t == { State.reset with resp := some ⟨true, 0⟩ }) = true := by decide +kernel

/-- §6.1: a soft reset of a waiting KEYGEN reports nothing. -/
theorem test_soft_reset : next (step { (State.reset.placed 0x30).waitRng with ie := true, turns := [.host (.wr 0x004 2)] })
    (fun t => statusOf t == 0 && t.regRead .ctrl == 0 && !t.irqDone && !t.irq) = true := by decide +kernel

/-! ### Witnesses: states and operands that meet the hypotheses of each statement -/

/-- A state whose command word w runs. -/
def running (w : Word) : State := State.reset.placed w

/-- A running or idle state with the listed turns. -/
def withTurns (s : State) (ts : List Turn) : State := { s with turns := ts }

theorem witness_DecodeAndEncodeAgree : decode 0x00000253 = .ok (.cbcenc true) ∧ decode 0x00000114 = .ok (.fred .n) := by
  decide

theorem witness_OnlyLegalWordsDecode :
    LegalWord 0x00000254 ∧ LegalWord 0x00000114 ∧ LegalWord 0x00000000 ∧ ¬ LegalWord 0x00000055 ∧
      ¬ LegalWord 0x00000300 ∧ BitVec.extractLsb' 10 22 (0x00000400 : Word) ≠ 0 ∧
      BitVec.extractLsb' 10 22 (0x80000000 : Word) ≠ 0 := by
  refine ⟨?_, ?_, ?_, ?_, ?_, ?_, ?_⟩ <;> first | decide | (unfold LegalWord; decide)

theorem witness_StepRunsTheDecodedCommand :
    (running 0x253).phase ≠ .idle ∧ decode (running 0x253).cmdl = .ok (.cbcenc true) ∧ (running 0x253).turns = [] ∧
      (withTurns (running 0x253) [.engine]).turns = .engine :: [] := by decide

theorem witness_IllegalWordCompletesWithIllegalCmd :
    (running 0x15).phase ≠ .idle ∧ decode (running 0x15).cmdl = .error .unassignedOp ∧ (running 0x15).turns = [] ∧
      (withTurns (running 0x15) [.engine]).turns = .engine :: [] ∧ (withTurns (running 0x15) [.engine]).phase ≠ .idle := by
  decide

theorem witness_IdleEngineKeepsEverything :
    State.reset.phase = .idle ∧ State.reset.turns = [] ∧ (withTurns State.reset [.engine]).turns = .engine :: [] := by
  decide

theorem witness_StartLatchesTheCommand :
    HostWrites (withTurns State.reset [.host (.wr 0x004 5)]) 0x004 5 [] ∧ (5 : Word).getLsbD 0 = true ∧
      (5 : Word).getLsbD 1 = false ∧ (withTurns State.reset [.host (.wr 0x004 5)]).status.busy = false := by
  unfold HostWrites; decide

theorem witness_SimultaneousEvents : (2 : Word).getLsbD 1 = true ∧ (running 0x00).phase ≠ .idle ∧
    next (step (withTurns (running 0x00) [.both (.wr 0x010 1)])) (fun t => t.phase == .idle && t.irqDone) = true := by
  decide

theorem witness_HardResetState : (0x000 < 0x1000 ∧ 0x000 % 4 = 0) ∧ (0xFFC < 0x1000 ∧ 0xFFC % 4 = 0) ∧
    (withTurns (running 0x50) [.hardReset]).turns = .hardReset :: [] := by decide

/-- An SM4 mode command at work, its checks passed. -/
def modeRunning : State := withTurns (({ State.reset with len := 16, dst := 0xFF0 }).placed 0x53) [.host (.wr 0x004 3)]

theorem witness_SoftResetClears : HostWrites modeRunning 0x004 3 [] ∧ (3 : Word).getLsbD 1 = true ∧
    modeRunning.phase ≠ .idle ∧ decode modeRunning.cmdl = .ok (.cbcenc false) ∧
    modeOutLen (.cbcenc false) modeRunning.len.toNat = some 16 ∧ modeChecks (.cbcenc false) 16 modeRunning = .none := by
  unfold HostWrites; decide

theorem witness_SoftResetClears_idle : HostWrites (withTurns State.reset [.host (.wr 0x004 2)]) 0x004 2 [] ∧
    (2 : Word).getLsbD 1 = true ∧ (withTurns State.reset [.host (.wr 0x004 2)]).phase = .idle := by
  unfold HostWrites; decide

theorem witness_BusyWritesAreLost :
    (∀ off ∈ [0x000, 0x004, 0x010, 0x1FFC], HostWrites (withTurns (running 0x30) [.host (.wr off 7)]) off 7 [] ∧
      (withTurns (running 0x30) [.host (.wr off 7)]).status.busy = true ∧ off < 0x2000 ∧ off % 4 = 0) ∧
    (7 : Word).getLsbD 1 = true ∧ (5 : Word).getLsbD 1 = false ∧
    HostWrites (withTurns (running 0x30) [.host (.wr 0x004 5)]) 0x004 5 [] := by
  unfold HostWrites; decide

theorem witness_IdleRegisterWrites :
    (∀ off ∈ [0x000, 0x008, 0x00C, 0x014, 0x018, 0x01C, 0x020, 0x024, 0x028, 0x02C, 0x030, 0x034, 0x040, 0x05C, 0x060,
        0x06C, 0x070, 0x07C, 0x080, 0x0FC],
      HostWrites (withTurns State.reset [.host (.wr off 0xFFFFFFFF)]) off 0xFFFFFFFF [] ∧
        (withTurns State.reset [.host (.wr off 0xFFFFFFFF)]).status.busy = false) ∧
    0x06C = 0x060 + 4 * (3 : Fin 4).val ∧ 0x07C = 0x070 + 4 * (3 : Fin 4).val ∧ 0x0FC = 0x080 + 4 * (31 : Fin 32).val ∧
    0x05C = 0x040 + 4 * (7 : Fin 8).val ∧
    (HostWrites (withTurns State.reset [.host (.wr 0x004 0xFFFFFFFC)]) 0x004 0xFFFFFFFC [] ∧
      (0xFFFFFFFC : Word).getLsbD 0 = false ∧ (0xFFFFFFFC : Word).getLsbD 1 = false) := by
  unfold HostWrites; decide

theorem witness_IdleRegisterReads :
    ∀ off ∈ [0x000, 0x004, 0x008, 0x010, 0x014, 0x018, 0x01C, 0x020, 0x024, 0x028, 0x02C, 0x030, 0x034, 0x040, 0x05C,
        0x060, 0x06C, 0x070, 0x07C, 0x080, 0x0FC],
      HostReads (withTurns State.reset [.host (.rd off)]) off [] ∧
        (withTurns State.reset [.host (.rd off)]).status.busy = false := by
  unfold HostReads; decide

theorem witness_StatusWordFields : HostReads (withTurns (running 0x30) [.host (.rd 0x00C)]) 0x00C [] := by
  unfold HostReads; decide

theorem witness_OperandWordLayout :
    (14 < 15 ∧ 7 < 8 ∧ (withTurns State.reset [.host (.wr 0x2DC 1)]).status.busy = false) ∧
    HostWrites (withTurns State.reset [.host (.wr 0x2DC 1)]) (0x100 + 0x20 * 14 + 4 * 7) 1 [] ∧
    HostReads (withTurns State.reset [.host (.rd 0x100)]) (0x100 + 0x20 * 0 + 4 * 0) [] := by
  unfold HostWrites HostReads; decide

theorem witness_DbufWordsAreBigEndian :
    (1023 < 1024 ∧ (withTurns (bytesAt 0xFFC 4 0x01020304) [.host (.rd 0x1FFC)]).status.busy = false) ∧
    HostWrites (withTurns State.reset [.host (.wr 0x1FFC 1)]) (0x1000 + 4 * 1023) 1 [] ∧
    HostReads (withTurns (bytesAt 0xFFC 4 0x01020304) [.host (.rd 0x1FFC)]) (0x1000 + 4 * 1023) [] ∧
    Memory.read (bytesAt 0xFFC 4 0x01020304).dbuf (4 * 1023) = some 1 ∧
    Memory.read (bytesAt 0xFFC 4 0x01020304).dbuf (4 * 1023 + 1) = some 2 ∧
    Memory.read (bytesAt 0xFFC 4 0x01020304).dbuf (4 * 1023 + 2) = some 3 ∧
    Memory.read (bytesAt 0xFFC 4 0x01020304).dbuf (4 * 1023 + 3) = some 4 ∧
    HostReads (withTurns State.reset [.host (.rd 0x1000)]) (0x1000 + 4 * 0) [] ∧
    (Memory.read State.reset.dbuf (4 * 0) = none ∧ Memory.read State.reset.dbuf (4 * 0 + 3) = none) := by
  unfold HostWrites HostReads; decide

theorem witness_ReservedReadsZeroIgnoresWrites :
    ∀ off ∈ [0x038, 0x03C, 0x2E0, 0xFFC], off % 4 = 0 ∧ (off = 0x038 ∨ off = 0x03C ∨ (0x2E0 ≤ off ∧ off < 0x1000)) ∧
      HostReads (withTurns State.reset [.host (.rd off)]) off [] ∧
      HostWrites (withTurns (running 0x30) [.host (.wr off 1)]) off 1 [] := by
  unfold HostWrites HostReads; decide

theorem witness_ReservedBits : 3 ≤ 3 ∧ 12 ≤ 31 ∧ 1 ≤ 1 ∧ 6 ≤ 6 := by decide

theorem witness_BusyReadsAreFreeOrExact :
    (∀ off ∈ [0x020, 0x028, 0x02C, 0x030, 0x034, 0x040, 0x2DC, 0x1000, 0x1FFC, 0x000, 0x004, 0x008, 0x00C, 0x010, 0x014,
        0x018, 0x01C, 0x024],
      HostReads (withTurns (running 0x30) [.host (.rd off)]) off [] ∧
        (withTurns (running 0x30) [.host (.rd off)]).status.busy = true ∧ off % 4 = 0) ∧
    (0x040 ≤ 0x2DC ∧ 0x2DC < 0x2E0) ∧ (0x1000 ≤ 0x1FFC ∧ 0x1FFC < 0x2000) := by
  unfold HostReads; decide

theorem witness_BusErrorHasNoEffect :
    ∀ a ∈ ([⟨0x009, 32, true, .read⟩, ⟨0x008, 64, true, .read⟩, ⟨0x008, 8, true, .write 1⟩, ⟨0x008, 32, false, .write 1⟩,
        ⟨-4, 32, true, .read⟩, ⟨0x2000, 32, true, .read⟩] : List Access),
      (withTurns State.reset [.host a]).turns = .host a :: [] ∧
        (a.off % 4 ≠ 0 ∨ a.bits ≠ 32 ∨ a.strobes = false ∨ a.off < 0 ∨ 8192 ≤ a.off) := by decide

theorem witness_InterruptFlagAndOutput :
    HostWrites (withTurns (running 0x30) [.host (.wr 0x010 1)]) 0x010 1 [] ∧
      ({ State.reset with irqDone := true, ie := true } : State).irq = true := by
  unfold HostWrites; decide

theorem witness_OnlyTheEngineWritesStatus :
    (withTurns (running 0x30) [.host (.wr 0x004 5)]).turns = .host (.wr 0x004 5) :: [] ∧
    (∀ v, Access.wr 0x004 5 = .wr 0x004 v →
      v.getLsbD 1 = false ∧ (v.getLsbD 0 = false ∨ (withTurns (running 0x30) [.host (.wr 0x004 5)]).status.busy = true)) ∧
    next (step (withTurns (running 0x30) [.host (.wr 0x004 5)])) (fun t => t.ie) = true := by
  refine ⟨rfl, fun v hv => ?_, by decide⟩
  cases hv
  decide

/-- A running state that meets the invariant, and takes a step. -/
theorem witness_StepKeepsTheInvariant : (running 0x30).Inv ∧ step (running 0x30) = .next (running 0x30).waitRng := by
  refine ⟨?_, rfl⟩
  constructor <;> decide

theorem witness_CommandsUseOnlyTheirRow :
    (∀ r, r ∈ opndReads .padd → Opnds.get { Opnds.reset with a := 1 } r = State.reset.opnd.get r) ∧
    (PFlags.mk false false true).pinf = State.reset.pflags.pinf ∧ (PFlags.mk false false true).qinf = State.reset.pflags.qinf ∧
    next (exec (.fadd .p) State.reset) (fun t => t.phase == .idle && !t.status.err) = true ∧
    next (exec .padd { State.reset with opnd := { Opnds.reset with a := 1 }, pflags := ⟨false, false, true⟩ })
      (fun t => t.phase == .idle) = true ∧ .c ∈ opndWrites (.fadd .p) ∧ .rx ∈ opndWrites .padd := by
  refine ⟨?_, by decide, by decide, by decide +kernel, by decide +kernel, by decide, by decide⟩
  intro r hr
  simp only [opndReads, List.mem_cons, List.not_mem_nil, or_false] at hr
  rcases hr with rfl | rfl | rfl | rfl <;> rfl

theorem witness_CommandFrames :
    (∃ t, exec .ecbenc State.reset = .next t) ∧ modeOutLen .ecbenc State.reset.len.toNat = some 0 ∧
    .ecbenc ∉ [Instr.zeroize, .sm3init, .sm3upd, .sm3fin] ∧
    .nop ∉ [Instr.zeroize, .ecbenc, .ecbdec, .cbcenc false, .cbcenc true, .cbcdec false, .cbcdec true] ∧
    .nop ∉ [Instr.zeroize, .sm4key, .cbcenc false, .cbcenc true, .cbcdec false, .cbcdec true] :=
  ⟨⟨_, rfl⟩, by decide⟩

theorem witness_ErrorsWriteNoResult :
    next (exec .sm3upd State.reset) (fun t => t.phase == .idle && t.status.err) = true ∧
    next (exec (.cbcdec true) (mode 16 0)) (fun t => t.phase == .idle && t.status.errcode == .validation) = true ∧
    next (exec .ecbenc { State.reset with len := 1 }) (fun t => t.phase == .idle && t.status.err) = true := by
  decide +kernel

theorem witness_ErrorCodesPerCommand : (running 0x41).phase ≠ .idle ∧ (running 0x41).turns = [] ∧
    (withTurns (running 0x41) [.engine]).turns = .engine :: [] ∧
    next (step (withTurns (running 0x41) [.engine])) (fun t => t.phase == .idle && t.status.errcode == .state) = true ∧
    next (step (running 0x41)) (fun t => t.phase == .idle && t.status.errcode == .state) = true ∧
    decode (running 0x41).cmdl = .ok .sm3upd ∧ (running 0x15).phase ≠ .idle ∧
    decode (running 0x15).cmdl = .error .unassignedOp ∧
    next (step (running 0x15)) (fun t => t.phase == .idle) = true := by decide

theorem witness_VokIsTheVerdict :
    next (exec .pchk (operands { Opnds.reset with px := gx, py := gy })) (fun t => t.phase == .idle && t.status.vok) = true ∧
    next (exec .verify State.reset) (fun t => t.phase == .idle && !t.status.vok) = true ∧
    next (exec .nop State.reset) (fun t => t.phase == .idle) = true := by decide +kernel

theorem witness_Sm3StateTransitions :
    next (exec .sm3init State.reset) (fun t => t.sm3.st == .active) = true ∧ State.reset.sm3.st ≠ .active ∧
    ({ State.reset with sm3 := abcContext } : State).sm3.st = .active ∧
    next (exec .sm3fin { State.reset with sm3 := abcContext }) (fun t => t.sm3.st == .final) = true ∧
    next (exec .sm3upd State.reset) (fun t => t.status.errcode == .state) = true := by decide +kernel

theorem witness_OnlyZeroizeClearsKeys : exec .nop State.reset = .next State.reset.done ∧ Instr.nop ≠ .zeroize ∧
    Instr.nop ≠ .keygen ∧ Instr.nop ≠ .sm4key ∧
    ({ State.reset with sm3 := { abcContext with st := .final } } : State).sm3.st = .final ∧ Instr.nop ≠ .sm3init :=
  ⟨rfl, by decide⟩

theorem witness_FieldAddSubMul :
    (operands { Opnds.reset with a := p256 - 1, b := n256 - 1 }).opnd.a.toNat < modulus .p ∧
    (operands { Opnds.reset with a := n256 - 1, b := n256 - 1 }).opnd.b.toNat < modulus .n ∧
    modulus .p ≤ (operands { Opnds.reset with a := p256 }).opnd.a.toNat ∧
    modulus .n ≤ (operands { Opnds.reset with b := n256 }).opnd.b.toNat := by decide +kernel

theorem witness_FieldInverse :
    (0 < (operands { Opnds.reset with a := p256 - 1 }).opnd.a.toNat ∧
      (operands { Opnds.reset with a := p256 - 1 }).opnd.a.toNat < modulus .p) ∧
    State.reset.opnd.a.toNat = 0 ∧ modulus .n ≤ (operands { Opnds.reset with a := n256 }).opnd.a.toNat := by decide +kernel

theorem witness_PointAddAndDouble :
    pointValid (operands { Opnds.reset with px := gx, py := gy } ⟨false, true, false⟩).ptP = true ∧
    pointValid (operands { Opnds.reset with px := gx, py := gy } ⟨false, true, false⟩).ptQ = true ∧
    pointValid State.reset.ptP = false ∧ pointValid State.reset.ptQ = false := by decide +kernel

theorem witness_PointMultiply :
    pointValid (operands { Opnds.reset with px := gx, py := gy, k := BitVec.allOnes 256 }).ptP = true ∧
    pointValid State.reset.ptP = false := by decide +kernel

theorem witness_PointAdditionIsAGroupLaw : pointValid pointG = true ∧ pointValid .inf = true ∧
    pointValid (.aff g2x.toNat g2y.toNat) = true := by decide +kernel

theorem witness_ScalarMultiplicationIsRepeatedAddition : pointValid pointG = true ∧ 2 ^ 256 - 1 < 2 ^ 256 ∧ 0 < 2 ^ 256 := by
  decide +kernel

theorem witness_KeyGeneration :
    ({ State.reset with rng := [.value 1] } : State).rng = .value 1 :: [] ∧ 1 ≤ 1 ∧ 1 ≤ sm2n - 2 ∧
    ({ State.reset with rng := [.value (sm2n - 2)] } : State).rng = .value (sm2n - 2) :: [] ∧
    ({ State.reset with rng := [.fail] } : State).rng = .fail :: [] ∧
    ({ State.reset with rng := [.wait] } : State).rng = .wait :: [] ∧ State.reset.rng = [] := by decide +kernel

/-- A state SIGN runs on, with E = 0 and D = 1. -/
def signing (d : U256) (rng : List RngAnswer) : State := { operands { Opnds.reset with d := d } with rng := rng }

/-- With E = 0 and D = 1, the nonce 1 gives a signature. -/
theorem witness_SignAttempts :
    (1 ≤ (signing 1 []).opnd.d.toNat ∧ (signing 1 []).opnd.d.toNat ≤ sm2n - 2 ∧ 1 ≤ (signing 1 []).retry.toNat) ∧
    (signing 1 [.value 1]).rng = ([] : List Nat).map .value ++ .value 1 :: [] ∧
    (signing 1 [.value 1]).attempt + ([] : List Nat).length < (signing 1 [.value 1]).retry.toNat ∧
    (signCore ((signing 1 []).opnd.e.toNat % sm2n) (signing 1 []).opnd.d.toNat 1).isSome = true ∧
    (signing 1 [.fail]).rng = ([] : List Nat).map .value ++ .fail :: [] ∧
    (signing 1 [.wait]).rng = ([] : List Nat).map .value ++ .wait :: [] ∧ (signing 1 []).rng = ([] : List Nat).map .value ∧
    (signing 0 []).opnd.d.toNat = 0 ∧ sm2n - 2 < (signing (n256 - 1) []).opnd.d.toNat ∧
    ({ State.reset with retry := 0 } : State).retry.toNat = 0 := by decide +kernel

/-- With E = n - Gx the nonce 1 gives r = 0, a RETRY; a budget of 1 is used up by it, and one of 2 is not. -/
def retrying (retry : Word) (rng : List RngAnswer) : State :=
  { operands { Opnds.reset with d := 1, e := n256 - gx } with retry := retry, rng := rng }

theorem witness_SignAttempts_retries :
    (∀ k, k ∈ [1] → 1 ≤ k ∧ k ≤ sm2n - 1 ∧
      signCore ((retrying 1 []).opnd.e.toNat % sm2n) (retrying 1 []).opnd.d.toNat k = none) ∧
    (retrying 2 []).attempt + [1].length < (retrying 2 []).retry.toNat ∧
    (signCore ((retrying 2 []).opnd.e.toNat % sm2n) (retrying 2 []).opnd.d.toNat 2).isSome = true ∧
    (retrying 2 [.value 1, .value 2]).rng = [1].map .value ++ .value 2 :: [] ∧
    [1] ≠ [] ∧ (retrying 1 []).attempt + [1].length = (retrying 1 []).retry.toNat ∧
    (retrying 1 [.value 1]).rng = [1].map .value ++ [] := by decide +kernel

/-- A wait after a RETRY holds the count of attempts and no nonce (43_sm2.md R281: k is fresh at each attempt). -/
theorem witness_SignAttempts_wait :
    next (exec .sign (retrying 2 [.value 1])) (fun t => t.phase == .waitRng && t.attempt == 1 && t.nonce == none) = true := by
  decide +kernel

theorem witness_SignWithNonce :
    (signCore 0 1 1).isSome = true ∧ (1 ≤ (signing 1 []).opnd.d.toNat ∧ (signing 1 []).opnd.d.toNat ≤ sm2n - 2) ∧
    (1 ≤ (operands { Opnds.reset with d := n256 - 2, k := n256 - 1 }).opnd.k.toNat ∧
      (operands { Opnds.reset with d := n256 - 2, k := n256 - 1 }).opnd.k.toNat ≤ sm2n - 1 ∧
      (operands { Opnds.reset with d := n256 - 2, k := n256 - 1 }).opnd.d.toNat ≤ sm2n - 2) ∧
    signCore ((retrying 1 []).opnd.e.toNat % sm2n) (retrying 1 []).opnd.d.toNat 1 = none ∧
    State.reset.opnd.k.toNat = 0 ∧ sm2n - 1 < (operands { Opnds.reset with k := n256 }).opnd.k.toNat := by
  decide +kernel

theorem witness_SignatureEquations : (0 < sm2n ∧ 1 ≤ 1 ∧ 1 ≤ sm2n - 2 ∧ 1 ≤ sm2n - 1) ∧
    (signCore 0 1 1).isSome = true ∧ n256.toNat - gx.toNat < sm2n ∧ signCore (n256.toNat - gx.toNat) 1 1 = none ∧
    sm2n - 2 ≤ sm2n - 2 ∧ sm2n - 1 ≤ sm2n - 1 := by decide +kernel

/-- SIGNK with D = K = 1 and E = 0 signs, and its signature with Q = G is what VERIFY then reads. -/
theorem witness_SignedDigestsVerify :
    next (exec .signk (operands { Opnds.reset with d := 1, k := 1 })) (fun t => t.phase == .idle && !t.status.err &&
      next (exec .verify (operands { t.opnd with qx := gx, qy := gy })) (fun v => v.phase == .idle)) = true ∧
    (operands { Opnds.reset with qx := gx, qy := gy }).ptQ = ecMul 1 pointG := by decide +kernel

theorem witness_Sm3Update :
    (({ State.reset with sm3 := Sm3Ctx.init, src := 0x1000 } : State).sm3.st = .active ∧
      InDbuf ({ State.reset with src := 0x1000 } : State).src.toNat 0) ∧
    InDbuf 0 4096 ∧ ¬ InDbuf 0xFFF 2 ∧ ¬ InDbuf 0x1001 0 ∧ State.reset.sm3.st ≠ .active ∧
    ([] : List Byte).length + 4096 < 2 ^ 64 := by
  unfold InDbuf; decide

theorem witness_Sm3Context : Sm3Ctx.init.Holds [] ∧ abcContext.Holds [0x61, 0x62, 0x63] := by
  constructor <;> constructor <;> decide +kernel

theorem witness_Sm3Finish : ({ State.reset with sm3 := abcContext } : State).sm3.st = .active ∧
    State.reset.sm3.st ≠ .active := by decide

theorem witness_DigestOfAbsorbedBytes : (∃ s, Absorbed [] s) ∧ ([] : List Byte).length < 2 ^ 64 :=
  ⟨⟨_, .init State.reset _ rfl⟩, by decide⟩

/-- Two bytes absorbed by one SM3UPD after SM3INIT. -/
theorem witness_DigestOfAbsorbedBytes_two : ∃ s, Absorbed [0x61, 0x62] s := by
  refine ⟨_, .update [] { bytesAt 0 2 0x6162 with sm3 := Sm3Ctx.init, len := 2 } _
    (.host [] { State.reset with sm3 := Sm3Ctx.init }.done _ (.init State.reset _ rfl) rfl) rfl (by decide +kernel)⟩

theorem witness_ModeChecksInOrder :
    modeOutLen .ecbenc 20 = some 20 ∧ modeOutLen (.cbcenc true) 16 = some 32 ∧
    ModeRegions { State.reset with len := 20 } 20 ∧ (Instr.ecbenc ≠ .cbcenc true ∧ 20 % 16 ≠ 0) ∧
    ModeRegions State.reset 0 ∧ Instr.cbcdec true = .cbcdec true ∧ State.reset.len.toNat = 0 ∧
    ¬ ModeRegions { State.reset with src := 0xFF0, dst := 0xFF0, len := 16 } 32 ∧
    ¬ ModeRegions { State.reset with src := 0, dst := 8, len := 16 } 16 := by
  unfold ModeRegions InDbuf; decide

theorem witness_EcbCommands : (Instr.ecbenc = .ecbenc ∧ sm4Enc = sm4Enc) ∧
    ModeRegions { State.reset with src := 0xFE0, dst := 0xFF0, len := 16 } 16 ∧ 16 % 16 = 0 ∧ ModeRegions State.reset 0 ∧
    0 < 16 / 16 := by
  unfold ModeRegions InDbuf; exact ⟨⟨rfl, rfl⟩, by decide⟩

theorem witness_CbcEncryption :
    (32 = if true then 16 + 16 - 16 % 16 else 16) ∧ ModeRegions { State.reset with dst := 0xFE0, len := 16 } 32 ∧
    (16 = if true then 0 + 16 - 0 % 16 else 0) ∧ ModeRegions State.reset 16 ∧
    (0 = if false then 0 + 16 - 0 % 16 else 0) ∧ ModeRegions State.reset 0 ∧ (false = false → 32 % 16 = 0) := by
  unfold ModeRegions InDbuf; decide

theorem witness_CbcDecryption :
    (ModeRegions (mode 32 0x2677F46B09C122CC975533105BD4A22A8E09F1FD7EF24872AE0B80E31841CC24) 32 ∧ 32 % 16 = 0 ∧
      (true = true → 32 ≠ 0)) ∧
    valid7 (pad7 [0x61]) = true ∧ valid7 (List.replicate 16 0) = false ∧ ModeRegions State.reset 0 := by
  unfold ModeRegions InDbuf; decide +kernel

/-- CBCENC.PAD on one block, and CBCDEC.PAD on its output to another place. -/
theorem witness_DecryptionRestoresTheMessage :
    next (exec (.cbcenc true) { mode 16 0x000102030405060708090A0B0C0D0E0F with dst := 0x40 }) (fun t =>
      !t.status.err && next (exec (.cbcdec true)
        { t with sm4 := { t.sm4 with cv := stdIV }, src := 0x40, len := t.outlen, dst := 0xFE0 }) (fun v =>
          !v.status.err)) = true ∧
    ModeRegions { State.reset with src := 0x40, len := 32, dst := 0xFE0 } 32 ∧
    (i2os 0x000102030405060708090A0B0C0D0E0F 16).length = (mode 16 0x000102030405060708090A0B0C0D0E0F).len.toNat ∧
    HoldsAt (mode 16 0x000102030405060708090A0B0C0D0E0F) 0 (i2os 0x000102030405060708090A0B0C0D0E0F 16) := by
  unfold ModeRegions InDbuf HoldsAt; decide +kernel

end Sys2Proof.Tests
end

section
/-! What a host access leaves alone, and the machine's invariant: each way a step can end keeps it
(10_state.md R39-R43, R62; 40_control.md R170, R175). -/
namespace Sys2Proof.Machine

/-! ### Host accesses -/

/-- A host access that is neither a reset nor a start: the engine's registers are kept, CMD and RETRY are kept while a
command runs, and DBUF keeps its canonical form (70_reset_and_hazards.md R460; 10_state.md R40-R43). -/
structure EngineKept (s t : State) : Prop where
  status : t.status = s.status
  sm3 : t.sm3 = s.sm3
  phase : t.phase = s.phase
  cmdl : t.cmdl = s.cmdl
  attempt : t.attempt = s.attempt
  nonce : t.nonce = s.nonce
  outlen : t.outlen = s.outlen
  cmd : s.status.busy = true → t.cmd = s.cmd
  retry : s.status.busy = true → t.retry = s.retry
  dbuf : Memory.wf s.dbuf → Memory.wf t.dbuf

theorem EngineKept.refl (s : State) : EngineKept s s :=
  ⟨rfl, rfl, rfl, rfl, rfl, rfl, rfl, fun _ => rfl, fun _ => rfl, id⟩

/-- IE, IRQSTAT.DONE and the model's own fields are no registers of the engine. -/
theorem EngineKept.of_host (s : State) (ie irq : Bool) (ts : List Turn) (n : Nat) (x : Option BusResp) :
    EngineKept s { s with ie := ie, irqDone := irq, turns := ts, draws := n, resp := x } :=
  ⟨rfl, rfl, rfl, rfl, rfl, rfl, rfl, fun _ => rfl, fun _ => rfl, id⟩

/-- The bus's response is no part of what the engine keeps. -/
theorem EngineKept.respond {s t : State} (h : EngineKept s t) (x : BusResp) :
    EngineKept s { t with resp := some x } :=
  ⟨h.status, h.sm3, h.phase, h.cmdl, h.attempt, h.nonce, h.outlen, h.cmd, h.retry, h.dbuf⟩

/-- Only the offsets of DBUF name a byte of it, and a word there lies inside the buffer. -/
theorem regAt_dbuf_lt {off x : Nat} (h : regAt off = .dbuf x) (hoff : off < 8192) (h4 : off % 4 = 0) :
    x + 4 ≤ Config.dbufSize := by
  by_cases hlow : off < 0x1000
  · exfalso
    unfold regAt at h
    split at h
    case h_15 =>
      unfold regAbove at h
      repeat' split at h
      all_goals cases h
    all_goals cases h
  · obtain ⟨y, rfl⟩ : ∃ y, off = 0x1000 + y := ⟨off - 0x1000, by omega⟩
    rw [regAt_dbuf, Reg.dbuf.injEq] at h
    simp only [Config.dbufSize]
    omega

/-- An idle write of a register is no reset and no start. -/
theorem regWrite_engineKept (s : State) (r : Reg) (v : Word) (hb : s.status.busy = false)
    (hr : ∀ x, r = .dbuf x → x + 4 ≤ Config.dbufSize) : EngineKept s (s.regWrite r v) := by
  have idle {p : Prop} (h : s.status.busy = true) : p := by simp [hb] at h
  cases r with
  | dbuf x => exact ⟨rfl, rfl, rfl, rfl, rfl, rfl, rfl, idle, idle, fun hw => Memory.wf_writeBytes hw (hr x rfl)⟩
  | _ => exact ⟨rfl, rfl, rfl, rfl, rfl, rfl, rfl, idle, idle, id⟩

/-- Every register but CTRL and IRQSTAT takes a write only while idle (70_reset_and_hazards.md R460). -/
theorem writeEffect_other (s : State) {r : Reg} (v : Word) (hc : r ≠ .ctrl) (hi : r ≠ .irqstat) :
    s.writeEffect r v = if s.status.busy then s else s.regWrite r v := by
  cases r with
  | ctrl => exact absurd rfl hc
  | irqstat => exact absurd rfl hi
  | _ => rfl

/-- What the write of a register can do (20_memory.md R122): a soft reset or a start, both at CTRL alone, or nothing
that the engine keeps. -/
theorem writeEffect_cases (s : State) (r : Reg) (v : Word) (hr : ∀ x, r = .dbuf x → x + 4 ≤ Config.dbufSize) :
    (r = .ctrl ∧ v.getLsbD 1 = true ∧ s.writeEffect r v = s.softReset) ∨
    (r = .ctrl ∧ v.getLsbD 1 = false ∧ v.getLsbD 0 = true ∧ s.status.busy = false ∧
      s.writeEffect r v = { s with ie := v.getLsbD 2 }.startCommand) ∨
    EngineKept s (s.writeEffect r v) := by
  by_cases hc : r = .ctrl
  · subst hc
    rw [State.writeEffect, State.writeCtrl]
    by_cases h1 : v.getLsbD 1 = true
    · exact .inl ⟨rfl, h1, if_pos h1⟩
    · rw [if_neg h1]
      by_cases h0 : (v.getLsbD 0 && !s.status.busy) = true
      · obtain ⟨h0', hb⟩ := Bool.and_eq_true_iff.mp h0
        exact .inr (.inl ⟨rfl, by simpa using h1, h0', by simpa using hb, if_pos h0⟩)
      · refine .inr (.inr ?_)
        rw [if_neg h0]
        exact .of_host s _ _ _ _ _
  · refine .inr (.inr ?_)
    by_cases hi : r = .irqstat
    · subst hi
      simp only [State.writeEffect, State.writeIrqstat]
      split
      · exact .of_host s _ _ _ _ _
      · exact .refl s
    · rw [writeEffect_other s v hc hi]
      split
      · exact .refl s
      · rename_i hb
        exact regWrite_engineKept s r v (by simpa using hb) hr

/-- An accepted access is aligned and inside the window (20_memory.md R105). -/
theorem accepted_cases {a : Access} (h : a.accepted = true) :
    ∃ off, off < 8192 ∧ off % 4 = 0 ∧ (a = .rd off ∨ ∃ v, a = .wr off v) := by
  obtain ⟨off, bits, strobes, kind⟩ := a
  simp only [Access.accepted, Bool.and_eq_true, decide_eq_true_eq] at h
  obtain ⟨⟨⟨⟨h0, h1⟩, h4⟩, rfl⟩, rfl⟩ := h
  change off < (8192 : Int) at h1
  refine ⟨off.toNat, by omega, by omega, ?_⟩
  have : (off.toNat : Int) = off := Int.toNat_of_nonneg h0
  cases kind with
  | read => exact .inl (by simp [Access.rd, this])
  | write v => exact .inr ⟨v, by simp [Access.wr, this]⟩

/-- A read is no reset and no start. -/
theorem hostRead_engineKept (s : State) (r : Reg) : EngineKept s (s.hostRead r) := by
  unfold State.hostRead
  split <;> exact .of_host s _ _ _ _ _

/-- What a host access can do: a soft reset, a start while idle, or nothing that the engine keeps. -/
theorem busAccess_cases (s : State) (a : Access) :
    (∃ v, a = .wr 0x004 v ∧ v.getLsbD 1 = true ∧
      s.busAccess a = { s.softReset with resp := some ⟨false, 0⟩ }) ∨
    (∃ v, a = .wr 0x004 v ∧ v.getLsbD 1 = false ∧ v.getLsbD 0 = true ∧ s.status.busy = false ∧
      s.busAccess a = { { s with ie := v.getLsbD 2 }.startCommand with resp := some ⟨false, 0⟩ }) ∨
    EngineKept s (s.busAccess a) := by
  by_cases ha : a.accepted = true
  · obtain ⟨off, hoff, h4, rfl | ⟨v, rfl⟩⟩ := accepted_cases ha
    · rw [busAccess_rd s hoff h4]
      exact .inr (.inr (hostRead_engineKept s _))
    · rw [busAccess_wr s hoff h4, State.hostWrite]
      rcases writeEffect_cases s (regAt off) v (fun x hx => regAt_dbuf_lt hx hoff h4) with
        ⟨hr, h1, he⟩ | ⟨hr, h1, h0, hb, he⟩ | hk
      · rw [regAt_eq_ctrl] at hr
        subst hr
        exact .inl ⟨v, rfl, h1, by rw [he]⟩
      · rw [regAt_eq_ctrl] at hr
        subst hr
        exact .inr (.inl ⟨v, rfl, h1, h0, hb, by rw [he]⟩)
      · exact .inr (.inr (hk.respond _))
  · rw [State.busAccess, if_neg ha]
    exact .inr (.inr ((EngineKept.refl s).respond _))

/-- The step of a listed host access. -/
theorem step_host {s : State} {a : Access} {ts : List Turn} (h : s.turns = .host a :: ts) :
    step s = .next ({ s with turns := ts }.busAccess a) := by
  rw [step, h]
  rfl

/-! ### The invariant -/

/-- The SM3 clauses of the invariant, together. -/
theorem State.Inv.sm3Ok {s : State} (h : s.Inv) : s.sm3.Ok := ⟨h.sm3Idle, h.sm3Active, h.sm3Final⟩

/-- The invariant of an idle state. -/
theorem State.Inv.of_idle {t : State} (hp : t.phase = .idle) (hb : t.status.busy = false)
    (hw : t.status.rngw = false) (he : t.status.err = true ↔ t.status.errcode ≠ .none)
    (hv : t.status.vok = true → t.status.err = false) (ha : t.attempt = 0) (hn : t.nonce = none)
    (hm : t.sm3.Ok) (hd : Memory.wf t.dbuf) : t.Inv where
  busy := by simp [hb, hp]
  rngw := by simp [hw, hp]
  err := he
  running := by simp [hb]
  vok := hv
  latched := fun h => absurd hp h
  waits := by simp [hp]
  inflight := fun _ => ha
  nonce := hn
  sm3Idle := hm.idle
  sm3Active := hm.active
  sm3Final := hm.final
  dbuf := hd

/-- A reset meets the invariant, with any DBUF in canonical form (70_reset_and_hazards.md R450, R451). -/
theorem inv_of_cleared (s : State) (x : Option BusResp) {m : Memory} (hm : Memory.wf m) :
    { s.cleared with dbuf := m, resp := x }.Inv :=
  .of_idle rfl rfl rfl ⟨nofun, fun h => absurd rfl h⟩ nofun rfl rfl Sm3Ctx.ok_reset hm

/-- A soft reset clears everything but DBUF, which keeps its canonical form. -/
theorem softReset_eq (s : State) (hm : Memory.wf s.dbuf) :
    ∃ m, Memory.wf m ∧ s.softReset = { s.cleared with dbuf := m } := by
  unfold State.softReset
  split
  · exact ⟨_, Memory.wf_forget hm _ _, rfl⟩
  · exact ⟨s.dbuf, hm, rfl⟩

/-- While BUSY = 0 the invariant makes the engine idle, so that a start meets it (40_control.md R171). -/
theorem State.Inv.startCommand {s : State} (h : s.Inv) (hb : s.status.busy = false) : s.startCommand.Inv where
  busy := by simp
  rngw := by
    have hp : s.phase = .idle := by
      by_contra hp
      simp [h.busy.mpr hp] at hb
    have hw : ¬ s.status.rngw = true := fun hw => by simp [h.rngw.mp hw] at hp
    simpa using hw
  err := by simp
  running := by simp
  vok := by simp
  latched := by simp
  waits := by simp
  inflight := by simp
  nonce := rfl
  sm3Idle := h.sm3Idle
  sm3Active := h.sm3Active
  sm3Final := h.sm3Final
  dbuf := h.dbuf

/-- A host access that leaves the engine's registers alone keeps the invariant: CMD and RETRY, which the clauses about
a running command read, change only while idle. -/
theorem State.Inv.of_engineKept {s t : State} (h : s.Inv) (hk : EngineKept s t) : t.Inv where
  busy := by rw [hk.status, hk.phase]; exact h.busy
  rngw := by rw [hk.status, hk.phase]; exact h.rngw
  err := by rw [hk.status]; exact h.err
  running := by rw [hk.status]; exact h.running
  vok := by rw [hk.status]; exact h.vok
  latched := by
    rw [hk.phase, hk.cmdl]
    intro hp
    rw [hk.cmd (h.busy.mpr hp)]
    exact h.latched hp
  waits := by
    rw [hk.phase, hk.cmdl, hk.attempt]
    intro hp
    rw [hk.retry (h.busy.mpr (by simp [hp]))]
    exact h.waits hp
  inflight := by rw [hk.phase, hk.attempt]; exact h.inflight
  nonce := by rw [hk.nonce]; exact h.nonce
  sm3Idle := by rw [hk.sm3]; exact h.sm3Idle
  sm3Active := by rw [hk.sm3]; exact h.sm3Active
  sm3Final := by rw [hk.sm3]; exact h.sm3Final
  dbuf := hk.dbuf h.dbuf

/-- A host access keeps the invariant. -/
theorem State.Inv.busAccess {s : State} (h : s.Inv) (a : Access) : (s.busAccess a).Inv := by
  rcases busAccess_cases s a with ⟨v, -, -, he⟩ | ⟨v, -, -, -, hb, he⟩ | hk
  · obtain ⟨m, hm, hs⟩ := softReset_eq s h.dbuf
    rw [he, hs]
    exact inv_of_cleared s _ hm
  · have hie : { s with ie := v.getLsbD 2 }.Inv := h.of_engineKept (.of_host s _ _ _ _ _)
    rw [he]
    exact (hie.startCommand hb).of_engineKept ((EngineKept.refl _).respond _)
  · exact h.of_engineKept hk

/-- A completion keeps the invariant, whatever the command's result writes (40_control.md R175). -/
theorem State.Inv.complete {s u : State} (h : s.Inv) (hk : ResultKeeps s u) {code : ErrCode} {vok : Bool}
    (hv : vok = true → code = .none) : (u.complete code vok).Inv :=
  .of_idle rfl rfl rfl (by simp) (fun hvok => by simp [hv hvok]) rfl rfl (hk.sm3 h.sm3Ok) (hk.dbuf h.dbuf)

/-- A wait of KEYGEN or SIGN keeps the invariant, where the attempts made are within the budget
(40_control.md R170, 43_sm2.md R281). -/
theorem State.Inv.wait {s : State} (h : s.Inv) (hp : s.phase ≠ .idle) (rest : List RngAnswer) {made : Nat}
    (hw : (decode s.cmdl = .ok .keygen ∧ made = 0) ∨ (decode s.cmdl = .ok .sign ∧ made < s.retry.toNat)) :
    ({ s with attempt := made }.waitAttempt rest).Inv where
  busy := by simpa using h.busy.mpr hp
  rngw := by simp
  err := h.err
  running := h.running
  vok := h.vok
  latched := fun _ => h.latched hp
  waits := fun _ => hw
  inflight := by simp
  nonce := rfl
  sm3Idle := h.sm3Idle
  sm3Active := h.sm3Active
  sm3Final := h.sm3Final
  dbuf := h.dbuf

/-- A command's engine step keeps the invariant. -/
theorem State.Inv.exec {s t : State} {i : Instr} (h : s.Inv) (hp : s.phase ≠ .idle) (hi : decode s.cmdl = .ok i)
    (he : exec i s = .next t) : t.Inv := by
  cases exec_ends i s t he with
  | completes u code vok hv hk => exact h.complete hk hv
  | keygenWaits rest hkey =>
    subst hkey
    have ha : s.attempt = 0 := by
      by_cases hw : s.phase = .waitRng
      · rcases h.waits hw with ⟨-, ha⟩ | ⟨hsign, -⟩
        · exact ha
        · simp [hi] at hsign
      · exact h.inflight hw
    have hs : { s with rng := rest }.waitRng = { s with attempt := 0 }.waitAttempt rest := by
      simp only [State.waitRng, State.waitAttempt, h.nonce, ha]
    rw [hs]
    exact h.wait hp rest (.inl ⟨hi, rfl⟩)
  | signWaits rest made hsign hm =>
    subst hsign
    refine h.wait hp rest (.inr ⟨hi, hm ?_⟩)
    by_cases hw : s.phase = .waitRng
    · rcases h.waits hw with ⟨hkey, -⟩ | ⟨-, hlt⟩
      · simp [hi] at hkey
      · exact .inr hlt
    · exact .inl (h.inflight hw)

/-- The engine's step keeps the invariant. -/
theorem State.Inv.engineStep {s t : State} (h : s.Inv) (he : engineStep s = .next t) : t.Inv := by
  unfold Machine.engineStep at he
  split at he
  · cases he
    exact h
  · split at he
    · exact h.exec ‹_› ‹_› he
    · cases he
      exact h.complete (.refl s) nofun

/-- Settles O24: by the agent that moves. -/
theorem stepKeepsTheInvariant : Obligations.StepKeepsTheInvariant := by
  intro s t h hstep
  unfold step at hstep
  split at hstep
  · exact h.engineStep hstep
  · rename_i turn ts hts
    have h' : { s with turns := ts }.Inv := h.of_engineKept (.of_host s _ _ _ _ _)
    cases turn with
    | engine => exact h'.engineStep hstep
    | host a =>
      cases hstep
      exact h'.busAccess a
    | both a =>
      simp only [turnStep, jointStep] at hstep
      split at hstep
      · cases hstep
        exact h'.busAccess a
      · exact (h'.busAccess a).engineStep hstep
    | hardReset =>
      cases hstep
      exact inv_of_cleared _ _ Memory.wf_nil

/-- Settles O21: an access that is neither a start nor a reset is the last case of `busAccess_cases`. -/
theorem onlyTheEngineWritesStatus : Obligations.OnlyTheEngineWritesStatus := by
  intro s t ts a hts hw hstep
  rw [step_host hts, Host.Outcome.next.injEq] at hstep
  subst hstep
  rcases busAccess_cases { s with turns := ts } a with ⟨v, ha, h1, -⟩ | ⟨v, ha, -, h0, hb, -⟩ | hk
  · exact absurd ((hw v ha).1.symm.trans h1) Bool.false_ne_true
  · rcases (hw v ha).2 with h | h
    · exact absurd (h.symm.trans h0) Bool.false_ne_true
    · exact absurd (hb.symm.trans h) Bool.false_ne_true
  · exact ⟨hk.status, hk.sm3, hk.phase, hk.cmdl, hk.attempt, hk.nonce, hk.outlen⟩

end Sys2Proof.Machine
end

section
/-! The register window: what an idle access of each register stores and returns, the fields of STATUS, the reserved
bits and offsets, and the interrupt flag (10_state.md R32-R61, R71). -/
namespace Sys2Proof.Machine

/-- A listed write of a register with no action of its own, while idle, stores the register's word. -/
theorem step_write_idle {s : State} {off : Nat} {v : Word} {ts : List Turn} (hw : HostWrites s off v ts)
    (hb : s.status.busy = false) (hoff : off < 8192 ∧ off % 4 = 0 ∧ off ≠ 0x004 ∧ off ≠ 0x010) :
    step s = .next { { s with turns := ts }.regWrite (regAt off) v with resp := some ⟨false, 0⟩ } := by
  obtain ⟨hlt, h4, hc, hi⟩ := hoff
  rw [step_write hw hlt h4,
    hostWrite_idle { s with turns := ts } _ _ hb (mt regAt_eq_ctrl.mp hc) (mt regAt_eq_irqstat.mp hi)]

/-- A listed read of a register that reads exactly, busy or idle, returns its word. -/
theorem step_read_exact {s : State} {off : Nat} {ts : List Turn} (hr : HostReads s off ts) (hoff : off < 8192)
    (h4 : off % 4 = 0) (he : (regAt off).exactWhileBusy = true) :
    step s = .next (s.returned ts ({ s with turns := ts }.regRead (regAt off))) := by
  rw [step_read hr hoff h4, hostRead_status _ _ he]
  rfl

/-- The write of CTRL and of IRQSTAT, busy or idle (20_memory.md R122). -/
theorem hostWrite_ctrl (s : State) (v : Word) :
    s.hostWrite .ctrl v = { s.writeCtrl v with resp := some ⟨false, 0⟩ } := rfl

theorem hostWrite_irqstat (s : State) (v : Word) :
    s.hostWrite .irqstat v = { s.writeIrqstat v with resp := some ⟨false, 0⟩ } := rfl

/-- Word j of a block after word i is written. -/
theorem Block.word_setWord (x : Block) (i j : Fin 4) (v : Word) :
    (x.setWord i v).word j = if j = i then v else x.word j := by
  fin_cases i <;> fin_cases j <;> rfl

/-- A write of CTRL that is neither a reset nor a start stores IE. -/
theorem writeCtrl_ie {s : State} {v : Word} (h0 : v.getLsbD 0 = false) (h1 : v.getLsbD 1 = false) :
    s.writeCtrl v = { s with ie := v.getLsbD 2 } := by
  rw [State.writeCtrl, h0, h1]
  rfl

/-- Settles O12: offset by offset, by the register that stands there. -/
theorem idleRegisterWrites : Obligations.IdleRegisterWrites := by
  intro s ts off v hw hb
  refine ⟨?ctrl, ?cmd, ?src, ?dst, ?len, ?retry, ?pflags, ?key, ?cv, ?rk, ?readOnly⟩
  case ctrl =>
    rintro rfl h0 h1
    rw [step_write hw (by omega) (by omega), regAt_eq_ctrl.mpr rfl, hostWrite_ctrl, writeCtrl_ie h0 h1]
    rfl
  case cmd | src | dst | len | retry | pflags =>
    rintro rfl
    exact step_write_idle hw hb (by omega)
  case key =>
    rintro i rfl
    refine ⟨s.sm4.key.setWord i v, ?_, fun j => Block.word_setWord _ i j v⟩
    rw [step_write_idle hw hb (by omega), regAt_sm4key]
    rfl
  case cv =>
    rintro i rfl
    refine ⟨s.sm4.cv.setWord i v, ?_, fun j => Block.word_setWord _ i j v⟩
    rw [step_write_idle hw hb (by omega), regAt_sm4cv]
    rfl
  case rk =>
    rintro i rfl
    refine ⟨s.sm4.rk.set i.val v i.isLt, ?_, fun j => ?_⟩
    · rw [step_write_idle hw hb (by omega), regAt_sm4rk]
      rfl
    · simp [Vector.getElem_set, Fin.ext_iff, eq_comm]
  case readOnly =>
    rintro (rfl | rfl | rfl | rfl | rfl | rfl | ⟨i, rfl⟩)
    case inr.inr.inr.inr.inr.inr =>
      rw [step_write_idle hw hb (by omega), regAt_sm3v]
      rfl
    all_goals exact step_write_idle hw hb (by omega)

/-- Settles O15: word j of an operand register is bits 255-32j to 224-32j, written and read. -/
theorem operandWordLayout : Obligations.OperandWordLayout := by
  refine ⟨rfl, fun s ts i j v hi hj hb => ⟨fun hw => ?_, fun hr => ?_⟩⟩
  · refine ⟨s.opnd.set (Opnd.ofIndex i) (setWord256 (s.opnd.get (Opnd.ofIndex i)) ⟨j, hj⟩ v), ?_,
      fun r hne => ?_, fun b hb' => ?_⟩
    · rw [step_write_idle hw hb (by omega), regAt_opnd hi hj]
      rfl
    · rw [Opnds.get_set, if_neg hne]
    · rw [Opnds.get_set, if_pos rfl]
      exact setWord256_getLsbD _ ⟨j, hj⟩ v b hb'
  · rw [step_read hr (by omega) (by omega), regAt_opnd hi hj,
      hostRead_idle { s with turns := ts } _ hb (fun _ => Reg.noConfusion)]
    rfl

/-! ### The words of the flags -/

/-- Bits 31:3 of CTRL are reserved. -/
theorem ctrlWord_high (ie : Bool) {b : Nat} (hb : 3 ≤ b) : (ctrlWord ie).getLsbD b = false := by
  simp only [ctrlWord, BitVec.getLsbD_append, BitVec.getLsbD_ofBool, BitVec.ofNat_eq_ofNat, BitVec.getLsbD_zero]
  grind

/-- Bits 31:3 of PFLAGS are reserved. -/
theorem pflagsWord_high (f : PFlags) {b : Nat} (hb : 3 ≤ b) : (pflagsWord f).getLsbD b = false := by
  simp only [pflagsWord, BitVec.getLsbD_append, BitVec.getLsbD_ofBool, BitVec.ofNat_eq_ofNat, BitVec.getLsbD_zero]
  grind

/-- Bits 31:1 of IRQSTAT are reserved. -/
theorem irqstatWord_high (d : Bool) {b : Nat} (hb : 1 ≤ b) : (irqstatWord d).getLsbD b = false := by
  simp only [irqstatWord, BitVec.getLsbD_append, BitVec.getLsbD_ofBool, BitVec.ofNat_eq_ofNat, BitVec.getLsbD_zero]
  grind

/-- The bits of STATUS, field by field from bit 0 up (10_state.md R39). -/
theorem statusWord_getLsbD (st : Status) (c : Sm3St) (b : Nat) : (statusWord st c).getLsbD b =
    if b < 1 then st.busy else if b < 2 then st.done else if b < 3 then st.err else if b < 4 then st.vok
    else if b < 5 then st.rngw else if b < 7 then c.code.getLsbD (b - 5) else if b < 8 then false
    else if b < 12 then st.errcode.code.getLsbD (b - 8) else false := by
  simp only [statusWord, BitVec.getLsbD_append, BitVec.getLsbD_ofBool, BitVec.ofNat_eq_ofNat, BitVec.getLsbD_zero]
  grind (splits := 20)

/-- Bits 31:12 of STATUS are reserved. -/
theorem statusWord_high (st : Status) (c : Sm3St) {b : Nat} (hb : 12 ≤ b) :
    (statusWord st c).getLsbD b = false := by
  rw [statusWord_getLsbD]
  grind

/-- Bits 6:5 of STATUS are SM3ST. -/
theorem statusWord_sm3st (st : Status) (c : Sm3St) : (statusWord st c).extractLsb' 5 2 = c.code := by
  ext i hi
  rw [BitVec.getElem_extractLsb', statusWord_getLsbD]
  grind

/-- Bits 11:8 of STATUS are ERRCODE. -/
theorem statusWord_errcode (st : Status) (c : Sm3St) : (statusWord st c).extractLsb' 8 4 = st.errcode.code := by
  ext i hi
  rw [BitVec.getElem_extractLsb', statusWord_getLsbD]
  grind

/-- Settles O14: by the order of the fields in the STATUS word. -/
theorem statusWordFields : Obligations.StatusWordFields := by
  intro s ts hr
  have bits := statusWord_getLsbD s.status s.sm3.st
  refine ⟨statusWord s.status s.sm3.st, step_read_exact hr (by omega) (by omega) rfl,
    bits 0, bits 1, bits 2, bits 3, bits 4, ?_, bits 7, ?_, ?_⟩
  · rw [statusWord_sm3st]
    cases s.sm3.st <;> rfl
  · rw [statusWord_errcode]
    cases s.status.errcode <;> rfl
  · ext i hi
    rw [BitVec.getElem_extractLsb', statusWord_high _ _ (by omega)]
    simp

/-- Masking with 7 keeps the three low bits. -/
theorem and_seven_getLsbD (v : Word) {b : Nat} (hb : b < 3) : (v &&& 7).getLsbD b = v.getLsbD b := by
  rw [BitVec.getLsbD_and]
  interval_cases b <;> exact Bool.and_true _

/-- The reserved bits of a CTRL write are ignored. -/
theorem writeCtrl_low (s : State) (v : Word) : s.writeCtrl (v &&& 7) = s.writeCtrl v := by
  simp only [State.writeCtrl, and_seven_getLsbD, Nat.reduceLT]

/-- The reserved bits of an IRQSTAT write are ignored. -/
theorem writeIrqstat_low (s : State) (v : Word) : s.writeIrqstat (v &&& 1) = s.writeIrqstat v := by
  have h0 : (v &&& 1).getLsbD 0 = v.getLsbD 0 := by
    rw [BitVec.getLsbD_and]
    exact Bool.and_true _
  rw [State.writeIrqstat, State.writeIrqstat, h0]

/-- The reserved bits of a PFLAGS write are ignored. -/
theorem pflagsOfWord_low (v : Word) : PFlags.ofWord (v &&& 7) = PFlags.ofWord v := by
  simp only [PFlags.ofWord, and_seven_getLsbD, Nat.reduceLT]

/-- The write of a reserved offset has no effect, busy or idle (10_state.md R61). -/
theorem hostWrite_reserved (s : State) (v : Word) :
    s.hostWrite .reserved v = { s with resp := some ⟨false, 0⟩ } := by
  show { (if s.status.busy then s else s) with resp := some (⟨false, 0⟩ : BusResp) } = _
  rw [ite_self]

/-- Settles O17: the reserved offsets by `regAt_reserved`, the reserved bits word by word. -/
theorem reservedReadsZeroIgnoresWrites : Obligations.ReservedReadsZeroIgnoresWrites := by
  refine ⟨fun s ts off v h4 hoff => ⟨fun hr => ?_, fun hw => ?_⟩, fun s v => ⟨?_, ?_, ?_, ?_, ?_, ?_, ?_, ?_⟩⟩
  · rw [step_read hr (by omega) h4, regAt_reserved hoff, hostRead_status _ _ rfl]
    rfl
  · rw [step_write hw (by omega) h4, regAt_reserved hoff, hostWrite_reserved]
    rfl
  · exact fun b hb => ⟨ctrlWord_high _ hb, pflagsWord_high _ hb⟩
  · exact statusWord_getLsbD _ _ 7
  · exact fun b hb => statusWord_high _ _ hb
  · exact fun b hb => irqstatWord_high _ hb
  · intro b hb
    have hlt : s.sm3.plen.val < 2 ^ b :=
      s.sm3.plen.isLt.trans_le (Nat.pow_le_pow_right (n := 2) (by decide) hb)
    show (BitVec.ofNat 32 s.sm3.plen.val).getLsbD b = false
    rw [BitVec.getLsbD_ofNat, Nat.testBit_lt_two_pow hlt, Bool.and_false]
  · exact (writeCtrl_low s v).symm
  · exact (writeIrqstat_low s v).symm
  · simp only [State.writeEffect, State.regWrite, pflagsOfWord_low]

/-- Settles O20: the write of IRQSTAT clears DONE by its bit 0 alone; the other two clauses are the definitions. -/
theorem interruptFlagAndOutput : Obligations.InterruptFlagAndOutput := by
  refine ⟨fun s ts v hw => ?_, fun s => rfl, fun s => Bool.and_eq_true_iff⟩
  rw [step_write hw (by omega) (by omega), regAt_eq_irqstat.mpr rfl, hostWrite_irqstat, State.writeIrqstat]
  split <;> rfl

end Sys2Proof.Machine
end

section
/-! What a command writes, said once for every command, and what follows for its frame, its row of operands and its
verdict (10_state.md R43, R47, R59; 40_control.md R175, R176). -/
namespace Sys2Proof.Machine

/-! ### The result of a command -/

/-- `Result s i code u`: the command i, run from s, reports `code` and has made the result writes that u holds, before
its completion. -/
inductive Result (s : State) : Instr → ErrCode → State → Prop where
  | nothing (i : Instr) (hi : i = .nop ∨ i = .pchk ∨ i = .verify) : Result s i .none s
  | zeroize : Result s .zeroize .none s.zeroized
  | field (i : Instr) (v : Nat) (hi : opndWrites i = [.c]) : Result s i .none (s.writeC v)
  | point (i : Instr) (q : Point) (hi : opndWrites i = [.rx, .ry]) : Result s i .none (s.writeR q)
  | keyPair (rest : List RngAnswer) (d : Nat) : Result s .keygen .none ({ s with rng := rest }.writeKeyPair d)
  | signature (i : Instr) (rest : List RngAnswer) (r t : Nat) (hi : opndWrites i = [.sr, .ss]) :
      Result s i .none ({ s with rng := rest }.writeSig r t)
  | sm3init : Result s .sm3init .none { s with sm3 := Sm3Ctx.init }
  | sm3upd (hst : s.sm3.st = .active) :
      Result s .sm3upd .none
        ({ s with sm3 := sm3Update s.sm3 (s.memRead s.src.toNat s.len.toNat) }.drew s.len.toNat)
  | sm3fin (hst : s.sm3.st = .active) :
      Result s .sm3fin .none
        { s with
          sm3 := s.sm3.finished
          opnd := { s.opnd with hd := BitVec.ofNat 256 (os2i (sm3Final s.sm3).bytes) } }
  | sm4key : Result s .sm4key .none { s with sm4 := { s.sm4 with rk := sm4KeySchedule s.sm4.key } }
  | mode (i : Instr) (out : List Byte) (cv : Block) (n : Nat) (hlen : modeOutLen i s.len.toNat = some out.length)
      (hcv : i = .ecbenc ∨ i = .ecbdec → cv = s.sm4.cv) : Result s i .none (s.modeOutput out cv n)
  | badPadding (out : List Byte) (hlen : out.length = s.len.toNat) :
      Result s (.cbcdec true) .validation (s.modeOutput out s.sm4.cv 0)
  | badMode (i : Instr) (code : ErrCode) (hi : (modeOutLen i s.len.toNat).isSome) (hc : code ∈ errorsOf i) :
      Result s i code { s with outlen := 0 }
  | error (i : Instr) (rest : List RngAnswer) (code : ErrCode) (hi : modeOutLen i s.len.toNat = none)
      (hc : code ∈ errorsOf i) : Result s i code { s with rng := rest }

/-- How a command's engine step ends: completed on a result, the verdict 1 only for VERIFY and PCHK, or waiting on the
entropy source. -/
inductive Finishes (s : State) (i : Instr) : State → Prop where
  | completes (u : State) (code : ErrCode) (vok : Bool) (hu : Result s i code u)
      (hv : vok = true → i = .verify ∨ i = .pchk) : Finishes s i (u.complete code vok)
  | waits (t : State) (hw : Waits s t) : Finishes s i t

theorem Result.done {s u : State} {i : Instr} (hu : Result s i .none u) : Finishes s i u.done :=
  .completes u .none false hu nofun

theorem Result.raise {s u : State} {i : Instr} {code : ErrCode} (hu : Result s i code u) :
    Finishes s i (u.raise code) :=
  .completes u code false hu nofun

/-- An error of a command that is no SM4 mode command writes nothing (40_control.md R176). -/
theorem finishes_error (s : State) {i : Instr} {code : ErrCode} (hi : modeOutLen i s.len.toNat = none)
    (hc : code ∈ errorsOf i) : Finishes s i (s.raise code) :=
  (Result.error i s.rng code hi hc).raise

/-- A command that makes its result writes where its operands pass a check, and raises an error where they do not. -/
theorem finishes_checked {s u : State} {i : Instr} {code : ErrCode} {p : Prop} [Decidable p]
    (hu : Result s i .none u) (hi : modeOutLen i s.len.toNat = none) (hc : code ∈ errorsOf i) :
    Finishes s i (if p then u.done else s.raise code) := by
  split
  · exact hu.done
  · exact finishes_error s hi hc

/-- The checks of an SM4 mode command raise one of its own errors (45_sm4.md R361). -/
theorem modeChecks_mem {i : Instr} {n : Nat} {s : State} (hi : (modeOutLen i s.len.toNat).isSome)
    (hc : modeChecks i n s ≠ .none) : modeChecks i n s ∈ errorsOf i := by
  have h : modeChecks i n s = .invalidParams ∨ modeChecks i n s = .invalidBlockLength := by
    by_cases hr : ModeRegions s n
    · rw [modeChecks_of_regions hr] at hc ⊢
      split at hc
      · rw [if_pos ‹_›]
        exact .inr rfl
      · exact absurd rfl hc
    · exact .inl (modeChecks_of_not_regions hr)
  cases i with
  | ecbenc | ecbdec | cbcenc _ => rcases h with h | h <;> simp [h, errorsOf]
  | cbcdec pad => cases pad <;> rcases h with h | h <;> simp [h, errorsOf]
  | _ => cases hi

/-- The whole blocks of a mode command's input make up the input. -/
theorem length_modeBlocks {s : State} (h16 : s.len.toNat % 16 = 0) :
    16 * (toBlocks s.modeInput).length = s.len.toNat := by
  simp only [length_toBlocks, State.modeInput, State.length_memRead]
  omega

/-- An ECB command whose checks passed (45_sm4.md R365, R366). -/
theorem ecb_finishes {s t : State} {i : Instr} {f : Vector Word 32 → Block → Block}
    (hi : (i = .ecbenc ∧ f = sm4Enc) ∨ (i = .ecbdec ∧ f = sm4Dec)) (hr : ModeRegions s s.len.toNat)
    (h16 : s.len.toNat % 16 = 0) (h : exec i s = .next t) : Finishes s i t := by
  rw [ecb_ok i f s hi hr h16, Host.Outcome.next.injEq] at h
  subst h
  refine (Result.mode i _ _ _ ?_ fun _ => rfl).done
  rw [length_ofBlocks, List.length_map, length_modeBlocks h16]
  rcases hi with ⟨rfl, -⟩ | ⟨rfl, -⟩ <;> rfl

/-- CBCENC whose checks passed (45_sm4.md R370). -/
theorem cbcenc_finishes {s t : State} {pad : Bool}
    (hc : modeChecks (.cbcenc pad) (cbcEncLen pad s.len.toNat) s = .none)
    (h : exec (.cbcenc pad) s = .next t) : Finishes s (.cbcenc pad) t := by
  simp only [exec, execCbcenc, hc, Host.Outcome.next.injEq] at h
  subst h
  refine (Result.mode _ _ _ _ ?_ (by simp)).done
  rw [length_ofBlocks, length_cbcEncBlocks]
  cases pad with
  | false =>
    have h16 := blockLength_of_checks (by simp) (checks_regions hc).2
    exact congrArg some (length_modeBlocks h16).symm
  | true =>
    have hl := length_pad7 s.modeInput
    rw [State.modeInput, State.length_memRead] at hl
    simp only [modeOutLen, cbcEncLen, if_true, length_toBlocks, Option.some.injEq, State.modeInput, hl]
    omega

/-- CBCDEC whose checks passed (45_sm4.md R375). -/
theorem cbcdec_finishes {s t : State} {pad : Bool} (hr : ModeRegions s s.len.toNat)
    (hb : badBlockLength (.cbcdec pad) s.len.toNat = false) (h : exec (.cbcdec pad) s = .next t) :
    Finishes s (.cbcdec pad) t := by
  have h16 := blockLength_of_checks (by cases pad <;> simp) hb
  have h0 : pad = true → s.len.toNat ≠ 0 := by
    rintro rfl hz
    simp [badBlockLength, hz] at hb
  have hy : (ofBlocks (cbcDecBlocks s.sm4.rk s.sm4.cv (toBlocks s.modeInput)).1).length = s.len.toNat := by
    rw [length_ofBlocks, length_cbcDecBlocks, length_modeBlocks h16]
  rw [cbcdec_ok pad s hr h16 h0, Host.Outcome.next.injEq] at h
  subst h
  cases pad with
  | false =>
    refine (Result.mode _ _ _ _ ?_ (by simp)).done
    exact congrArg some hy.symm
  | true =>
    rw [if_pos rfl, State.cbcStripped]
    split
    · refine (Result.mode _ _ _ _ ?_ (by simp)).done
      have hs := length_strip7_le (ofBlocks (cbcDecBlocks s.sm4.rk s.sm4.cv (toBlocks s.modeInput)).1)
      rw [List.length_append, List.length_replicate, Nat.add_sub_cancel' (hs.trans hy.le)]
      rfl
    · exact (Result.badPadding _ List.length_replicate).raise

/-- An SM4 mode command fails one of its checks, or runs (45_sm4.md R361). -/
theorem mode_finishes {s t : State} {i : Instr} {n : Nat} (hn : modeOutLen i s.len.toNat = some n)
    (h : exec i s = .next t) : Finishes s i t := by
  by_cases hc : modeChecks i n s = .none
  · obtain ⟨hr, hb⟩ := checks_regions hc
    cases i with
    | ecbenc =>
      cases hn
      exact ecb_finishes (.inl ⟨rfl, rfl⟩) hr (blockLength_of_checks (by simp) hb) h
    | ecbdec =>
      cases hn
      exact ecb_finishes (.inr ⟨rfl, rfl⟩) hr (blockLength_of_checks (by simp) hb) h
    | cbcenc pad =>
      cases hn
      exact cbcenc_finishes hc h
    | cbcdec pad =>
      cases hn
      exact cbcdec_finishes hr hb h
    | _ => cases hn
  · have hi : (modeOutLen i s.len.toNat).isSome := by rw [hn]; rfl
    rw [exec_mode_error hn rfl hc] at h
    cases h
    exact (Result.badMode i _ hi (modeChecks_mem hi hc)).raise

/-- How any command's engine step ends (40_control.md R175-R177). -/
theorem exec_finishes {i : Instr} {s t : State} (h : exec i s = .next t) : Finishes s i t := by
  cases i with
  | nop => cases h; exact (Result.nothing _ (.inl rfl)).done
  | zeroize => cases h; exact Result.zeroize.done
  | fadd m | fsub m | fmul m | finv m =>
    cases h
    exact finishes_checked (.field _ _ rfl) rfl (by simp [errorsOf])
  | fred m => cases h; exact (Result.field _ _ rfl).done
  | padd | pdbl | pmul =>
    cases h
    exact finishes_checked (.point _ _ rfl) rfl (by simp [errorsOf])
  | pmulg => cases h; exact (Result.point _ _ rfl).done
  | pchk => cases h; exact .completes s .none _ (.nothing _ (by simp)) (fun _ => .inr rfl)
  | keygen =>
    simp only [exec, execKeygen, Host.Outcome.next.injEq] at h
    subst h
    split
    · exact .waits _ (kg_waits s s.rng)
    · split
      · exact (Result.keyPair _ _).done
      · exact .waits _ (kg_waits s _)
      · exact (Result.error .keygen _ .randomSource rfl (by simp [errorsOf])).raise
  | sign =>
    simp only [exec, execSign, Host.Outcome.next.injEq] at h
    subst h
    split
    · rcases signLoop_cases s s.rng with ⟨rest, r, t, he⟩ | ⟨rest, he⟩ | ⟨rest, he⟩ | ⟨rest, made, -, he⟩
      · rw [he]
        exact (Result.signature _ rest r t rfl).done
      · rw [he]
        exact (Result.error .sign rest .signingFailed rfl (by simp [errorsOf])).raise
      · rw [he]
        exact (Result.error .sign rest .randomSource rfl (by simp [errorsOf])).raise
      · rw [he]
        exact .waits _ (sg_waits s rest made)
    · exact finishes_error s rfl (by simp [errorsOf])
  | signk =>
    simp only [exec, execSignk, Host.Outcome.next.injEq] at h
    subst h
    split
    · split
      · exact (Result.signature .signk s.rng _ _ rfl).done
      · exact finishes_error s rfl (by simp [errorsOf])
    · exact finishes_error s rfl (by simp [errorsOf])
  | verify => cases h; exact .completes s .none _ (.nothing _ (by simp)) (fun _ => .inl rfl)
  | sm3init => cases h; exact Result.sm3init.done
  | sm3upd =>
    simp only [exec, execSm3upd, Host.Outcome.next.injEq] at h
    subst h
    split
    · exact finishes_error s rfl (by simp [errorsOf])
    · rename_i hst
      split
      · exact (Result.sm3upd (not_not.mp hst)).done
      · exact finishes_error s rfl (by simp [errorsOf])
  | sm3fin =>
    simp only [exec, execSm3fin, Host.Outcome.next.injEq] at h
    subst h
    split
    · exact finishes_error s rfl (by simp [errorsOf])
    · rename_i hst
      exact (Result.sm3fin (not_not.mp hst)).done
  | sm4key => cases h; exact Result.sm4key.done
  | ecbenc | ecbdec | cbcenc _ | cbcdec _ => exact mode_finishes rfl h

/-! ### Frames -/

/-- No command writes what the host alone writes. -/
theorem exec_hostKept {i : Instr} {s t : State} (h : exec i s = .next t) : HostKept s t := by
  cases exec_ends i s t h with
  | completes u code vok _ hk =>
    obtain ⟨hie, hcmd, hsrc, hdst, hlen, hretry, hcmdl, hturns, hresp⟩ := hk.host
    exact ⟨hie, hcmd, hsrc, hdst, hlen, hretry, hcmdl, hturns, hresp⟩
  | keygenWaits rest => exact (kg_waits s rest).data.host
  | signWaits rest made => exact (sg_waits s rest made).data.host

/-- Only ZEROIZE and the SM3 commands write the SM3 context (44_sm3.md R332). -/
theorem Result.sm3_kept {s u : State} {i : Instr} {code : ErrCode} (h : Result s i code u)
    (hi : i ∉ [.zeroize, .sm3init, .sm3upd, .sm3fin]) : u.sm3 = s.sm3 := by
  cases h with
  | zeroize | sm3init | sm3upd | sm3fin => simp at hi
  | point => exact State.writeR_sm3 _ _
  | _ => rfl

/-- Only ZEROIZE, SM4KEY and the CBC commands write an SM4 register (45_sm4.md R361). -/
theorem Result.sm4_kept {s u : State} {i : Instr} {code : ErrCode} (h : Result s i code u)
    (hi : i ∉ [.zeroize, .sm4key, .cbcenc false, .cbcenc true, .cbcdec false, .cbcdec true]) : u.sm4 = s.sm4 := by
  cases h with
  | zeroize | sm4key | badPadding => simp at hi
  | point => exact State.writeR_sm4 _ _
  | mode _ out cv n hlen hcv =>
    have hecb : i = .ecbenc ∨ i = .ecbdec := by
      cases i with
      | ecbenc | ecbdec => simp
      | cbcenc pad | cbcdec pad => cases pad <;> simp at hi
      | _ => cases hlen
    rw [State.modeOutput_sm4, hcv hecb]
  | _ => rfl

/-- Only ZEROIZE and the SM4 mode commands write DBUF and OUTLEN (45_sm4.md R361). -/
theorem Result.dbuf_kept {s u : State} {i : Instr} {code : ErrCode} (h : Result s i code u) (hz : i ≠ .zeroize)
    (hi : modeOutLen i s.len.toNat = none) : u.dbuf = s.dbuf ∧ u.outlen = s.outlen := by
  cases h with
  | zeroize => exact absurd rfl hz
  | point => exact ⟨State.writeR_dbuf _ _, State.writeR_outlen _ _⟩
  | mode _ _ _ _ hlen =>
    rw [hi] at hlen
    cases hlen
  | badPadding => cases hi
  | badMode _ _ hm =>
    rw [hi] at hm
    cases hm
  | _ => exact ⟨rfl, rfl⟩

/-- An SM4 mode command writes no byte of DBUF outside its output region (45_sm4.md R361). -/
theorem Result.keptOutside {s u : State} {i : Instr} {code : ErrCode} {n : Nat} (h : Result s i code u)
    (hn : modeOutLen i s.len.toNat = some n) : KeptOutside s u s.dst.toNat n := by
  cases h with
  | zeroize => cases hn
  | mode _ out cv m hlen =>
    rw [hn, Option.some.injEq] at hlen
    exact kept_out s _ _ _ out rfl hlen.symm
  | badPadding out hlen =>
    cases hn
    exact kept_out s _ _ _ out rfl hlen
  | point => exact fun a _ => by rw [State.writeR_dbuf]
  | _ => exact fun _ _ => rfl

/-- The commands that are no SM4 mode command have no output length. -/
theorem modeOutLen_eq_none {i : Instr} (len : Nat)
    (hi : i ∉ [.zeroize, .ecbenc, .ecbdec, .cbcenc false, .cbcenc true, .cbcdec false, .cbcdec true]) :
    modeOutLen i len = none := by
  cases i with
  | ecbenc | ecbdec => simp at hi
  | cbcenc pad | cbcdec pad => cases pad <;> simp at hi
  | _ => rfl

/-- Settles O26: a completion changes no data that the command's result has not written, and a wait changes none. -/
theorem commandFrames : Obligations.CommandFrames := by
  intro i s t h
  refine ⟨exec_hostKept h, ?_⟩
  cases exec_finishes h with
  | completes u code vok hu =>
    refine ⟨hu.sm3_kept, hu.sm4_kept, fun hi => ?_, fun n hn => hu.keptOutside hn⟩
    exact hu.dbuf_kept (fun hz => by simp [hz] at hi) (modeOutLen_eq_none _ hi)
  | waits _ hw =>
    have hd := hw.data
    exact ⟨fun _ => hd.sm3, fun _ => hd.sm4, fun _ => ⟨hd.dbuf, hd.outlen⟩, fun n _ a _ => by rw [hd.dbuf]⟩

/-- Settles O29: VERIFY and PCHK report their answer, and no other command completes with VOK = 1. -/
theorem vokIsTheVerdict : Obligations.VokIsTheVerdict := by
  refine ⟨fun s => rfl, fun i s t h hp => ⟨?_, ?_, fun hver hchk => ?_⟩⟩
  · rintro rfl
    cases h
    exact Iff.rfl
  · rintro rfl
    cases h
    exact Iff.rfl
  · cases exec_finishes h with
    | completes u code vok _ hv =>
      show vok = false
      by_contra hvok
      rcases hv (by simpa using hvok) with hi | hi
      · exact hver hi
      · exact hchk hi
    | waits _ hw =>
      rw [hw.phase] at hp
      cases hp

/-! ### The row of a command -/

/-- A command writes no operand register outside its row (10_state.md R59). -/
theorem Result.opnd_kept {s u : State} {i : Instr} {code : ErrCode} (h : Result s i code u) :
    OpndsKeptBut s u (opndWrites i) := by
  cases h with
  | zeroize => exact fun r hr => absurd (by cases r <;> decide) hr
  | field _ v hi => exact hi ▸ (onlyOperands_writeC s v).opnd
  | point _ q hi => exact hi ▸ (onlyR_writeR s q).opnd
  | keyPair rest d =>
    intro r hr
    cases r with
    | qx | qy | d => simp [opndWrites] at hr
    | _ => rfl
  | signature _ rest r t hi =>
    rw [hi]
    intro r hr
    cases r with
    | sr | ss => simp at hr
    | _ => rfl
  | sm3fin =>
    intro r hr
    cases r with
    | hd => simp [opndWrites] at hr
    | _ => rfl
  | _ => exact fun _ _ => rfl

/-- A command writes no point flag outside its row (10_state.md R59). -/
theorem Result.pflags_kept {s u : State} {i : Instr} {code : ErrCode} (h : Result s i code u) :
    (.px ∉ opndWrites i → u.pflags.pinf = s.pflags.pinf) ∧ (.qx ∉ opndWrites i → u.pflags.qinf = s.pflags.qinf) ∧
      (.rx ∉ opndWrites i → u.pflags.rinf = s.pflags.rinf) := by
  cases h with
  | zeroize => simp [opndWrites]
  | point _ q hi =>
    rw [hi, State.writeR_eq]
    simp
  | keyPair rest d => simp [opndWrites]
  | _ => exact ⟨fun _ => rfl, fun _ => rfl, fun _ => rfl⟩

/-- The state with other operand registers and point flags. -/
def State.withOperands (s : State) (o : Opnds) (f : PFlags) : State := { s with opnd := o, pflags := f }

@[simp] theorem State.withOperands_len (s : State) (o : Opnds) (f : PFlags) : (s.withOperands o f).len = s.len := rfl
@[simp] theorem State.withOperands_rng (s : State) (o : Opnds) (f : PFlags) : (s.withOperands o f).rng = s.rng := rfl
@[simp] theorem State.withOperands_sm3 (s : State) (o : Opnds) (f : PFlags) : (s.withOperands o f).sm3 = s.sm3 := rfl

/-- The operand registers rs, and the point flags that belong to them, are the same in both states. -/
structure SameOperands (rs : List Opnd) (t t' : State) : Prop where
  opnd : ∀ r, r ∈ rs → t'.opnd.get r = t.opnd.get r
  pinf : .px ∈ rs → t'.pflags.pinf = t.pflags.pinf
  qinf : .qx ∈ rs → t'.pflags.qinf = t.pflags.qinf
  rinf : .rx ∈ rs → t'.pflags.rinf = t.pflags.rinf

/-- Two ends of a command that writes the operand registers rs have the same status, phase, contexts, DBUF and OUTLEN,
and after a success the same written operands. -/
structure SameOutcome (rs : List Opnd) (t t' : State) : Prop where
  status : t'.status = t.status
  phase : t'.phase = t.phase
  sm3 : t'.sm3 = t.sm3
  sm4 : t'.sm4 = t.sm4
  dbuf : t'.dbuf = t.dbuf
  outlen : t'.outlen = t.outlen
  written : t.phase = .idle → t.status.err = false → SameOperands rs t t'

section
variable (s : State) (o : Opnds) (f : PFlags)

/-- Two runs that raise the same error. -/
theorem sameOutcome_raise (rs : List Opnd) {code : ErrCode} (hc : code ≠ .none) :
    SameOutcome rs (s.raise code) ((s.withOperands o f).raise code) :=
  ⟨rfl, rfl, rfl, rfl, rfl, rfl, fun _ he => absurd (of_decide_eq_false he) (not_not.mpr hc)⟩

/-- Two ends that differ in their operands alone, of a command that writes none. -/
theorem sameOutcome_withOperands : SameOutcome [] s (s.withOperands o f) :=
  ⟨rfl, rfl, rfl, rfl, rfl, rfl, fun _ _ => ⟨nofun, nofun, nofun, nofun⟩⟩

/-- Two runs that wait. -/
theorem sameOutcome_wait (rs : List Opnd) : SameOutcome rs s.waitRng (s.withOperands o f).waitRng :=
  ⟨rfl, rfl, rfl, rfl, rfl, rfl, nofun⟩

theorem sameOutcome_writeC (v : Nat) :
    SameOutcome [.c] (s.writeC v).done ((s.withOperands o f).writeC v).done := by
  refine ⟨rfl, rfl, rfl, rfl, rfl, rfl, fun _ _ => ⟨fun r hr => ?_, nofun, nofun, nofun⟩⟩
  rw [List.mem_singleton.mp hr]
  rfl

theorem sameOutcome_writeR (q : Point) :
    SameOutcome [.rx, .ry] (s.writeR q).done ((s.withOperands o f).writeR q).done := by
  rw [State.writeR_eq, State.writeR_eq]
  refine ⟨rfl, rfl, rfl, rfl, rfl, rfl, fun _ _ => ⟨fun r hr => ?_, by simp, by simp, fun _ => rfl⟩⟩
  rcases List.mem_pair.mp hr with rfl | rfl <;> rfl

theorem sameOutcome_writeKeyPair (d : Nat) :
    SameOutcome [.qx, .qy, .d] (s.writeKeyPair d).done ((s.withOperands o f).writeKeyPair d).done := by
  refine ⟨rfl, rfl, rfl, rfl, rfl, rfl, fun _ _ => ⟨fun r hr => ?_, by simp, fun _ => rfl, by simp⟩⟩
  simp only [List.mem_cons, List.not_mem_nil, or_false] at hr
  rcases hr with rfl | rfl | rfl <;> rfl

theorem sameOutcome_writeSig (r t : Nat) :
    SameOutcome [.sr, .ss] (s.writeSig r t).done ((s.withOperands o f).writeSig r t).done := by
  refine ⟨rfl, rfl, rfl, rfl, rfl, rfl, fun _ _ => ⟨fun r hr => ?_, by simp, by simp, by simp⟩⟩
  rcases List.mem_pair.mp hr with rfl | rfl <;> rfl

end

/-- SIGN's attempts read no operand but E and D (43_sm2.md R281). -/
theorem sameOutcome_signLoop (s : State) (o : Opnds) (f : PFlags) (he : o.e = s.opnd.e) (hd : o.d = s.opnd.d)
    (l : List RngAnswer) : SameOutcome [.sr, .ss] (signLoop s l) (signLoop (s.withOperands o f) l) := by
  induction l generalizing s with
  | nil => exact sameOutcome_wait { s with rng := [], nonce := none } o f _
  | cons ans rest ih =>
    cases hk : ans.draw 1 (sm2n - 1) with
    | got k =>
      rw [signLoop_got s rest hk, signLoop_got (s.withOperands o f) rest hk]
      rw [show (s.withOperands o f).opnd.e = s.opnd.e from he, show (s.withOperands o f).opnd.d = s.opnd.d from hd]
      cases signCore (s.opnd.e.toNat % sm2n) s.opnd.d.toNat k with
      | some rt => exact sameOutcome_writeSig { s with rng := rest } o f _ _
      | none =>
        show SameOutcome _ (if s.attempt + 1 < s.retry.toNat then _ else _)
          (if s.attempt + 1 < s.retry.toNat then _ else _)
        split
        · exact ih { s with attempt := s.attempt + 1 } he hd
        · exact sameOutcome_raise { s with rng := rest } o f _ nofun
    | wait =>
      rw [signLoop, signLoop, hk]
      exact sameOutcome_wait { s with rng := rest, nonce := none } o f _
    | fail =>
      rw [signLoop, signLoop, hk]
      exact sameOutcome_raise { s with rng := rest } o f _ nofun

/-- A command of the family that checks its operands first: two runs that pass the same check. -/
theorem sameOutcome_checked {rs : List Opnd} {s u u' : State} {o : Opnds} {f : PFlags} {code : ErrCode} {p : Prop}
    [Decidable p] (hu : SameOutcome rs u u') (hc : code ≠ .none) :
    SameOutcome rs (if p then u else s.raise code) (if p then u' else (s.withOperands o f).raise code) := by
  split
  · exact hu
  · exact sameOutcome_raise s o f rs hc

/-- The checks of an SM4 mode command read no operand (45_sm4.md R361). -/
theorem modeChecks_withOperands (i : Instr) (n : Nat) (s : State) (o : Opnds) (f : PFlags) :
    modeChecks i n (s.withOperands o f) = modeChecks i n s := rfl

theorem ecbRun_withOperands (i : Instr) (g : Block → Block) (s : State) (o : Opnds) (f : PFlags) :
    ecbRun i g (s.withOperands o f) = (ecbRun i g s).withOperands o f := by
  rw [ecbRun, modeChecks_withOperands, State.withOperands_len, ecbRun]
  cases modeChecks i s.len.toNat s <;> rfl

theorem cbcStripped_withOperands (s : State) (y : List Byte) (cv : Block) (o : Opnds) (f : PFlags) :
    (s.withOperands o f).cbcStripped y cv = (s.cbcStripped y cv).withOperands o f := by
  unfold State.cbcStripped
  split <;> rfl

/-- A command whose row is empty takes no notice of the operands. -/
theorem exec_withOperands {i : Instr} {s t : State} (o : Opnds) (f : PFlags) (hr : opndReads i = [])
    (hw : opndWrites i = []) (h : exec i s = .next t) :
    exec i (s.withOperands o f) = .next (t.withOperands o f) := by
  cases i with
  | nop | sm3init | sm4key => cases h; rfl
  | ecbenc | ecbdec => cases h; exact congrArg _ (ecbRun_withOperands _ _ s o f)
  | sm3upd =>
    cases h
    simp only [exec, execSm3upd, apply_ite (State.withOperands · o f)]
    rfl
  | cbcenc pad =>
    cases h
    simp only [exec, execCbcenc, modeChecks_withOperands, State.withOperands_len]
    cases modeChecks (.cbcenc pad) (cbcEncLen pad s.len.toNat) s <;> rfl
  | cbcdec pad =>
    cases h
    simp only [exec, execCbcdec, modeChecks_withOperands, State.withOperands_len]
    cases modeChecks (.cbcdec pad) s.len.toNat s with
    | none =>
      cases pad with
      | false => rfl
      | true => exact congrArg _ (cbcStripped_withOperands s _ _ o f)
    | _ => rfl
  | keygen | sm3fin | zeroize => cases hw
  | _ => cases hr

/-- The point P is in PX, PY and PINF. -/
theorem SameOperands.ptP {rs : List Opnd} {s s' : State} (h : SameOperands rs s s') (hx : .px ∈ rs)
    (hy : .py ∈ rs) : s'.ptP = s.ptP := by
  have hpx : s'.opnd.px = s.opnd.px := h.opnd .px hx
  have hpy : s'.opnd.py = s.opnd.py := h.opnd .py hy
  rw [State.ptP, State.ptP, h.pinf hx, hpx, hpy]

/-- The point Q is in QX, QY and QINF. -/
theorem SameOperands.ptQ {rs : List Opnd} {s s' : State} (h : SameOperands rs s s') (hx : .qx ∈ rs)
    (hy : .qy ∈ rs) : s'.ptQ = s.ptQ := by
  have hqx : s'.opnd.qx = s.opnd.qx := h.opnd .qx hx
  have hqy : s'.opnd.qy = s.opnd.qy := h.opnd .qy hy
  rw [State.ptQ, State.ptQ, h.qinf hx, hqx, hqy]

/-- What a command does depends on no operand register and no point flag outside its row (10_state.md R59). -/
theorem exec_sameOutcome {i : Instr} {s t t' : State} {o : Opnds} {f : PFlags}
    (hr : SameOperands (opndReads i) s (s.withOperands o f)) (h : exec i s = .next t)
    (h' : exec i (s.withOperands o f) = .next t') : SameOutcome (opndWrites i) t t' := by
  cases i with
  | nop | sm3init | sm3upd | sm4key | ecbenc | ecbdec | cbcenc _ | cbcdec _ =>
    rw [exec_withOperands o f rfl rfl h] at h'
    cases h'
    exact sameOutcome_withOperands t o f
  | zeroize =>
    cases h
    cases h'
    exact ⟨rfl, rfl, rfl, rfl, rfl, rfl, fun _ _ => ⟨fun _ _ => rfl, fun _ => rfl, fun _ => rfl, fun _ => rfl⟩⟩
  | fadd m | fsub m | fmul m =>
    have ha : o.a = s.opnd.a := hr.opnd .a (by simp [opndReads])
    have hb : o.b = s.opnd.b := hr.opnd .b (by simp [opndReads])
    cases h
    cases h'
    simp only [fieldBinary, State.withOperands, ha, hb]
    exact sameOutcome_checked (sameOutcome_writeC s o f _) nofun
  | finv m =>
    have ha : o.a = s.opnd.a := hr.opnd .a (by simp [opndReads])
    cases h
    cases h'
    simp only [State.withOperands, ha]
    exact sameOutcome_checked (sameOutcome_writeC s o f _) nofun
  | fred m =>
    have ha : o.a = s.opnd.a := hr.opnd .a (by simp [opndReads])
    cases h
    cases h'
    simp only [State.withOperands, ha]
    exact sameOutcome_writeC s o f _
  | padd =>
    cases h
    cases h'
    rw [hr.ptP (by simp [opndReads]) (by simp [opndReads]), hr.ptQ (by simp [opndReads]) (by simp [opndReads])]
    exact sameOutcome_checked (sameOutcome_writeR s o f _) nofun
  | pdbl =>
    cases h
    cases h'
    rw [hr.ptP (by simp [opndReads]) (by simp [opndReads])]
    exact sameOutcome_checked (sameOutcome_writeR s o f _) nofun
  | pmul =>
    have hk : (s.withOperands o f).opnd.k = s.opnd.k := hr.opnd .k (by simp [opndReads])
    cases h
    cases h'
    rw [hr.ptP (by simp [opndReads]) (by simp [opndReads]), hk]
    exact sameOutcome_checked (sameOutcome_writeR s o f _) nofun
  | pmulg =>
    have hk : (s.withOperands o f).opnd.k = s.opnd.k := hr.opnd .k (by simp [opndReads])
    cases h
    cases h'
    rw [hk]
    exact sameOutcome_writeR s o f _
  | pchk =>
    cases h
    cases h'
    rw [hr.ptP (by simp [opndReads]) (by simp [opndReads])]
    exact sameOutcome_withOperands (s.complete .none _) o f
  | verify =>
    have he : (s.withOperands o f).opnd.e = s.opnd.e := hr.opnd .e (by simp [opndReads])
    have hsr : (s.withOperands o f).opnd.sr = s.opnd.sr := hr.opnd .sr (by simp [opndReads])
    have hss : (s.withOperands o f).opnd.ss = s.opnd.ss := hr.opnd .ss (by simp [opndReads])
    cases h
    cases h'
    rw [he, hsr, hss, hr.ptQ (by simp [opndReads]) (by simp [opndReads])]
    exact sameOutcome_withOperands (s.complete .none _) o f
  | keygen =>
    cases h
    cases h'
    rw [State.withOperands_rng]
    cases s.rng with
    | nil => exact sameOutcome_wait s o f _
    | cons ans rest =>
      dsimp only
      cases ans.draw 1 (sm2n - 2) with
      | got d => exact sameOutcome_writeKeyPair { s with rng := rest } o f d
      | wait => exact sameOutcome_wait { s with rng := rest } o f _
      | fail => exact sameOutcome_raise { s with rng := rest } o f _ nofun
  | sign =>
    have he : (s.withOperands o f).opnd.e = s.opnd.e := hr.opnd .e (by simp [opndReads])
    have hd : (s.withOperands o f).opnd.d = s.opnd.d := hr.opnd .d (by simp [opndReads])
    cases h
    cases h'
    rw [hd]
    exact sameOutcome_checked (sameOutcome_signLoop s o f he hd _) nofun
  | signk =>
    have he : (s.withOperands o f).opnd.e = s.opnd.e := hr.opnd .e (by simp [opndReads])
    have hd : (s.withOperands o f).opnd.d = s.opnd.d := hr.opnd .d (by simp [opndReads])
    have hk : (s.withOperands o f).opnd.k = s.opnd.k := hr.opnd .k (by simp [opndReads])
    cases h
    cases h'
    rw [hd, hk, he]
    refine sameOutcome_checked ?_ nofun
    cases signCore (s.opnd.e.toNat % sm2n) s.opnd.d.toNat s.opnd.k.toNat with
    | some rt => exact sameOutcome_writeSig s o f _ _
    | none => exact sameOutcome_raise s o f _ nofun
  | sm3fin =>
    cases h
    cases h'
    rw [State.withOperands_sm3]
    split
    · exact sameOutcome_raise s o f _ nofun
    · refine ⟨rfl, rfl, rfl, rfl, rfl, rfl, fun _ _ => ⟨fun r hr => ?_, nofun, nofun, nofun⟩⟩
      rw [List.mem_singleton.mp hr]
      rfl

/-- Settles O25: the writes by `Result`, the reads by comparing two runs. -/
theorem commandsUseOnlyTheirRow : Obligations.CommandsUseOnlyTheirRow := by
  refine ⟨fun i s t h => ?_, fun i s t t' o f ho hp hq h h' => ?_⟩
  · cases exec_finishes h with
    | completes u code vok hu => exact ⟨hu.opnd_kept, hu.pflags_kept⟩
    | waits _ hw =>
      have hd := hw.data
      rw [OpndsKeptBut, hd.opnd, hd.pflags]
      exact ⟨fun _ _ => rfl, fun _ => rfl, fun _ => rfl, fun _ => rfl⟩
  · have hrx : .rx ∉ opndReads i := by cases i <;> simp [opndReads]
    have hr : SameOperands (opndReads i) s (s.withOperands o f) := ⟨ho, hp, hq, fun h => absurd h hrx⟩
    obtain ⟨hst, hph, hm, hc, hdb, hout, hres⟩ := exec_sameOutcome hr h h'
    refine ⟨hst, hph, hm, hc, hdb, hout, fun hidle herr => ?_⟩
    obtain ⟨hopnd, hpinf, hqinf, hrinf⟩ := hres hidle herr
    exact ⟨hopnd, hpinf, hqinf, hrinf⟩

end Sys2Proof.Machine
end

section
/-! The bus: a rejected access, the idle read of each register, and the bytes of a DBUF word (20_memory.md R101, R105,
R122). -/
namespace Sys2Proof.Machine

/-! ### Rejected accesses -/

/-- The window takes no misaligned, narrow, wide, partial or outside access (20_memory.md R105). -/
theorem not_accepted {a : Access}
    (h : a.off % 4 ≠ 0 ∨ a.bits ≠ 32 ∨ a.strobes = false ∨ a.off < 0 ∨ 8192 ≤ a.off) : ¬ a.accepted = true := by
  intro hacc
  obtain ⟨off, hlt, h4, rfl | ⟨v, rfl⟩⟩ := accepted_cases hacc
  all_goals
    simp only [Access.rd, Access.wr, ne_eq, not_true_eq_false, Bool.true_eq_false, false_or] at h
    omega

/-- Settles O19: the bus answers an access that is not accepted with the error response alone. -/
theorem busErrorHasNoEffect : Obligations.BusErrorHasNoEffect := by
  intro s ts a hts h
  rw [step_host hts, State.busAccess, if_neg (not_accepted h)]

/-! ### Idle reads -/

/-- DBUF begins at 0x1000 (10_state.md R60). -/
theorem regAt_ne_dbuf {off : Nat} (h : off < 0x1000) (x : Nat) : regAt off ≠ .dbuf x := by
  unfold regAt regAbove
  repeat' split
  all_goals exact Reg.noConfusion

/-- A listed read below DBUF, while idle, returns the word of the register there and has no other effect. -/
theorem step_read_idle {s : State} {off : Nat} {ts : List Turn} {r : Reg} (hr : HostReads s off ts)
    (hb : s.status.busy = false) (hoff : off < 0x1000 ∧ off % 4 = 0) (hreg : regAt off = r) :
    step s = .next (s.returned ts ({ s with turns := ts }.regRead r)) := by
  subst hreg
  obtain ⟨hlt, h4⟩ := hoff
  rw [step_read hr (by omega) h4, hostRead_idle { s with turns := ts } _ hb (regAt_ne_dbuf hlt)]
  rfl

/-- CTRL reads as IE in bit 2 (10_state.md R34). -/
theorem ctrlWord_eq (ie : Bool) : ctrlWord ie = if ie then 4 else 0 := by
  cases ie <;> rfl

/-- IRQSTAT reads as DONE in bit 0 (10_state.md R46). -/
theorem irqstatWord_eq (d : Bool) : irqstatWord d = if d then 1 else 0 := by
  cases d <;> rfl

/-- PFLAGS reads as PINF, QINF and RINF from bit 0 up (10_state.md R50). -/
theorem pflagsWord_toNat (f : PFlags) :
    (pflagsWord f).toNat = f.pinf.toNat + 2 * f.qinf.toNat + 4 * f.rinf.toNat := by
  obtain ⟨p, q, r⟩ := f
  cases p <;> cases q <;> cases r <;> rfl

/-- Settles O13: offset by offset, by the register that stands there. -/
theorem idleRegisterReads : Obligations.IdleRegisterReads := by
  intro s ts off hr hb
  refine ⟨?id, ?ctrl, ?cmd, ?irqstat, ?src, ?dst, ?len, ?outlen, ?retry, ?pflags, ?cnth, ?cntl, ?pend, ?v, ?key,
    ?cv, ?rk⟩
  case id | cmd | src | dst | len | outlen | retry | cnth | cntl =>
    rintro rfl
    exact step_read_idle hr hb (by omega) rfl
  case ctrl =>
    rintro rfl
    rw [← ctrlWord_eq]
    exact step_read_idle hr hb (by omega) rfl
  case irqstat =>
    rintro rfl
    rw [← irqstatWord_eq]
    exact step_read_idle hr hb (by omega) rfl
  case pflags =>
    rintro rfl
    exact ⟨pflagsWord s.pflags, step_read_idle hr hb (by omega) rfl, pflagsWord_toNat _⟩
  case pend =>
    rintro rfl
    refine ⟨BitVec.ofNat 32 s.sm3.plen.val, step_read_idle hr hb (by omega) rfl, ?_⟩
    rw [BitVec.toNat_ofNat, Nat.mod_eq_of_lt (s.sm3.plen.isLt.trans (by decide))]
  case v =>
    rintro i rfl
    exact step_read_idle hr hb (by omega) (regAt_sm3v i)
  case key =>
    rintro i rfl
    exact step_read_idle hr hb (by omega) (regAt_sm4key i)
  case cv =>
    rintro i rfl
    exact step_read_idle hr hb (by omega) (regAt_sm4cv i)
  case rk =>
    rintro i rfl
    exact step_read_idle hr hb (by omega) (regAt_sm4rk i)

/-! ### DBUF words -/

/-- The bytes of a word, the first the most significant (20_memory.md R101). -/
theorem getElem_w2os (w : Word) {i : Nat} (hi : i < (w2os w).length) :
    (w2os w)[i] = w.extractLsb' (24 - 8 * i) 8 := by
  have h4 : i < 4 := hi
  interval_cases i <;> rfl

/-- The word that a read of DBUF returns is made of the four bytes from its offset on. -/
theorem w2os_regRead_dbuf (s : State) (x : Nat) : w2os (s.regRead (.dbuf x)) = s.memRead x 4 :=
  w2os_be32 _ _ _ _

/-- Byte i of the word that a read of DBUF returns. -/
theorem regRead_dbuf_byte (s : State) (x : Nat) {i : Nat} (hi : i < 4) :
    (s.regRead (.dbuf x)).extractLsb' (24 - 8 * i) 8 = s.byteAt (x + i) i := by
  rw [← getElem_w2os _ (by simpa using hi)]
  simp only [w2os_regRead_dbuf, State.getElem_memRead]

/-- A read of an unspecified byte gives the coming free value. -/
theorem State.byteAt_of_unspecified {s : State} {x : Nat} (h : Memory.read s.dbuf x = none) (i : Nat) :
    s.byteAt x i = Config.freeByte (s.draws + i) := by
  simp [State.byteAt, h]

/-- An idle read of DBUF returns the word there and uses four draws (log entry 5). -/
theorem hostRead_dbuf_idle (s : State) (x : Nat) (hb : s.status.busy = false) :
    s.hostRead (.dbuf x) = { s.drew 4 with resp := some ⟨false, s.regRead (.dbuf x)⟩ } := by
  rw [State.hostRead, hb]
  rfl

/-- Settles O16: a write stores the bytes of its word, a read returns the word of the four bytes. -/
theorem dbufWordsAreBigEndian : Obligations.DbufWordsAreBigEndian := by
  refine fun s ts j v hj hb => ⟨fun hw => ?write, fun hr => ?read⟩
  case write =>
    have stored : ∀ i (hi : i < (w2os v).length),
        Memory.read (Memory.writeBytes s.dbuf (4 * j) (w2os v)) (4 * j + i) = some (v.extractLsb' (24 - 8 * i) 8) :=
      fun i hi => by rw [Memory.read_writeBytes_inside _ _ _ hi, getElem_w2os]
    refine ⟨Memory.writeBytes s.dbuf (4 * j) (w2os v), ?_, stored 0 (by simp), stored 1 (by simp),
      stored 2 (by simp), stored 3 (by simp), fun a ha => Memory.read_writeBytes_outside _ _ _ ha⟩
    rw [step_write_idle hw hb (by omega), regAt_dbuf]
    rfl
  case read =>
    refine ⟨s.regRead (.dbuf (4 * j)), ?_, fun i hi => ⟨fun b h => ?_, fun h => ?_⟩⟩
    · rw [step_read hr (by omega) (by omega), regAt_dbuf, hostRead_dbuf_idle { s with turns := ts } _ hb]
      rfl
    · exact (regRead_dbuf_byte s _ hi).trans (State.byteAt_of_read h i)
    · exact (regRead_dbuf_byte s _ hi).trans (State.byteAt_of_unspecified h i)

end Sys2Proof.Machine
end

section
/-! The command word: encoding and decoding are inverse, the words that decode, and the step of a word that does not
(30_encoding.md R141-R152). -/
namespace Sys2Proof.Machine

/-- The law of each command as syntax, for all of them. -/
theorem encodesWellFormed : ∀ i : Instr, Laws.EncodesWellFormed.Statement i :=
  open Laws.EncodesWellFormed in fun
    | .nop => nop
    | .zeroize => zeroize
    | .fadd m => fadd m
    | .fsub m => fsub m
    | .fmul m => fmul m
    | .finv m => finv m
    | .fred m => fred m
    | .padd => padd
    | .pdbl => pdbl
    | .pmul => pmul
    | .pmulg => pmulg
    | .pchk => pchk
    | .keygen => keygen
    | .sign => sign
    | .signk => signk
    | .verify => verify
    | .sm3init => sm3init
    | .sm3upd => sm3upd
    | .sm3fin => sm3fin
    | .sm4key => sm4key
    | .ecbenc => ecbenc
    | .ecbdec => ecbdec
    | .cbcenc pad => cbcenc pad
    | .cbcdec pad => cbcdec pad

theorem Instr.wellFormed_eq_true (i : Instr) : i.wellFormed = true :=
  (encodesWellFormed i).1

theorem unpackCmd_encode (i : Instr) : unpackCmd (encode i) = i.fields :=
  (encodesWellFormed i).2

/-! ### Encoding and decoding are inverse -/

/-- The encoder leaves RSV zero (30_encoding.md R146). -/
@[simp] theorem fields_rsv (i : Instr) : i.fields.rsv = 0 := by
  cases i <;> rfl

/-- A command's OP selects its own row, and the row's mode bits give back its arguments (30_encoding.md R147). -/
theorem decodeOp_of_fields (i : Instr) : decodeOp i.fields = .ok i := by
  cases i with
  | fadd m | fsub m | fmul m | finv m | fred m => cases m <;> rfl
  | _ => rfl

/-- RSV is checked before the row (30_encoding.md R146, R148). -/
theorem decode_of_rsv_zero {w : Word} (h : (unpackCmd w).rsv = 0) : decode w = decodeOp (unpackCmd w) :=
  if_pos h

theorem decode_of_rsv_ne_zero {w : Word} (h : (unpackCmd w).rsv ≠ 0) : decode w = .error .reservedBits :=
  if_neg h

theorem decode_encode (i : Instr) : decode (encode i) = .ok i := by
  rw [decode_of_rsv_zero (by rw [unpackCmd_encode, fields_rsv]), unpackCmd_encode, decodeOp_of_fields]

/-- A word decodes to the one command whose word it is (30_encoding.md R148). -/
theorem decode_eq_ok_iff {w : Word} {i : Instr} : decode w = .ok i ↔ encode i = w := by
  refine ⟨fun h => ?_, fun h => h ▸ decode_encode i⟩
  by_cases hr : (unpackCmd w).rsv = 0
  · rw [decode_of_rsv_zero hr] at h
    rw [encode, decodeOp_fields _ i hr h, pack_unpack]
  · rw [decode_of_rsv_ne_zero hr] at h
    cases h

/-- Settles O2: a command is well formed as syntax, and `decode_eq_ok_iff` is both directions of the inverse. -/
theorem decodeAndEncodeAgree : Obligations.DecodeAndEncodeAgree :=
  ⟨fun i => ⟨Instr.wellFormed_eq_true i, decode_encode i⟩, fun _ _ => decode_eq_ok_iff.mp⟩

/-! ### The words that decode -/

/-- A field OP with PAD = 0 selects a row, whatever MSEL is (30_encoding.md R143). -/
theorem decodeOp_field {f : CmdFields} (hop : f.op ∈ ([0x10, 0x11, 0x12, 0x13, 0x14] : List Byte))
    (hp : f.pad = false) : ∃ i, decodeOp f = .ok i := by
  obtain ⟨rsv, pad, msel, op⟩ := f
  subst hp
  fin_cases hop <;> exact ⟨_, rfl⟩

/-- A CBC OP with MSEL = 0 selects a row, whatever PAD is (30_encoding.md R144). -/
theorem decodeOp_cbc {f : CmdFields} (hop : f.op ∈ ([0x53, 0x54] : List Byte)) (hm : f.msel = false) :
    ∃ i, decodeOp f = .ok i := by
  obtain ⟨rsv, pad, msel, op⟩ := f
  subst hm
  fin_cases hop <;> exact ⟨_, rfl⟩

/-- Every other assigned OP selects a row with MSEL = PAD = 0 (30_encoding.md R147). -/
theorem decodeOp_plain {f : CmdFields}
    (hop : f.op ∈ ([0x00, 0x01, 0x20, 0x21, 0x22, 0x23, 0x24, 0x30, 0x31, 0x32, 0x33, 0x40, 0x41, 0x42, 0x50, 0x51,
      0x52] : List Byte)) (hm : f.msel = false) (hp : f.pad = false) : ∃ i, decodeOp f = .ok i := by
  obtain ⟨rsv, pad, msel, op⟩ := f
  subst hm hp
  fin_cases hop <;> exact ⟨_, rfl⟩

theorem LegalWord.decode_ok {w : Word} (h : LegalWord w) : ∃ i, decode w = .ok i := by
  obtain ⟨hr, ⟨hop, hp⟩ | ⟨hop, hm⟩ | ⟨hop, hm, hp⟩⟩ := h
  all_goals rw [decode_of_rsv_zero hr]
  · exact decodeOp_field hop hp
  · exact decodeOp_cbc hop hm
  · exact decodeOp_plain hop hm hp

theorem legalWord_encode (i : Instr) : LegalWord (encode i) := by
  unfold LegalWord
  cases i with
  | fadd m | fsub m | fmul m | finv m | fred m => cases m <;> decide
  | cbcenc pad | cbcdec pad => cases pad <;> decide
  | _ => decide

/-- Settles O3: the legal words are the words of the commands, by `LegalWord.decode_ok` and `legalWord_encode`. -/
theorem onlyLegalWordsDecode : Obligations.OnlyLegalWordsDecode := by
  refine fun w => ⟨fun h => ?legal, fun h => ?illegal, decode_of_rsv_ne_zero⟩
  case legal =>
    obtain ⟨i, hi⟩ := h.decode_ok
    exact ⟨i, hi, decode_eq_ok_iff.mp hi⟩
  case illegal =>
    cases hd : decode w with
    | ok i => exact absurd (decode_eq_ok_iff.mp hd ▸ legalWord_encode i) h
    | error r => exact ⟨r, rfl⟩

/-- Settles O1: each CMD value of the table is the encoding of its command. -/
theorem commandWordsDecode : Obligations.CommandWordsDecode := by
  simp only [Obligations.CommandWordsDecode, decode_eq_ok_iff]
  decide

/-! ### The step of an ILLEGAL word -/

/-- With no turn listed, the engine moves (log entry 1). -/
theorem step_no_turns {s : State} (h : s.turns = []) : step s = engineStep s := by
  rw [step, h]

/-- A listed engine turn is used up (log entry 1). -/
theorem step_engine {s : State} {ts : List Turn} (h : s.turns = .engine :: ts) :
    step s = engineStep { s with turns := ts } := by
  rw [step, h]
  rfl

/-- A running command word that decodes to no command raises ILLEGAL_CMD (30_encoding.md R149). -/
theorem engineStep_illegal {s : State} {r : DecodeReject} (hp : s.phase ≠ .idle) (hd : decode s.cmdl = .error r) :
    engineStep s = .next (s.raise .illegalCmd) := by
  rw [engineStep, if_neg hp, hd]

/-- Settles O5: the engine's step is an error that writes nothing, whichever way it comes to move. -/
theorem illegalWordCompletesWithIllegalCmd : Obligations.IllegalWordCompletesWithIllegalCmd := by
  refine fun s r hp hd => ⟨fun h => ?_, fun ts h => ?_⟩
  · rw [step_no_turns h, engineStep_illegal hp hd]
    exact raises s .illegalCmd
  · rw [step_engine h, engineStep_illegal (s := { s with turns := ts }) hp hd]
    exact raises { s with turns := ts } .illegalCmd

end Sys2Proof.Machine
end

section
/-! The control rules of a command (40_control.md R170-R183): its start, the engine's step, how it ends, what an error
and key material keep, and NOP and ZEROIZE. -/
namespace Sys2Proof.Machine

/-! ### How a step and a command end -/

/-- Every turn answers a next state. -/
theorem turnStep_next (s : State) (u : Turn) : ∃ t, turnStep s u = .next t := by
  cases u with
  | engine => exact engineStep_next s
  | host a => exact ⟨_, rfl⟩
  | both a =>
    simp only [turnStep, jointStep]
    split
    · exact ⟨_, rfl⟩
    · exact engineStep_next _
  | hardReset => exact ⟨_, rfl⟩

/-- Every step answers a next state, whichever agent moves. -/
theorem step_next (s : State) : ∃ t, step s = .next t := by
  unfold step
  split
  · exact engineStep_next s
  · exact turnStep_next _ _

/-- A command completes, or it is KEYGEN or SIGN and waits on the entropy source (40_control.md R173, R175). -/
theorem exec_completed_or_waits {i : Instr} {s t : State} (h : exec i s = .next t) :
    (∃ code vok, Completed t code vok) ∨ ((i = .keygen ∨ i = .sign) ∧ Waits s t) := by
  cases exec_ends i s t h with
  | completes u code vok => exact .inl ⟨code, vok, completed_complete u code vok⟩
  | keygenWaits rest hi => exact .inr ⟨.inl hi, kg_waits s rest⟩
  | signWaits rest made hi => exact .inr ⟨.inr hi, sg_waits s rest made⟩

/-- Settles O22: every agent's turn answers a next state, and `Ends` names the two commands that can wait. -/
theorem commandsCompleteOrWait : Obligations.CommandsCompleteOrWait := by
  refine ⟨step_next, fun i s => ?_⟩
  obtain ⟨t, ht⟩ := exec_next i s
  exact ⟨t, ht, exec_completed_or_waits ht⟩

/-! ### Errors and key material -/

/-- Whether a command is an SM4 mode command does not depend on LEN. -/
theorem modeOutLen_isSome (i : Instr) (m n : Nat) : (modeOutLen i m).isSome = (modeOutLen i n).isSome := by
  cases i <;> rfl

/-- An error writes no operand, no point flag and no SM3 or SM4 register (40_control.md R176). -/
theorem Result.error_registers {s u : State} {i : Instr} {code : ErrCode} (h : Result s i code u)
    (hc : code ≠ .none) : u.opnd = s.opnd ∧ u.pflags = s.pflags ∧ u.sm3 = s.sm3 ∧ u.sm4 = s.sm4 := by
  cases h with
  | badPadding | badMode | error => exact ⟨rfl, rfl, rfl, rfl⟩
  | _ => exact absurd rfl hc

/-- An error writes DBUF only as the zero fill of CBCDEC.PAD (45_sm4.md R375). -/
theorem Result.error_dbuf {s u : State} {i : Instr} {code : ErrCode} (h : Result s i code u) (hc : code ≠ .none)
    (hpad : ¬(i = .cbcdec true ∧ code = .validation)) : u.dbuf = s.dbuf := by
  cases h with
  | badPadding => exact absurd ⟨rfl, rfl⟩ hpad
  | badMode | error => rfl
  | _ => exact absurd rfl hc

/-- An error clears OUTLEN for an SM4 mode command and keeps it for every other (45_sm4.md R361). -/
theorem Result.error_outlen {s u : State} {i : Instr} {code : ErrCode} (h : Result s i code u) (hc : code ≠ .none) :
    u.outlen = if (modeOutLen i s.len.toNat).isSome then 0 else s.outlen := by
  cases h with
  | badPadding => rfl
  | badMode _ _ hi => rw [if_pos hi]
  | error _ _ _ hi => rw [hi]; rfl
  | _ => exact absurd rfl hc

/-- Settles O27: by the results that carry an error code. -/
theorem errorsWriteNoResult : Obligations.ErrorsWriteNoResult := by
  intro i s t h hp he
  cases exec_finishes h with
  | completes u code vok hu =>
    have hc : code ≠ .none := of_decide_eq_true he
    obtain ⟨hopnd, hpflags, hsm3, hsm4⟩ := hu.error_registers hc
    rw [modeOutLen_isSome i 0 s.len.toNat]
    exact ⟨hopnd, hpflags, hsm3, hsm4, hu.error_dbuf hc, hu.error_outlen hc⟩
  | waits _ hw =>
    rw [hw.phase] at hp
    cases hp

/-- The private scalar D is in the row of KEYGEN and ZEROIZE alone (10_state.md R59). -/
theorem d_not_mem_opndWrites {i : Instr} (hz : i ≠ .zeroize) (hk : i ≠ .keygen) : .d ∉ opndWrites i := by
  cases i with
  | zeroize => exact absurd rfl hz
  | keygen => exact absurd rfl hk
  | _ => simp [opndWrites]

/-- Only ZEROIZE writes SM4KEY, and only ZEROIZE and SM4KEY write the round keys (45_sm4.md R360, R361). -/
theorem Result.sm4Keys_kept {s u : State} {i : Instr} {code : ErrCode} (h : Result s i code u) (hz : i ≠ .zeroize) :
    u.sm4.key = s.sm4.key ∧ (i ≠ .sm4key → u.sm4.rk = s.sm4.rk) := by
  cases h with
  | zeroize => exact absurd rfl hz
  | sm4key => exact ⟨rfl, fun hk => absurd rfl hk⟩
  | point => simp
  | _ => exact ⟨rfl, fun _ => rfl⟩

/-- SM3UPD and SM3FIN write an ACTIVE context alone, so a finished hash is written only by SM3INIT and ZEROIZE
(44_sm3.md R332). -/
theorem Result.sm3_final_kept {s u : State} {i : Instr} {code : ErrCode} (h : Result s i code u)
    (hf : s.sm3.st = .final) (hz : i ≠ .zeroize) (hi : i ≠ .sm3init) : u.sm3 = s.sm3 := by
  cases h with
  | zeroize => exact absurd rfl hz
  | sm3init => exact absurd rfl hi
  | sm3upd hst | sm3fin hst => simp [hf] at hst
  | point => exact State.writeR_sm3 _ _
  | _ => rfl

/-- Settles O31: by the results of the commands that write a key or the SM3 context. -/
theorem onlyZeroizeClearsKeys : Obligations.OnlyZeroizeClearsKeys := by
  intro i s t h hz
  cases exec_finishes h with
  | completes u code vok hu =>
    obtain ⟨hkey, hrk⟩ := hu.sm4Keys_kept hz
    exact ⟨fun hk => hu.opnd_kept .d (d_not_mem_opndWrites hz hk), hkey, hrk,
      fun hf hi => congrArg Sm3Ctx.v (hu.sm3_final_kept hf hz hi)⟩
  | waits _ hw =>
    have hd := hw.data
    rw [hd.opnd, hd.sm4, hd.sm3]
    exact ⟨fun _ => rfl, rfl, fun _ => rfl, fun _ _ => rfl⟩

/-! ### The start, and the step of a running command -/

/-- A running command word that decodes is executed (40_control.md R172). -/
theorem engineStep_running {s : State} {i : Instr} (hp : s.phase ≠ .idle) (hd : decode s.cmdl = .ok i) :
    engineStep s = exec i s := by
  rw [engineStep, if_neg hp, hd]

/-- Settles O4: the engine moves on its turn, listed or not, and runs the decoded command. -/
theorem stepRunsTheDecodedCommand : Obligations.StepRunsTheDecodedCommand := by
  refine fun s i hp hd => ⟨fun h => ?_, fun ts h => ?_⟩
  · rw [step_no_turns h, engineStep_running hp hd]
  · rw [step_engine h, engineStep_running (s := { s with turns := ts }) hp hd]

/-- A write of CTRL with START = 1 and SRST = 0, while idle, stores IE and starts the command (20_memory.md R122). -/
theorem writeCtrl_start {s : State} {v : Word} (h0 : v.getLsbD 0 = true) (h1 : v.getLsbD 1 = false)
    (hb : s.status.busy = false) : s.writeCtrl v = { s with ie := v.getLsbD 2 }.startCommand := by
  rw [State.writeCtrl, h0, h1, hb]
  rfl

/-- Settles O7: the write is a start, whose fields `State.startCommand` gives. -/
theorem startLatchesTheCommand : Obligations.StartLatchesTheCommand := by
  intro s ts v hw h0 h1 hb
  refine ⟨{ { s with turns := ts, ie := v.getLsbD 2 }.startCommand with resp := some ⟨false, 0⟩ }, ?_, ?_⟩
  · rw [step_write hw (by omega) (by omega), regAt_eq_ctrl.mpr rfl, hostWrite_ctrl,
      writeCtrl_start (s := { s with turns := ts }) h0 h1 hb]
  · simp

/-! ### NOP and ZEROIZE -/

/-- Settles O32: NOP completes on the state itself. -/
theorem nopCompletes : Obligations.NopCompletes :=
  ⟨decode_eq_ok_iff.mpr (by decide), fun s =>
    ⟨s.done, rfl, completed_complete s _ _, dataKept_complete s _ _, rfl⟩⟩

/-- The reset value of every operand register is 0 (10_state.md R57). -/
theorem Opnds.get_reset (r : Opnd) : Opnds.reset.get r = 0 := by
  cases r <;> rfl

/-- Settles O33: ZEROIZE completes on the zeroized state, whose registers hold their reset values. -/
theorem zeroizeClearsAll : Obligations.ZeroizeClearsAll := by
  refine ⟨decode_eq_ok_iff.mpr (by decide), fun s => ?_⟩
  have h : exec .zeroize s = .next s.zeroized.done := rfl
  refine ⟨_, h, completed_complete _ _ _, exec_hostKept h, Opnds.get_reset, rfl, rfl, rfl, ?rk, rfl, rfl, rfl, rfl,
    ?pbuf, rfl, ?dbuf, rfl, rfl⟩
  case rk => exact fun i => Vector.getElem_replicate i.isLt
  case pbuf => exact fun i => Vector.getElem_replicate i.isLt
  case dbuf =>
    intro a ha
    rw [State.done, State.complete_dbuf, State.zeroized_dbuf]
    exact Memory.read_zeroed ha

end Sys2Proof.Machine
end

section
/-! The field commands (41_field.md R210-R214): C, written alone, holds the exact result modulo M, and an operand out
of range is an error that writes nothing. -/
namespace Sys2Proof.Machine

/-! ### The result in C -/

/-- A residue of the modulus written to C completes the command, is held exactly, and changes C alone
(41_field.md R203). -/
theorem writeC_done {m : Modulus} {v : Nat} (s : State) (hv : v < modulus m) :
    Completed (s.writeC v).done .none false ∧ OnlyC s (s.writeC v).done ∧ (s.writeC v).done.opnd.c.toNat = v :=
  ⟨completed_complete _ _ _, onlyOperands_writeC s v, writeC_c s v (hv.trans (modulus_lt m))⟩

/-! ### Two operands -/

/-- On canonical operands a two-operand command writes its exact value modulo M (41_field.md R201, R203). -/
theorem fieldBinary_completes {m : Modulus} {s : State} (f : Int → Int → Int) (ha : s.opnd.a.toNat < modulus m)
    (hb : s.opnd.b.toNat < modulus m) :
    Completed (fieldBinary m f s) .none false ∧ OnlyC s (fieldBinary m f s) ∧
      ((fieldBinary m f s).opnd.c.toNat : Int) = f s.opnd.a.toNat s.opnd.b.toNat % modulus m := by
  have hm : 0 < modulus m := (prime_modulus m).pos
  rw [fieldBinary_ok m f s ha hb]
  obtain ⟨hcompleted, honly, hc⟩ := writeC_done s (zmod_lt (f s.opnd.a.toNat s.opnd.b.toNat) hm)
  exact ⟨hcompleted, honly, by rw [hc, zmod_cast _ hm]⟩

/-- Settles O34: the three commands are `fieldBinary` of their operation. -/
theorem fieldAddSubMul : Obligations.FieldAddSubMul := by
  refine ⟨?words, fun m s => ⟨fun ha hb => ?inRange, fun h i hi => ?outOfRange⟩⟩
  case words =>
    simp only [decode_eq_ok_iff]
    decide
  case inRange =>
    exact ⟨⟨_, rfl, fieldBinary_completes (fun a b => a + b) ha hb⟩,
      ⟨_, rfl, fieldBinary_completes (fun a b => a - b) ha hb⟩,
      ⟨_, rfl, fieldBinary_completes (fun a b => a * b) ha hb⟩⟩
  case outOfRange =>
    have hexec : exec i s = .next (s.raise .invalidParams) := by
      rcases hi with rfl | rfl | rfl <;> exact congrArg _ (fieldBinary_bad m _ s h)
    rw [hexec]
    exact raises s .invalidParams

/-! ### The inverse -/

/-- FINV of 0 < A < M writes the inverse (41_field.md R213). -/
theorem exec_finv_inRange {m : Modulus} {s : State} (h0 : 0 < s.opnd.a.toNat) (ha : s.opnd.a.toNat < modulus m) :
    exec (.finv m) s = .next (s.writeC (invMod (modulus m) s.opnd.a.toNat)).done := by
  simp [exec, execFinv, canonical, ha, h0.ne']

/-- FINV of any other A is an error (41_field.md R213). -/
theorem exec_finv_outOfRange {m : Modulus} {s : State} (h : s.opnd.a.toNat = 0 ∨ modulus m ≤ s.opnd.a.toNat) :
    exec (.finv m) s = .next (s.raise .invalidParams) := by
  rw [exec, execFinv, if_neg]
  simp only [canonical, Bool.and_eq_true, decide_eq_true_eq]
  omega

/-- Settles O35: M is prime, so `invMod` is the inverse of every A in (0, M). -/
theorem fieldInverse : Obligations.FieldInverse := by
  refine ⟨?words, fun m s => ⟨fun h0 ha => ?inRange, fun h => ?outOfRange⟩⟩
  case words =>
    simp only [decode_eq_ok_iff]
    decide
  case inRange =>
    have hp := prime_modulus m
    have hne : s.opnd.a.toNat % modulus m ≠ 0 := by rw [Nat.mod_eq_of_lt ha]; exact h0.ne'
    have hlt := invMod_lt (modulus m) s.opnd.a.toNat hp.pos
    obtain ⟨hcompleted, honly, hc⟩ := writeC_done s hlt
    refine ⟨_, exec_finv_inRange h0 ha, hcompleted, honly, ?_⟩
    rw [hc]
    exact ⟨invMod_pos hp (modulus_lt m) hne, hlt, mul_invMod hp (modulus_lt m) hne⟩
  case outOfRange =>
    rw [exec_finv_outOfRange h]
    exact raises s .invalidParams

/-! ### The reduction -/

/-- Settles O36: the remainder by M is a residue, whatever A is. -/
theorem fieldReduce : Obligations.FieldReduce := by
  refine ⟨?words, fun m s => ⟨_, rfl, writeC_done s (Nat.mod_lt s.opnd.a.toNat (prime_modulus m).pos)⟩⟩
  case words =>
    simp only [decode_eq_ok_iff]
    decide

end Sys2Proof.Machine
end

section
/-! The curve of points: the addition formulas are a commutative group law on the valid points, and the double-and-add
loop is repeated addition (42_curve.md R231-R236). Each equation between points is one in Mathlib's group of the curve,
carried back by `toCurve_inj`. -/
namespace Sys2Proof.Machine

/-! ### The group law -/

section
variable [Fact (Nat.Prime sm2p)] {P Q R : Point}

theorem ecAdd_comm (hP : pointValid P = true) (hQ : pointValid Q = true) : ecAdd P Q = ecAdd Q P := by
  obtain ⟨hPQ, ePQ⟩ := ecAdd_spec hP hQ
  obtain ⟨hQP, eQP⟩ := ecAdd_spec hQ hP
  exact toCurve_inj hPQ hQP (by rw [ePQ, eQP, add_comm])

theorem ecAdd_assoc (hP : pointValid P = true) (hQ : pointValid Q = true) (hR : pointValid R = true) :
    ecAdd (ecAdd P Q) R = ecAdd P (ecAdd Q R) := by
  obtain ⟨hPQ, ePQ⟩ := ecAdd_spec hP hQ
  obtain ⟨hQR, eQR⟩ := ecAdd_spec hQ hR
  obtain ⟨hl, el⟩ := ecAdd_spec hPQ hR
  obtain ⟨hr, er⟩ := ecAdd_spec hP hQR
  exact toCurve_inj hl hr (by rw [el, er, ePQ, eQR, add_assoc])

end

theorem ecAdd_inf (P : Point) : ecAdd P .inf = P := by
  cases P <;> rfl

/-- The point of the other y coordinate, -y modulo p; O for O. -/
def ecNeg : Point → Point
  | .inf => .inf
  | .aff x y => .aff x (zmod (-y) sm2p)

/-- The curve equation reads y by its square alone. -/
theorem ecNeg_valid {P : Point} (hP : pointValid P = true) : pointValid (ecNeg P) = true := by
  cases P with
  | inf => rfl
  | aff x y =>
    obtain ⟨hx, -, he⟩ := (pointValid_aff x y).mp hP
    refine (pointValid_aff _ _).mpr ⟨hx, zmod_lt _ prime_sm2p.pos, ?_⟩
    rw [sm2Curve_equation] at he ⊢
    rw [zmod_cast_zmod, Int.cast_neg, Int.cast_natCast, neg_sq, he]

theorem ecAdd_ecNeg (P : Point) : ecAdd P (ecNeg P) = .inf := by
  cases P with
  | inf => rfl
  | aff x y =>
    have hsum : (y + zmod (-y) sm2p) % sm2p = 0 := by
      apply Nat.mod_eq_zero_of_dvd
      rw [← ZMod.natCast_eq_zero_iff, Nat.cast_add, zmod_cast_zmod, Int.cast_neg, Int.cast_natCast, add_neg_cancel]
    rw [ecNeg, ecAdd, if_pos ⟨rfl, hsum⟩]

/-- Settles O40: associativity and commutativity from the curve's group, the inverse by `ecNeg`. -/
theorem pointAdditionIsAGroupLaw : Obligations.PointAdditionIsAGroupLaw := by
  intro P Q R hP hQ hR
  have := factp
  exact ⟨ecAdd_valid hP hQ, ecAdd_comm hP hQ, ecAdd_assoc hP hQ hR, ecAdd_inf P, ecNeg P, ecNeg_valid hP,
    ecAdd_ecNeg P⟩

/-! ### Scalar multiplication -/

/-- Adding P to O k times gives a valid point, the k-fold sum in the curve's group. -/
theorem iterate_ecAdd_spec [Fact (Nat.Prime sm2p)] {P : Point} (hP : pointValid P = true) (k : Nat) :
    pointValid ((fun q => ecAdd q P)^[k] .inf) = true ∧
      toCurve ((fun q => ecAdd q P)^[k] .inf) = k • toCurve P := by
  induction k with
  | zero => exact ⟨rfl, (zero_nsmul _).symm⟩
  | succ k ih =>
    obtain ⟨hk, ek⟩ := ih
    obtain ⟨hs, es⟩ := ecAdd_spec hk hP
    rw [Function.iterate_succ_apply']
    exact ⟨hs, by rw [es, ek, succ_nsmul]⟩

/-- Settles O41: the loop and the repeated addition are both k • P in the curve's group, where G has order n. -/
theorem scalarMultiplicationIsRepeatedAddition : Obligations.ScalarMultiplicationIsRepeatedAddition := by
  have := factp
  refine ⟨fun P k hP hk => ?repeated, fun k hk => ?order⟩
  case repeated =>
    obtain ⟨hm, em⟩ := ecMul_spec hP k hk
    obtain ⟨hi, ei⟩ := iterate_ecAdd_spec hP k
    exact toCurve_inj hm hi (em.trans ei.symm)
  case order =>
    obtain ⟨hm, em⟩ := ecMul_spec pointValid_pointG k hk
    rw [← toCurve_eq_zero hm, em, nsmul_pointG_eq_zero, Nat.dvd_iff_mod_eq_zero]

end Sys2Proof.Machine
end

section
/-! The curve commands (42_curve.md R245-R250): R, written alone, holds the result point, and an invalid input point is
an error that writes nothing. -/
namespace Sys2Proof.Machine

/-! ### The result in R -/

/-- A valid point written to R completes the command, is held exactly, and changes R alone (42_curve.md R237, R239). -/
theorem writeR_done (s : State) {q : Point} (hq : pointValid q = true) :
    Completed (s.writeR q).done .none false ∧ OnlyR s (s.writeR q).done ∧ ResultPoint (s.writeR q).done q :=
  ⟨completed_complete _ _ _, onlyR_writeR s q, resultPoint_writeR s q hq⟩

section
variable {i : Instr} {s : State} {q : Point} {b : Bool}
  (hexec : exec i s = .next (if b then (s.writeR q).done else s.raise .validation))
include hexec

/-- A point command whose check `b` of its inputs passes writes its result. -/
theorem point_completes (hb : b = true) (hq : pointValid q = true) :
    ∃ t, exec i s = .next t ∧ Completed t .none false ∧ OnlyR s t ∧ ResultPoint t q ∧ pointValid q = true := by
  obtain ⟨hcompleted, honly, hpoint⟩ := writeR_done s hq
  rw [if_pos hb] at hexec
  exact ⟨_, hexec, hcompleted, honly, hpoint, hq⟩

/-- A point command whose check `b` of its inputs fails raises VALIDATION. -/
theorem point_raises (hb : b = false) :
    ∃ t, exec i s = .next t ∧ Completed t .validation false ∧ DataKept s t ∧ t.rng = s.rng := by
  rw [hexec, if_neg (by simp [hb])]
  exact raises s .validation

end

/-! ### Addition and doubling -/

theorem exec_padd (s : State) : exec .padd s =
    .next (if pointValid s.ptP && pointValid s.ptQ then (s.writeR (ecAdd s.ptP s.ptQ)).done else s.raise .validation) :=
  rfl

theorem exec_pdbl (s : State) : exec .pdbl s =
    .next (if pointValid s.ptP then (s.writeR (ecAdd s.ptP s.ptP)).done else s.raise .validation) := rfl

/-- Settles O37: valid points have a valid sum, and PDBL is the sum of P with itself. -/
theorem pointAddAndDouble : Obligations.PointAddAndDouble := by
  refine ⟨?words, fun s => ⟨fun hP hQ => ?sum, fun hP => ?double, fun h => ?addInvalid, fun hP => ?doubleInvalid⟩⟩
  case words =>
    simp only [decode_eq_ok_iff]
    decide
  case sum => exact point_completes (exec_padd s) (by rw [hP, hQ]; rfl) (ecAdd_valid hP hQ)
  case double =>
    obtain ⟨t, ht, hcompleted, honly, hpoint, -⟩ := point_completes (exec_pdbl s) hP (ecAdd_valid hP hP)
    exact ⟨t, ht, hcompleted, honly, hpoint⟩
  case addInvalid => exact point_raises (exec_padd s) (Bool.and_eq_false_iff.mpr h)
  case doubleInvalid => exact point_raises (exec_pdbl s) hP

/-! ### Multiplication -/

theorem exec_pmul (s : State) : exec .pmul s =
    .next (if pointValid s.ptP then (s.writeR (ecMul s.opnd.k.toNat s.ptP)).done else s.raise .validation) := rfl

/-- Settles O38: every multiple of a valid point is valid, and G is a valid point. -/
theorem pointMultiply : Obligations.PointMultiply := by
  refine ⟨?words, fun s => ⟨fun hP => ?multiple, fun hP => ?invalid, ?baseMultiple⟩⟩
  case words =>
    simp only [decode_eq_ok_iff]
    decide
  case multiple => exact point_completes (exec_pmul s) hP (ecMul_valid hP s.opnd.k.isLt)
  case invalid => exact point_raises (exec_pmul s) hP
  case baseMultiple =>
    have hq : pointValid (ecMul s.opnd.k.toNat pointG) = true := ecMul_valid pointValid_pointG s.opnd.k.isLt
    obtain ⟨hcompleted, honly, hpoint⟩ := writeR_done s hq
    exact ⟨_, rfl, hcompleted, honly, hpoint, hq⟩

/-! ### The check of a point -/

theorem zmod_eq_zero_iff (x : Int) {m : Nat} (hm : 0 < m) : zmod x m = 0 ↔ x % (m : Int) = 0 := by
  rw [← zmod_cast x hm, Nat.cast_eq_zero]

/-- `Valid(P)` of the point in PX, PY and PINF (42_curve.md R232, R233). -/
theorem pointValid_ptP (s : State) : pointValid s.ptP = true ↔ s.pflags.pinf = true ∨
    (s.opnd.px.toNat < sm2p ∧ s.opnd.py.toNat < sm2p ∧
      ((s.opnd.py.toNat : Int) ^ 2 - ((s.opnd.px.toNat : Int) ^ 3 + sm2a * s.opnd.px.toNat + sm2b)) % sm2p = 0) := by
  cases hinf : s.pflags.pinf with
  | true => simp [State.ptP, pointOf, hinf, pointValid]
  | false =>
    have hpoint : s.ptP = .aff s.opnd.px.toNat s.opnd.py.toNat := by simp [State.ptP, pointOf, hinf]
    rw [hpoint, pow_two, pow_three']
    simp only [pointValid, Bool.and_eq_true, decide_eq_true_eq, and_assoc, zmod_eq_zero_iff _ prime_sm2p.pos,
      Bool.false_eq_true, false_or]

/-- Settles O39: PCHK completes on the state itself, with `Valid(P)` as its answer. -/
theorem pointCheck : Obligations.PointCheck :=
  ⟨decode_eq_ok_iff.mpr (by decide), fun s =>
    ⟨_, pointValid s.ptP, rfl, completed_complete s _ _, dataKept_complete s _ _, rfl, pointValid_ptP s⟩⟩

end Sys2Proof.Machine
end

section
/-! The SM2 equations (43_sm2.md R274, R291, R292): what one signing attempt gives, when VERIFY accepts, and that it
accepts what an attempt gave. The congruences are modulo n, which is prime. -/
namespace Sys2Proof.Machine

/-! ### Multiples of G and division modulo n -/

/-- G has order n, so a scalar in [1, n) gives no O (43_sm2.md R274). -/
theorem ecMul_pointG_ne_inf {k : Nat} (h1 : 1 ≤ k) (hk : k ≤ sm2n - 1) : ecMul k pointG ≠ .inf := by
  have hn := sm2n_big
  have hlt := sm2n_lt
  rw [Ne, scalarMultiplicationIsRepeatedAddition.2 k (by omega), Nat.mod_eq_of_lt (by omega)]
  omega

theorem ecMul_pointG_eq_aff {k : Nat} (h1 : 1 ≤ k) (hk : k ≤ sm2n - 1) : ∃ x y, ecMul k pointG = .aff x y := by
  cases hG : ecMul k pointG with
  | inf => exact absurd hG (ecMul_pointG_ne_inf h1 hk)
  | aff x y => exact ⟨x, y, rfl⟩

theorem zmod_modEq (x : Int) {m : Nat} (hm : 0 < m) : (zmod x m : Int) ≡ x [ZMOD m] := by
  rw [zmod_cast x hm]
  exact Int.mod_modEq x m

section
variable {x : Nat} (h0 : 0 < x) (hx : x < sm2n)
include h0 hx

/-- The product by `invMod` is the quotient modulo n. -/
theorem quotient_mul_modEq (c : Int) : (zmod (invMod sm2n x * c) sm2n : Int) * x ≡ c [ZMOD sm2n] := by
  have hinv : ((x * invMod sm2n x : Nat) : Int) ≡ (1 : Nat) [ZMOD sm2n] := by
    rw [Int.natCast_modEq_iff, Nat.ModEq, Nat.mod_eq_of_lt prime_sm2n.one_lt]
    exact mul_invMod prime_sm2n sm2n_lt (by rw [Nat.mod_eq_of_lt hx]; exact h0.ne')
  calc (zmod (invMod sm2n x * c) sm2n : Int) * x
      ≡ invMod sm2n x * c * x [ZMOD sm2n] := (zmod_modEq _ prime_sm2n.pos).mul_right _
    _ = (x * invMod sm2n x : Nat) * c := by push_cast; ring
    _ ≡ (1 : Nat) * c [ZMOD sm2n] := hinv.mul_right c
    _ = c := by simp

/-- The quotient is 0 exactly when the dividend is. -/
theorem quotient_eq_zero_iff (c : Int) : zmod (invMod sm2n x * c) sm2n = 0 ↔ c % sm2n = 0 := by
  constructor
  · intro hz
    have hmul := quotient_mul_modEq h0 hx c
    rw [hz, Nat.cast_zero, zero_mul] at hmul
    exact hmul.symm
  · intro hc
    rw [zmod_eq_zero_iff _ prime_sm2n.pos]
    exact Int.emod_eq_zero_of_dvd ((Int.dvd_of_emod_eq_zero hc).mul_left _)

end

/-! ### One signing attempt -/

section
variable {e d k : Nat} (hd : d ≤ sm2n - 2)
include hd

/-- When an attempt is a RETRY (43_sm2.md R274): its divisor 1 + d is in (0, n), so s is 0 with its dividend. -/
theorem signCore_eq_none_iff : signCore e d k = none ↔
    (e + (ecMul k pointG).x) % sm2n = 0 ∨ (e + (ecMul k pointG).x) % sm2n + k = sm2n ∨
      ((k : Int) - ((e + (ecMul k pointG).x) % sm2n : Nat) * d) % sm2n = 0 := by
  have hn := sm2n_big
  rw [← quotient_eq_zero_iff (x := 1 + d) (by omega) (by omega), ← or_assoc, signCore]
  dsimp only
  split
  · exact iff_of_true rfl (.inl ‹_›)
  · rw [or_iff_right ‹_›]
    split
    · exact iff_of_true rfl ‹_›
    · exact iff_of_false nofun ‹_›

theorem signCore_eq_some {r s : Nat} (h : signCore e d k = some (r, s)) :
    r = (e + (ecMul k pointG).x) % sm2n ∧ r ≠ 0 ∧ r + k ≠ sm2n ∧ (s : Int) * (1 + d) ≡ k - r * d [ZMOD sm2n] := by
  have hn := sm2n_big
  rw [signCore] at h
  dsimp only at h
  split at h
  · cases h
  · rename_i hr
    split at h
    · cases h
    · cases h
      rw [not_or] at hr
      have hmul := quotient_mul_modEq (x := 1 + d) (by omega) (by omega)
        ((k : Int) - ((e + (ecMul k pointG).x) % sm2n : Nat) * d)
      rw [Nat.cast_add, Nat.cast_one] at hmul
      exact ⟨rfl, hr.1, hr.2, hmul⟩

end

/-- Settles O45: k·G has an x coordinate, and 1 + d has an inverse modulo n. -/
theorem signatureEquations : Obligations.SignatureEquations := by
  intro e d k _ h1d hd h1k hk
  obtain ⟨x, y, hG⟩ := ecMul_pointG_eq_aff h1k hk
  have hx : (ecMul k pointG).x = x := by rw [hG, Point.x]
  refine ⟨x, y, hG, ?retry, fun r s h => ?signature⟩
  case retry => rw [signCore_eq_none_iff hd, hx]
  case signature =>
    obtain ⟨hr, -, -, hs⟩ := signCore_eq_some hd h
    obtain ⟨-, hlt, hpos⟩ := signCore_lt h
    exact ⟨by rw [hr, hx], hpos, hlt, hs⟩

/-! ### Verification -/

theorem nonceOk_iff (k : Nat) : nonceOk k = true ↔ 1 ≤ k ∧ k ≤ sm2n - 1 := by
  simp [nonceOk]

/-- The check accepts by exactly these conditions (43_sm2.md R291). -/
theorem sm2Verify_iff (e r s : Nat) (q : Point) : sm2Verify e r s q = true ↔
    (1 ≤ r ∧ r ≤ sm2n - 1) ∧ (1 ≤ s ∧ s ≤ sm2n - 1) ∧ q ≠ .inf ∧ pointValid q = true ∧ (r + s) % sm2n ≠ 0 ∧
      ∃ x1 y1, ecAdd (ecMul s pointG) (ecMul ((r + s) % sm2n) q) = .aff x1 y1 ∧ (e % sm2n + x1) % sm2n = r := by
  rw [← nonceOk_iff, ← nonceOk_iff, sm2Verify, ← verifyPoint]
  dsimp only
  cases nonceOk r with
  | false => simp
  | true =>
    cases nonceOk s with
    | false => simp
    | true =>
      by_cases hq : q = .inf ∨ pointValid q = false
      · rcases hq with hq | hq <;> simp [hq]
      · by_cases ht : (r + s) % sm2n = 0
        · simp [ht]
        · cases verifyPoint s ((r + s) % sm2n) q with
          | inf => simp
          | aff x y => simp [not_or.mp hq, ht]

section
variable {e d k r s : Nat} (h1d : 1 ≤ d) (hd : d ≤ sm2n - 2) (h1k : 1 ≤ k) (hk : k ≤ sm2n - 1)
  (h : signCore e d k = some (r, s))
include hd hk h

/-- s·(1 + d) ≡ k - r·d gives s·G + (r + s)·(d·G) = k·G (43_sm2.md R292). -/
theorem verifyPoint_signature : verifyPoint s ((r + s) % sm2n) (ecMul d pointG) = ecMul k pointG := by
  have := factp
  have hlt := sm2n_lt
  obtain ⟨-, -, -, hs⟩ := signCore_eq_some hd h
  obtain ⟨-, hslt, -⟩ := signCore_lt h
  have ht := Nat.mod_lt (r + s) prime_sm2n.pos
  obtain ⟨vs, es⟩ := ecMul_spec pointValid_pointG s (by omega)
  obtain ⟨vd, ed⟩ := ecMul_spec pointValid_pointG d (by omega)
  obtain ⟨vk, ek⟩ := ecMul_spec pointValid_pointG k (by omega)
  obtain ⟨vt, et⟩ := ecMul_spec vd ((r + s) % sm2n) (by omega)
  obtain ⟨vP, eP⟩ := ecAdd_spec vs vt
  have hscalar : s + (r + s) % sm2n * d ≡ k [MOD sm2n] := by
    rw [← Int.natCast_modEq_iff]
    push_cast
    calc (s : Int) + (r + s) % sm2n * d
        ≡ s + (r + s) * d [ZMOD sm2n] := ((Int.mod_modEq _ _).mul_right _).add_left _
      _ = s * (1 + d) + r * d := by ring
      _ ≡ k - r * d + r * d [ZMOD sm2n] := hs.add_right _
      _ = k := by ring
  refine toCurve_inj vP vk ?_
  rw [verifyPoint, eP, es, et, ed, ek, ← mul_nsmul', ← add_nsmul]
  exact nsmul_pointG_congr hscalar

include h1k

/-- t = 0 would give r + k ≡ 0, and the attempt would have been a RETRY. -/
theorem signature_sum_ne_zero : (r + s) % sm2n ≠ 0 := by
  intro ht
  obtain ⟨-, hr, hrk, hs⟩ := signCore_eq_some hd h
  obtain ⟨hrlt, -, -⟩ := signCore_lt h
  have hdvd : (sm2n : Int) ∣ (r + k : Nat) := by
    have hsum : (sm2n : Int) ∣ (r + s : Nat) := Int.natCast_dvd_natCast.mpr (Nat.dvd_of_mod_eq_zero ht)
    have heq : ((r + k : Nat) : Int) = (r + s : Nat) * (1 + d) + (k - r * d - s * (1 + d)) := by push_cast; ring
    rw [heq]
    exact (hsum.mul_right _).add hs.dvd
  exact hrk (Nat.eq_of_dvd_of_lt_two_mul (by omega) (Int.natCast_dvd_natCast.mp hdvd) (by omega))

include h1d

/-- The signature of an attempt on E mod n is accepted for E and d·G (43_sm2.md R292). -/
theorem sm2Verify_signature {E : Nat} (he : e = E % sm2n) : sm2Verify E r s (ecMul d pointG) = true := by
  have hlt := sm2n_lt
  obtain ⟨hr, hr0, -, -⟩ := signCore_eq_some hd h
  obtain ⟨hrlt, hslt, hs0⟩ := signCore_lt h
  obtain ⟨x, y, hG⟩ := ecMul_pointG_eq_aff h1k hk
  refine (sm2Verify_iff _ _ _ _).mpr ⟨by omega, by omega, ecMul_pointG_ne_inf h1d (by omega),
    ecMul_valid pointValid_pointG (by omega), signature_sum_ne_zero hd h1k hk h, x, y,
    (verifyPoint_signature hd hk h).trans hG, ?_⟩
  rw [← he, hr, hG, Point.x]

end

end Sys2Proof.Machine
end

section
/-! The SM2 commands (43_sm2.md R276-R292): what each writes and leaves unchanged, by its operands and the source's
answers, and the round trip from a signing command to VERIFY. -/
namespace Sys2Proof.Machine

/-- An error after draws reports its code and changes nothing but the answers still to come. -/
theorem raise_kept (s : State) (rest : List RngAnswer) (code : ErrCode) :
    Completed ({ s with rng := rest }.raise code) code false ∧ DataKept s ({ s with rng := rest }.raise code) ∧
      ({ s with rng := rest }.raise code).rng = rest :=
  ⟨completed_complete _ _ _,
    ⟨⟨rfl, rfl, rfl, rfl, rfl, rfl, rfl, rfl, rfl⟩, rfl, rfl, rfl, rfl, rfl, rfl, rfl⟩, rfl⟩

/-! ### Key generation -/

/-- Q holds d·G, for d in [1, n - 2]: its coordinates are below p (43_sm2.md R276). -/
theorem ptQ_writeKeyPair (s : State) {d : Nat} (h1 : 1 ≤ d) (hd : d ≤ sm2n - 2) :
    (s.writeKeyPair d).ptQ = ecMul d pointG := by
  have hn := sm2n_lt
  have hp := sm2p_lt
  have hvalid : pointValid (ecMul d pointG) = true := ecMul_valid pointValid_pointG (by omega)
  obtain ⟨x, y, hQ⟩ := ecMul_pointG_eq_aff h1 (by omega : d ≤ sm2n - 1)
  obtain ⟨hx, hy, -⟩ := (pointValid_aff x y).mp (hQ ▸ hvalid)
  show Point.aff (BitVec.ofNat 256 (ecMul d pointG).x).toNat (BitVec.ofNat 256 (ecMul d pointG).y).toNat = _
  rw [hQ, Point.x, Point.y, BitVec.toNat_ofNat, BitVec.toNat_ofNat, Nat.mod_eq_of_lt (by omega),
    Nat.mod_eq_of_lt (by omega)]

/-- KEYGEN that draws d in range writes its key pair (43_sm2.md R276). -/
theorem exec_keygen_value {s : State} {rest : List RngAnswer} {d : Nat} (hrng : s.rng = .value d :: rest)
    (h1 : 1 ≤ d) (hd : d ≤ sm2n - 2) : exec .keygen s = .next ({ s with rng := rest }.writeKeyPair d).done := by
  simp [exec, execKeygen, hrng, draw_value h1 hd]

theorem exec_keygen_fail {s : State} {rest : List RngAnswer} (hrng : s.rng = .fail :: rest) :
    exec .keygen s = .next ({ s with rng := rest }.raise .randomSource) := by
  simp [exec, execKeygen, hrng, RngAnswer.draw]

/-- KEYGEN waits on a withheld answer, and where none is listed (43_sm2.md R276, log entry 3). -/
theorem exec_keygen_wait {s : State} {rest : List RngAnswer} (h : s.rng = .wait :: rest ∨ (s.rng = [] ∧ rest = [])) :
    exec .keygen s = .next { s with rng := rest }.waitRng := by
  rcases h with hrng | ⟨hrng, rfl⟩
  · simp [exec, execKeygen, hrng, RngAnswer.draw]
  · simp [exec, execKeygen, hrng, State.waitRng]

/-- Settles O42: each answer of the source has its own way for the command to end. -/
theorem keyGeneration : Obligations.KeyGeneration := by
  intro s rest
  refine ⟨fun d hrng h1 hd => ?value, fun hrng => ⟨_, exec_keygen_fail hrng, raise_kept s rest _⟩,
    fun h => ⟨_, exec_keygen_wait h, kg_waits s rest, rfl, rfl, rfl⟩⟩
  have hn := sm2n_lt
  have hkept : OpndsKeptBut s ({ s with rng := rest }.writeKeyPair d).done [.d, .qx, .qy] :=
    fun r hr => (Result.keyPair rest d).opnd_kept r
      fun hm => hr ((List.perm_append_comm (l₁ := [Opnd.qx, .qy]) (l₂ := [.d])).mem_iff.mp hm)
  have hD : (BitVec.ofNat 256 d).toNat = d := by
    rw [BitVec.toNat_ofNat, Nat.mod_eq_of_lt (by omega)]
  have hQ : ({ s with rng := rest }.writeKeyPair d).done.ptQ = ecMul d pointG := ptQ_writeKeyPair _ h1 hd
  exact ⟨_, exec_keygen_value hrng h1 hd, completed_complete _ _ _,
    ⟨⟨rfl, rfl, rfl, rfl, rfl, rfl, rfl, rfl, rfl⟩, rfl, rfl, rfl, rfl, rfl⟩, hkept, hD, rfl, hQ,
    hQ ▸ ecMul_pointG_ne_inf h1 (by omega), hQ ▸ ecMul_valid pointValid_pointG (by omega), rfl, rfl, rfl⟩

/-! ### Signing with a drawn nonce -/

theorem signable_iff (d : Nat) : signable d = true ↔ 1 ≤ d ∧ d ≤ sm2n - 2 := by
  simp [signable]

/-- SIGN of operands in range runs its attempts (43_sm2.md R280, R281). -/
theorem exec_sign_inRange {s : State} (hd : 1 ≤ s.opnd.d.toNat ∧ s.opnd.d.toNat ≤ sm2n - 2)
    (hretry : 1 ≤ s.retry.toNat) : exec .sign s = .next (signLoop s s.rng) := by
  rw [exec, execSign, (signable_iff _).mpr hd, decide_eq_true (by omega : s.retry.toNat ≠ 0)]
  rfl

/-- SIGN of any other operands is an error (43_sm2.md R280). -/
theorem exec_sign_outOfRange {s : State}
    (h : ¬ ((1 ≤ s.opnd.d.toNat ∧ s.opnd.d.toNat ≤ sm2n - 2) ∧ 1 ≤ s.retry.toNat)) :
    exec .sign s = .next (s.raise .invalidParams) := by
  rw [exec, execSign, if_neg]
  rwa [Bool.and_eq_true, signable_iff, decide_eq_true_eq, ← Nat.one_le_iff_ne_zero]

/-- The nonce that uses up the budget ends SIGN with an error (43_sm2.md R281). -/
theorem signLoop_exhausted (s : State) {ks : List Nat} (rest : List RngAnswer) (hne : ks ≠ [])
    (hks : ∀ k, k ∈ ks → 1 ≤ k ∧ k ≤ sm2n - 1 ∧ signCore (s.opnd.e.toNat % sm2n) s.opnd.d.toNat k = none)
    (hm : s.attempt + ks.length = s.retry.toNat) :
    signLoop s (ks.map .value ++ rest) = { s with rng := rest }.raise .signingFailed := by
  obtain ⟨before, last, rfl⟩ := List.eq_nil_or_concat' ks |>.resolve_left hne
  obtain ⟨h1, hlast, hcore⟩ := hks last (by simp)
  rw [List.length_append, List.length_singleton] at hm
  rw [List.map_append, List.append_assoc,
    signLoop_retries s before _ (fun k hk => hks k (List.mem_append_left _ hk)) (by omega), List.map_singleton,
    List.singleton_append, signLoop_got _ _ (draw_value h1 hlast), hcore]
  dsimp only
  rw [if_neg (by omega)]
  rfl

/-- Settles O43: the nonces that give RETRY leave SIGN at the answer after them. -/
theorem signAttempts : Obligations.SignAttempts := by
  intro s ks rest
  refine ⟨fun ⟨h1d, hd, hretry⟩ hks => ⟨fun hm => ⟨fun k r s' hrng h1k hk hcore => ?signature, fun hrng => ?failure,
    fun hrng => ?withheld⟩, fun hne hm hrng => ?exhausted⟩, fun h => ?outOfRange⟩
  case signature =>
    have hexec := exec_sign_inRange ⟨h1d, hd⟩ hretry
    rw [hrng, signLoop_retries s ks _ hks hm, signLoop_got _ _ (draw_value h1k hk), hcore] at hexec
    obtain ⟨hr, hs, -⟩ := signCore_lt hcore
    exact ⟨_, hexec, writeSig_ok s rest r s' hr hs⟩
  case failure =>
    have hexec := exec_sign_inRange ⟨h1d, hd⟩ hretry
    rw [hrng, signLoop_retries s ks _ hks hm] at hexec
    exact ⟨_, hexec, raise_kept s rest _⟩
  case withheld =>
    have hexec : exec .sign s = .next ({ s with attempt := s.attempt + ks.length }.waitAttempt rest) := by
      rw [exec_sign_inRange ⟨h1d, hd⟩ hretry]
      rcases hrng with hrng | ⟨hrng, rfl⟩
      · rw [hrng, signLoop_retries s ks _ hks hm]
        rfl
      · rw [hrng, ← List.append_nil (ks.map _), signLoop_retries s ks _ hks hm]
        rfl
    exact ⟨_, hexec, sg_waits s rest _, rfl, rfl, rfl⟩
  case exhausted =>
    have hexec := exec_sign_inRange ⟨h1d, hd⟩ hretry
    rw [hrng, signLoop_exhausted s rest hne hks hm] at hexec
    exact ⟨_, hexec, raise_kept s rest _⟩
  case outOfRange =>
    rw [exec_sign_outOfRange (by omega)]
    exact raises s .invalidParams

/-! ### Signing with the nonce in K -/

/-- SIGNK of D or K out of range is an error (43_sm2.md R280). -/
theorem exec_signk_outOfRange {s : State} (h : ¬ ((1 ≤ s.opnd.d.toNat ∧ s.opnd.d.toNat ≤ sm2n - 2) ∧
    1 ≤ s.opnd.k.toNat ∧ s.opnd.k.toNat ≤ sm2n - 1)) : exec .signk s = .next (s.raise .invalidParams) := by
  rw [exec, execSignk, if_neg]
  rwa [Bool.and_eq_true, signable_iff, nonceOk_iff]

section
variable {s : State} (hd : 1 ≤ s.opnd.d.toNat ∧ s.opnd.d.toNat ≤ sm2n - 2)
  (hk : 1 ≤ s.opnd.k.toNat ∧ s.opnd.k.toNat ≤ sm2n - 1)
include hd hk

/-- SIGNK whose attempt gives a signature writes it (43_sm2.md R285). -/
theorem exec_signk_some {r s' : Nat}
    (hcore : signCore (s.opnd.e.toNat % sm2n) s.opnd.d.toNat s.opnd.k.toNat = some (r, s')) :
    exec .signk s = .next (s.writeSig r s').done := by
  rw [exec, execSignk, (signable_iff _).mpr hd, (nonceOk_iff _).mpr hk, hcore]
  rfl

/-- SIGNK whose attempt gives RETRY is an error (43_sm2.md R285). -/
theorem exec_signk_none (hcore : signCore (s.opnd.e.toNat % sm2n) s.opnd.d.toNat s.opnd.k.toNat = none) :
    exec .signk s = .next (s.raise .signingFailed) := by
  rw [exec, execSignk, (signable_iff _).mpr hd, (nonceOk_iff _).mpr hk, hcore]
  rfl

end

/-- Settles O44: the one attempt decides. -/
theorem signWithNonce : Obligations.SignWithNonce := by
  refine ⟨decode_eq_ok_iff.mpr (by decide), fun s => ⟨fun ⟨h1d, hd, h1k, hk⟩ => ⟨fun r s' hcore => ?signature,
    fun hcore => ?retry⟩, fun h => ?outOfRange⟩⟩
  case signature =>
    obtain ⟨hr, hs, -⟩ := signCore_lt hcore
    exact ⟨_, exec_signk_some ⟨h1d, hd⟩ ⟨h1k, hk⟩ hcore, writeSig_ok s s.rng r s' hr hs⟩
  case retry =>
    rw [exec_signk_none ⟨h1d, hd⟩ ⟨h1k, hk⟩ hcore]
    exact raises s .signingFailed
  case outOfRange =>
    rw [exec_signk_outOfRange (by omega)]
    exact raises s .invalidParams

/-! ### Verification and the round trip -/

/-- Settles O46: VERIFY completes on the state itself, with the check as its answer. -/
theorem signatureVerification : Obligations.SignatureVerification :=
  ⟨decode_eq_ok_iff.mpr (by decide), fun s =>
    ⟨_, _, rfl, completed_complete s _ _, dataKept_complete s _ _, rfl, sm2Verify_iff _ _ _ _⟩⟩

/-- The state t is s with a signature of E and D, made by some nonce in range, written (43_sm2.md R281, R285). -/
def Signed (s t : State) : Prop :=
  ∃ k r s' rest, 1 ≤ k ∧ k ≤ sm2n - 1 ∧ signCore (s.opnd.e.toNat % sm2n) s.opnd.d.toNat k = some (r, s') ∧
    t = ({ s with rng := rest }.writeSig r s').done

/-- SIGN's attempts end without error only by a signature (43_sm2.md R281). -/
theorem signLoop_signed (s : State) (answers : List RngAnswer) (hp : (signLoop s answers).phase = .idle)
    (he : (signLoop s answers).status.err = false) : Signed s (signLoop s answers) := by
  induction answers generalizing s with
  | nil => cases hp
  | cons ans rest ih =>
    cases hdraw : ans.draw 1 (sm2n - 1) with
    | got k =>
      obtain ⟨-, h1k, hk⟩ := draw_got hdraw
      rw [signLoop_got s rest hdraw] at hp he ⊢
      cases hcore : signCore (s.opnd.e.toNat % sm2n) s.opnd.d.toNat k with
      | some sig => exact ⟨k, sig.1, sig.2, rest, h1k, hk, hcore, rfl⟩
      | none =>
        rw [hcore] at hp he
        dsimp only at hp he ⊢
        split at hp
        · rw [if_pos ‹_›] at he ⊢
          exact ih { s with attempt := s.attempt + 1 } hp he
        · rw [if_neg ‹_›] at he
          cases he
    | wait =>
      rw [signLoop, hdraw] at hp
      cases hp
    | fail =>
      rw [signLoop, hdraw] at he
      cases he

/-- A signing command ends without error only by a signature of a D in range (43_sm2.md R280-R285). -/
theorem exec_signed {i : Instr} {s t : State} (hi : i = .sign ∨ i = .signk) (hexec : exec i s = .next t)
    (hp : t.phase = .idle) (he : t.status.err = false) :
    (1 ≤ s.opnd.d.toNat ∧ s.opnd.d.toNat ≤ sm2n - 2) ∧ Signed s t := by
  rcases hi with rfl | rfl
  · by_cases h : (1 ≤ s.opnd.d.toNat ∧ s.opnd.d.toNat ≤ sm2n - 2) ∧ 1 ≤ s.retry.toNat
    · rw [exec_sign_inRange h.1 h.2] at hexec
      cases hexec
      exact ⟨h.1, signLoop_signed s s.rng hp he⟩
    · rw [exec_sign_outOfRange h] at hexec
      cases hexec
      cases he
  · by_cases h : (1 ≤ s.opnd.d.toNat ∧ s.opnd.d.toNat ≤ sm2n - 2) ∧ 1 ≤ s.opnd.k.toNat ∧ s.opnd.k.toNat ≤ sm2n - 1
    · obtain ⟨hd, hk⟩ := h
      cases hcore : signCore (s.opnd.e.toNat % sm2n) s.opnd.d.toNat s.opnd.k.toNat with
      | some sig =>
        rw [exec_signk_some hd hk hcore] at hexec
        cases hexec
        exact ⟨hd, s.opnd.k.toNat, sig.1, sig.2, s.rng, hk.1, hk.2, hcore, rfl⟩
      | none =>
        rw [exec_signk_none hd hk hcore] at hexec
        cases hexec
        cases he
    · rw [exec_signk_outOfRange h] at hexec
      cases hexec
      cases he

/-- Settles O47: the signature written is one that the check accepts for d·G. -/
theorem signedDigestsVerify : Obligations.SignedDigestsVerify := by
  intro i s t u v hi hexec hp he hE hSR hSS hQ hverify
  obtain ⟨⟨h1d, hd⟩, k, r, s', rest, h1k, hk, hcore, rfl⟩ := exec_signed hi hexec hp he
  obtain ⟨hr, hs, -⟩ := signCore_lt hcore
  obtain ⟨-, -, -, -, hsr, hss, -⟩ := writeSig_ok s rest r s' hr hs
  cases hverify
  show sm2Verify u.opnd.e.toNat u.opnd.sr.toNat u.opnd.ss.toNat u.ptQ = true
  rw [hE, hSR, hSS, hQ, hsr, hss]
  exact sm2Verify_signature h1d hd h1k hk hcore rfl

end Sys2Proof.Machine
end

section
/-! The SM3 commands (44_sm3.md R320-R333): what each makes of the SM3 context, the digest in HD, and the digest of
the bytes absorbed since SM3INIT. -/
namespace Sys2Proof.Machine

/-! ### The digest as an integer -/

/-- OS2I is the value of the bytes as digits in base 256, the last byte the lowest (00_scope.md R11). -/
theorem os2i_eq_ofDigits (bs : List Byte) : os2i bs = Nat.ofDigits 256 (bs.map BitVec.toNat).reverse := by
  induction bs using List.reverseRecOn with
  | nil => rfl
  | append_singleton bs b ih =>
    have hlast : os2i (bs ++ [b]) = 256 * os2i bs + b.toNat := List.foldl_append
    rw [hlast, ih]
    simp [Nat.ofDigits_cons, add_comm]

theorem os2i_append (x y : List Byte) : os2i (x ++ y) = os2i x * 256 ^ y.length + os2i y := by
  simp only [os2i_eq_ofDigits, List.map_append, List.reverse_append, Nat.ofDigits_append, List.length_reverse,
    List.length_map]
  ring

theorem os2i_lt (bs : List Byte) : os2i bs < 256 ^ bs.length := by
  have h := Nat.ofDigits_lt_base_pow_length (b := 256) (l := (bs.map BitVec.toNat).reverse) (by decide) fun x hx => by
    obtain ⟨b, -, rfl⟩ := List.mem_map.mp (List.mem_reverse.mp hx)
    exact b.isLt
  rwa [← os2i_eq_ofDigits, List.length_reverse, List.length_map] at h

@[simp] theorem os2i_w2os (w : Word) : os2i (w2os w) = w.toNat := by
  have hw := w.isLt
  simp only [os2i, w2os, List.foldl_cons, List.foldl_nil, BitVec.extractLsb'_toNat, Nat.shiftRight_eq_div_pow]
  omega

/-- A digest as an integer: its eight words as digits in base 2^32 (44_sm3.md R318). -/
theorem os2i_bytes (v : Sm3Words) :
    os2i v.bytes = v.v0.toNat * 2 ^ 224 + v.v1.toNat * 2 ^ 192 + v.v2.toNat * 2 ^ 160 + v.v3.toNat * 2 ^ 128 +
      v.v4.toNat * 2 ^ 96 + v.v5.toNat * 2 ^ 64 + v.v6.toNat * 2 ^ 32 + v.v7.toNat := by
  simp only [Sm3Words.bytes, os2i_append, os2i_w2os, length_w2os]
  omega

@[simp] theorem Sm3Words.length_bytes (v : Sm3Words) : v.bytes.length = 32 := rfl

/-- A digest fits in a 256-bit register. -/
theorem os2i_bytes_lt (v : Sm3Words) : os2i v.bytes < 2 ^ 256 := by
  have h := os2i_lt v.bytes
  rw [Sm3Words.length_bytes] at h
  exact h.trans_eq (by norm_num)

/-- Word j of a digest in a register is V_j (10_state.md R58). -/
theorem word256_os2i_bytes (v : Sm3Words) (j : Fin 8) : word256 (BitVec.ofNat 256 (os2i v.bytes)) j = v.word j := by
  have h0 := v.v0.isLt
  have h1 := v.v1.isLt
  have h2 := v.v2.isLt
  have h3 := v.v3.isLt
  have h4 := v.v4.isLt
  have h5 := v.v5.isLt
  have h6 := v.v6.isLt
  have h7 := v.v7.isLt
  apply BitVec.eq_of_toNat_eq
  rw [word256, BitVec.extractLsb'_toNat, BitVec.toNat_ofNat, Nat.mod_eq_of_lt (os2i_bytes_lt v), os2i_bytes,
    Nat.shiftRight_eq_div_pow]
  fin_cases j <;> simp only [Sm3Words.word] <;> omega

/-! ### The SM3 context a command leaves -/

/-- A completion on a result that has written the SM3 context, operands and free values keeps the rest. -/
theorem onlySm3_complete (s : State) (c : Sm3Ctx) (o : Opnds) (n : Nat) (code : ErrCode) (vok : Bool) :
    OnlySm3 s ({ s with sm3 := c, opnd := o, draws := n }.complete code vok) :=
  ⟨⟨rfl, rfl, rfl, rfl, rfl, rfl, rfl, rfl, rfl⟩, rfl, rfl, rfl, rfl, rfl⟩

/-- PBUF cleared is zero byte by byte (10_state.md R63). -/
theorem getElem_pbufZero (i : Fin 64) : pbufZero[i] = 0 := Vector.getElem_replicate i.isLt

theorem exec_sm3init (s : State) : exec .sm3init s = .next { s with sm3 := Sm3Ctx.init }.done := rfl

/-- SM3UPD and SM3FIN of a context that is not ACTIVE are errors (44_sm3.md R324, R330). -/
theorem exec_sm3upd_inactive {s : State} (hst : s.sm3.st ≠ .active) : exec .sm3upd s = .next (s.raise .state) := by
  rw [exec, execSm3upd, if_pos hst]

theorem exec_sm3fin_inactive {s : State} (hst : s.sm3.st ≠ .active) : exec .sm3fin s = .next (s.raise .state) := by
  rw [exec, execSm3fin, if_pos hst]

section
variable {s : State} (hst : s.sm3.st = .active)
include hst

/-- SM3UPD of an ACTIVE context absorbs the bytes of a region of DBUF (44_sm3.md R324). -/
theorem exec_sm3upd_inDbuf (hr : InDbuf s.src.toNat s.len.toNat) : exec .sm3upd s =
    .next ({ s with sm3 := sm3Update s.sm3 (s.memRead s.src.toNat s.len.toNat) }.drew s.len.toNat).done := by
  rw [exec, execSm3upd, if_neg (not_not.mpr hst), if_pos ((validRegion_iff _ _).mpr hr)]

/-- SM3UPD of a region that is not inside DBUF is an error (44_sm3.md R324, 20_memory.md R112). -/
theorem exec_sm3upd_outside (hr : ¬ InDbuf s.src.toNat s.len.toNat) :
    exec .sm3upd s = .next (s.raise .invalidParams) := by
  rw [exec, execSm3upd, if_neg (not_not.mpr hst), if_neg (mt (validRegion_iff _ _).mp hr)]

/-- SM3FIN of an ACTIVE context finishes it and writes the digest to HD (44_sm3.md R330). -/
theorem exec_sm3fin_active : exec .sm3fin s = .next
    { s with
      sm3 := s.sm3.finished
      opnd := s.opnd.set .hd (BitVec.ofNat 256 (os2i (sm3Final s.sm3).bytes)) }.done := by
  rw [exec, execSm3fin, if_neg (not_not.mpr hst)]
  rfl

end

/-- SM3UPD keeps SM3ST, and reports STATE where it is not ACTIVE (44_sm3.md R332). -/
theorem sm3upd_st {s t : State} (h : exec .sm3upd s = .next t) :
    t.sm3.st = s.sm3.st ∧ (s.sm3.st ≠ .active → t.status.errcode = .state) := by
  by_cases hst : s.sm3.st = .active
  · refine ⟨?_, fun hne => absurd hst hne⟩
    by_cases hr : InDbuf s.src.toNat s.len.toNat
    · rw [exec_sm3upd_inDbuf hst hr] at h
      cases h
      exact sm3Update_st _ _
    · rw [exec_sm3upd_outside hst hr] at h
      cases h
      rfl
  · rw [exec_sm3upd_inactive hst] at h
    cases h
    exact ⟨rfl, fun _ => rfl⟩

/-- SM3FIN ends an ACTIVE context, and keeps any other and reports STATE (44_sm3.md R332). -/
theorem sm3fin_st {s t : State} (h : exec .sm3fin s = .next t) :
    (s.sm3.st = .active → t.sm3.st = .final) ∧
      (s.sm3.st ≠ .active → t.sm3.st = s.sm3.st ∧ t.status.errcode = .state) := by
  constructor <;> intro hst
  · rw [exec_sm3fin_active hst] at h
    cases h
    rfl
  · rw [exec_sm3fin_inactive hst] at h
    cases h
    exact ⟨rfl, rfl⟩

/-- A soft reset clears the SM3 context, whatever it aborts (70_reset_and_hazards.md R451). -/
@[simp] theorem State.softReset_sm3 (s : State) : s.softReset.sm3 = Sm3Ctx.reset := by
  unfold State.softReset
  split <;> rfl

/-- Settles O30: the SM3 commands one by one, and the frame of every other command. -/
theorem sm3StateTransitions : Obligations.Sm3StateTransitions := by
  refine ⟨fun i s t h => ⟨?init, ?update, ?finish, ?zeroize, fun hinit hupd hfin hzero => ?other⟩, fun s => ?resets⟩
  case init =>
    rintro rfl
    cases h
    rfl
  case update =>
    rintro rfl
    exact sm3upd_st h
  case finish =>
    rintro rfl
    exact sm3fin_st h
  case zeroize =>
    rintro rfl
    cases h
    rfl
  case other =>
    obtain ⟨-, hsm3, -⟩ := commandFrames i s t h
    rw [hsm3 (by simp [hinit, hupd, hfin, hzero])]
  case resets => exact ⟨by rw [State.softReset_sm3]; rfl, rfl⟩

/-! ### SM3INIT, SM3UPD and SM3FIN -/

/-- Settles O48: the context SM3INIT leaves is a constant, which holds the empty message. -/
theorem sm3Init : Obligations.Sm3Init :=
  ⟨decode_eq_ok_iff.mpr (by decide), fun s =>
    ⟨_, exec_sm3init s, completed_complete _ _ _, onlySm3_complete s _ s.opnd s.draws _ _, rfl, rfl, rfl, rfl, rfl, rfl,
      getElem_pbufZero, Sm3Ctx.holds_init⟩⟩

/-- Settles O49 (`sm3Update` names the model's function): SM3UPD leaves the context it gives, or raises an error. -/
theorem sm3Update_appends : Obligations.Sm3Update := by
  refine fun s => ⟨fun hst hr => ?absorbs, fun hst => ?inactive, fun hst hr => ?outside⟩
  case absorbs =>
    refine ⟨_, exec_sm3upd_inDbuf hst hr, completed_complete _ _ _, onlySm3_complete s _ s.opnd _ _ _, rfl, ?_, ?_,
      fun m hm hlen => hm.update _ (by rwa [State.length_memRead])⟩
    · exact (sm3Update_st _ _).trans hst
    · show (sm3Update s.sm3 (s.memRead s.src.toNat s.len.toNat)).cnt = _
      rw [sm3Update_cnt, State.length_memRead, BitVec.ofNat_toNat]
  case inactive =>
    rw [exec_sm3upd_inactive hst]
    exact raises s .state
  case outside =>
    rw [exec_sm3upd_outside hst hr]
    exact raises s .invalidParams

/-- Settles O50: the final chaining value is in V and in HD, and it encodes the digest of the message held. -/
theorem sm3Finish : Obligations.Sm3Finish := by
  refine fun s => ⟨fun hst => ?finishes, fun hst => ?inactive⟩
  case finishes =>
    refine ⟨_, exec_sm3fin_active hst, completed_complete _ _ _, onlySm3_complete s _ _ s.draws _ _, fun r hr => ?_,
      rfl, rfl, rfl, rfl, getElem_pbufZero, word256_os2i_bytes _, fun m hm => ?_⟩
    · exact (Opnds.get_set _ _ _ _).trans (if_neg (by simpa using hr))
    · show (BitVec.ofNat 256 (os2i (sm3Final s.sm3).bytes)).toNat = _
      rw [BitVec.toNat_ofNat, Nat.mod_eq_of_lt (os2i_bytes_lt _), hm.final]
  case inactive =>
    rw [exec_sm3fin_inactive hst]
    exact raises s .state

/-! ### The digest of the bytes absorbed -/

/-- An SM3UPD of an ACTIVE context that reports no error has absorbed the bytes at SRC (44_sm3.md R324). -/
theorem sm3upd_succeeded {s t : State} (hst : s.sm3.st = .active) (h : exec .sm3upd s = .next t)
    (ok : t.status.err = false) : t.sm3 = sm3Update s.sm3 (s.memRead s.src.toNat s.len.toNat) := by
  by_cases hr : InDbuf s.src.toNat s.len.toNat
  · rw [exec_sm3upd_inDbuf hst hr] at h
    cases h
    rfl
  · rw [exec_sm3upd_outside hst hr] at h
    cases h
    cases ok

/-- The context holds what has been absorbed (44_sm3.md R319, R333). -/
theorem Absorbed.holds {m : List Byte} {s : State} (h : Absorbed m s) (hlen : m.length < 2 ^ 64) : s.sm3.Holds m := by
  induction h with
  | init s t h =>
    cases h
    exact Sm3Ctx.holds_init
  | host m s t _ hkept ih => exact hkept ▸ ih hlen
  | update m s t _ h ok ih =>
    rw [List.length_append, State.length_memRead] at hlen
    have hm := ih (by omega)
    rw [sm3upd_succeeded hm.active h ok]
    exact hm.update _ (by rwa [State.length_memRead])

/-- Settles O51: SM3FIN on the context that holds m. -/
theorem digestOfAbsorbedBytes : Obligations.DigestOfAbsorbedBytes := by
  intro m s habsorbed hlen
  have hm := habsorbed.holds hlen
  obtain ⟨hfinish, -⟩ := sm3Finish s
  obtain ⟨t, hexec, hcompleted, -, -, -, -, -, -, -, -, hdigest⟩ := hfinish hm.active
  exact ⟨t, hexec, hcompleted, hdigest m hm⟩

end Sys2Proof.Machine
end

section
/-! The SM4 commands (45_sm4.md R350-R390): the recurrences of the key schedule and of the block transform, the padding,
the checks and the results of the mode commands, and decryption of what was encrypted. -/
namespace Sys2Proof.Machine

/-! ### The key schedule and the block transform -/

theorem Block.word_xor (x y : Block) (i : Fin 4) : (x.xor y).word i = x.word i ^^^ y.word i := by
  fin_cases i <;> rfl

/-- Settles O52: the sequence of the key schedule, started from MK ^ FK. -/
theorem keyScheduleIntoRk : Obligations.KeyScheduleIntoRk := by
  refine ⟨decode_eq_ok_iff.mpr (by decide), fun s => ?_⟩
  obtain ⟨K, hfirst, hnext⟩ := expand_seq ((List.range 32).map sm4CK) (s.sm4.key.xor sm4FK)
  refine ⟨_, rfl, completed_complete _ _ _,
    ⟨⟨rfl, rfl, rfl, rfl, rfl, rfl, rfl, rfl, rfl⟩, rfl, rfl, rfl, rfl, rfl⟩, rfl, rfl, rfl, rfl, K, fun i => (hfirst i).trans (Block.word_xor _ _ i), fun i => ?_⟩
  obtain ⟨hrec, hkey⟩ := hnext i.val (by simp)
  rw [List.getElem_map, List.getElem_range] at hrec
  exact ⟨hrec, (List.getElem_eq_iff _).mpr hkey⟩

/-- The block transform under a schedule of 32 words as a sequence of words (45_sm4.md R355). -/
theorem crypt_seq {ks : List Word} (hks : ks.length = 32) (b : Block) :
    ∃ X : Nat → Word, (∀ i : Fin 4, X i.val = b.word i) ∧
      (∀ i : Fin 32,
        X (i.val + 4) = X i.val ^^^ sm4T (X (i.val + 1) ^^^ X (i.val + 2) ^^^ X (i.val + 3) ^^^ ks[i])) ∧
      sm4Crypt ks b = ⟨X 35, X 34, X 33, X 32⟩ := by
  obtain ⟨X, hfirst, hnext, hlast⟩ := rounds_seq ks b
  rw [hks] at hlast
  exact ⟨X, hfirst, fun i => hnext i.val (by omega), congrArg Block.rev hlast⟩

/-- Settles O53: both directions are the transform under a list of 32 words, RK or RK reversed. -/
theorem blockTransformRounds : Obligations.BlockTransformRounds := by
  refine fun rk b => ⟨crypt_seq rk.length_toList b, ?_⟩
  obtain ⟨X, hfirst, hnext, hlast⟩ := crypt_seq (ks := rk.toList.reverse) (by simp) b
  refine ⟨X, hfirst, fun i => ?_, hlast⟩
  rw [hnext i, Fin.getElem_fin, List.getElem_reverse]
  simp

/-- The rounds in reverse order, from the reversed block, lead back (45_sm4.md R356). -/
theorem rounds_reverse (ks : List Word) (x : Block) :
    ks.reverse.foldl sm4Round (ks.foldl sm4Round x).rev = x.rev := by
  induction ks generalizing x with
  | nil => rfl
  | cons k ks ih =>
    rw [List.foldl_cons, List.reverse_cons, List.foldl_append, ih]
    exact round_rev x k

theorem crypt_reverse (ks : List Word) (x : Block) : sm4Crypt ks.reverse (sm4Crypt ks x) = x := by
  rw [sm4Crypt, sm4Crypt, rounds_reverse]
  rfl

@[simp] theorem sm4Dec_sm4Enc (rk : Vector Word 32) (x : Block) : sm4Dec rk (sm4Enc rk x) = x :=
  crypt_reverse rk.toList x

theorem sm4Enc_sm4Dec (rk : Vector Word 32) (x : Block) : sm4Enc rk (sm4Dec rk x) = x := by
  have h := crypt_reverse rk.toList.reverse x
  rwa [List.reverse_reverse] at h

/-- Settles O54: the reversed schedule undoes the rounds one by one. -/
theorem blockDecryptionInvertsEncryption : Obligations.BlockDecryptionInvertsEncryption :=
  fun rk b => ⟨sm4Dec_sm4Enc rk b, sm4Enc_sm4Dec rk b⟩

/-! ### The padding -/

/-- The padding starts where the message ends (45_sm4.md R357). -/
theorem length_pad7_sub_padLen (m : List Byte) : (pad7 m).length - padLen (pad7 m) = m.length := by
  have hlt := Nat.mod_lt m.length (by omega : 0 < 16)
  rw [padLen_pad7, length_pad7]
  omega

theorem strip7_pad7 (m : List Byte) : strip7 (pad7 m) = m := by
  rw [strip7, length_pad7_sub_padLen]
  exact List.take_left

theorem valid7_pad7 (m : List Byte) : valid7 (pad7 m) = true := by
  have hlt := Nat.mod_lt m.length (by omega : 0 < 16)
  have hpad : (pad7 m).drop m.length = List.replicate (16 - m.length % 16) (BitVec.ofNat 8 (16 - m.length % 16)) :=
    List.drop_left
  have hbyte : (BitVec.ofNat 8 (16 - m.length % 16)).toNat = 16 - m.length % 16 := by
    rw [BitVec.toNat_ofNat]
    omega
  rw [valid7, length_pad7_sub_padLen, padLen_pad7, hpad, length_pad7]
  simp only [List.all_replicate, hbyte, beq_self_eq_true, Bool.if_true_right, Bool.or_true, Bool.and_true,
    Bool.and_eq_true, decide_eq_true_eq]
  omega

/-- Settles O59. -/
theorem paddingRoundTrip : Obligations.PaddingRoundTrip :=
  fun m => ⟨length_pad7 m, valid7_pad7 m, strip7_pad7 m⟩

/-! ### The checks of a mode command -/

/-- The lengths an SM4 mode command does not take (45_sm4.md R361). -/
theorem badBlockLength_iff {i : Instr} {len n : Nat} (hi : modeOutLen i len = some n) :
    badBlockLength i len = true ↔ (i ≠ .cbcenc true ∧ len % 16 ≠ 0) ∨ (i = .cbcdec true ∧ len = 0) := by
  cases i with
  | ecbenc | ecbdec => simp [badBlockLength]
  | cbcenc pad | cbcdec pad => cases pad <;> simp [badBlockLength]
  | _ => cases hi

/-- Settles O55: the checks name the error, and the command that fails them ends there. -/
theorem modeChecksInOrder : Obligations.ModeChecksInOrder := by
  refine fun i s n hn => ⟨fun hr => ?regions, fun hr hlen => ?length⟩
  case regions =>
    exact ⟨_, exec_mode_error hn (modeChecks_of_not_regions hr) nofun, modeError_spec s _⟩
  case length =>
    have hc : modeChecks i n s = .invalidBlockLength := by
      rw [modeChecks_of_regions hr, if_pos ((badBlockLength_iff hn).mpr hlen)]
    exact ⟨_, exec_mode_error hn hc nofun, modeError_spec s _⟩

/-! ### The results of the mode commands -/

/-- Block j of what was written at DST stands at DST + 16j. -/
theorem holdsAt_outputBlock (s : State) {xs : List Block} {cv x : Block} {n j : Nat} (hx : xs[j]? = some x) :
    HoldsAt (s.modeOutput (ofBlocks xs) cv n).done (s.dst.toNat + 16 * j) x.bytes := by
  obtain ⟨hj, rfl⟩ := List.getElem?_eq_some_iff.mp hx
  exact holdsAt_block (holdsAt_written s _ _ _ rfl) j hj

/-- A length inside DBUF fits OUTLEN (45_sm4.md R361). -/
theorem ModeRegions.toNat_outlen {s : State} {n : Nat} (hr : ModeRegions s n) : (BitVec.ofNat 32 n).toNat = n := by
  obtain ⟨-, ⟨hdst, hn⟩, -⟩ := hr
  rw [BitVec.toNat_ofNat]
  omega

/-- Settles O56: block j of the output is the transform of block j of the input. -/
theorem ecbCommands : Obligations.EcbCommands := by
  intro i f s hi hr h16
  have hlen := length_modeBlocks h16
  refine ⟨_, ecb_ok i f s hi hr h16, completed_complete _ _ _, onlySm4_out s _ _ _ _ _, rfl, BitVec.ofNat_toNat _ _,
    kept_out _ _ _ _ _ rfl (by rw [length_ofBlocks, List.length_map, hlen]), fun j hj => ?_⟩
  have hj' : j < (toBlocks s.modeInput).length := by omega
  have hx : ((toBlocks s.modeInput).map (f s.sm4.rk))[j]? = some (f s.sm4.rk (blockAt s.modeInput j)) := by
    rw [List.getElem?_map, List.getElem?_eq_getElem hj', getElem_toBlocks_blockAt, Option.map_some]
  exact holdsAt_outputBlock s hx

/-- The message CBCENC encrypts: the LEN bytes at SRC, padded where PAD is 1 (45_sm4.md R370). -/
def State.cbcMessage (s : State) (pad : Bool) : List Byte := if pad then pad7 s.modeInput else s.modeInput

theorem length_cbcMessage (s : State) (pad : Bool) : (s.cbcMessage pad).length = cbcEncLen pad s.len.toNat := by
  cases pad <;> simp [State.cbcMessage, cbcEncLen, State.modeInput]

/-- CBCENC encrypts whole blocks (45_sm4.md R370). -/
theorem cbcEncLen_mod {pad : Bool} {len : Nat} (h16 : pad = false → len % 16 = 0) : cbcEncLen pad len % 16 = 0 := by
  cases pad with
  | false => exact h16 rfl
  | true =>
    simp only [cbcEncLen, if_true]
    omega

/-- CBCENC whose checks pass (45_sm4.md R370). -/
theorem cbcenc_ok {pad : Bool} {s : State} (hc : modeChecks (.cbcenc pad) (cbcEncLen pad s.len.toNat) s = .none) :
    exec (.cbcenc pad) s = .next
      (s.modeOutput (ofBlocks (cbcEncBlocks s.sm4.rk s.sm4.cv (toBlocks (s.cbcMessage pad))).1)
        (cbcEncBlocks s.sm4.rk s.sm4.cv (toBlocks (s.cbcMessage pad))).2 (cbcEncLen pad s.len.toNat)).done := by
  simp only [exec, execCbcenc, hc]
  rfl

/-- The ciphertext of CBC as a sequence of blocks (45_sm4.md R370). -/
theorem cbcEnc_seq (rk : Vector Word 32) (prev : Block) (ms : List Block) : ∃ c : Nat → Block,
    (∀ j (h : j < ms.length), c j = sm4Enc rk (ms[j].xor (if j = 0 then prev else c (j - 1))) ∧
      (cbcEncBlocks rk prev ms).1[j]? = some (c j)) ∧
    (cbcEncBlocks rk prev ms).2 = if ms.length = 0 then prev else c (ms.length - 1) := by
  obtain ⟨hchain, hlast⟩ := cbcEnc_chain rk prev ms
  obtain ⟨c, hget⟩ : ∃ c : Nat → Block, ∀ j (h : j < (cbcEncBlocks rk prev ms).1.length),
      (cbcEncBlocks rk prev ms).1[j] = c j :=
    ⟨fun j => (cbcEncBlocks rk prev ms).1.getD j prev, fun j h => (List.getD_eq_getElem _ _ h).symm⟩
  simp only [hget, dite_eq_ite] at hchain hlast
  refine ⟨c, fun j h => ⟨hchain j h, ?_⟩, hlast⟩
  rw [← length_cbcEncBlocks rk prev ms] at h
  rw [List.getElem?_eq_getElem h, hget j h]

/-- Settles O57: the ciphertext blocks are the chain's. -/
theorem cbcEncryption : Obligations.CbcEncryption := by
  intro pad s n m hn hm hr h16
  obtain rfl : n = cbcEncLen pad s.len.toNat := hn
  obtain rfl : m = s.cbcMessage pad := hm
  have hc : modeChecks (.cbcenc pad) (cbcEncLen pad s.len.toNat) s = .none := by
    rw [modeChecks_of_regions hr, if_neg]
    cases pad <;> simp [badBlockLength, h16]
  have hlen : (toBlocks (s.cbcMessage pad)).length = cbcEncLen pad s.len.toNat / 16 := by
    rw [length_toBlocks, length_cbcMessage]
  have hmod := cbcEncLen_mod h16
  obtain ⟨c, hchain, hlast⟩ := cbcEnc_seq s.sm4.rk s.sm4.cv (toBlocks (s.cbcMessage pad))
  refine ⟨_, cbcenc_ok hc, completed_complete _ _ _, onlySm4_out s _ _ _ _ _, rfl, hr.toNat_outlen,
    kept_out _ _ _ _ _ rfl ?_, c, fun j hj => ?_, ?_⟩
  · rw [length_ofBlocks, length_cbcEncBlocks]
    omega
  · obtain ⟨hcj, hget⟩ := hchain j (by omega)
    rw [getElem_toBlocks_blockAt] at hcj
    exact ⟨hcj, holdsAt_outputBlock s hget⟩
  · rw [hlen] at hlast
    exact hlast.trans (if_congr (by omega) rfl rfl)

/-- CBC decryption of the LEN bytes at SRC from CV: the blocks, and the chaining value after (45_sm4.md R375). -/
def State.cbcDecrypted (s : State) : List Block × Block := cbcDecBlocks s.sm4.rk s.sm4.cv (toBlocks s.modeInput)

theorem length_cbcDecrypted {s : State} (h16 : s.len.toNat % 16 = 0) :
    (ofBlocks s.cbcDecrypted.1).length = s.len.toNat := by
  rw [State.cbcDecrypted, length_ofBlocks, length_cbcDecBlocks, length_modeBlocks h16]

theorem length_toBlocks_modeInput (s : State) : (toBlocks s.modeInput).length = s.len.toNat / 16 := by
  rw [length_toBlocks, State.modeInput, State.length_memRead]

/-- The chain of CBCDEC, block by block of its input (45_sm4.md R375). -/
theorem blockAt_cbcDecrypted (s : State) {j : Nat} (hj : j < s.len.toNat / 16) :
    blockAt (ofBlocks s.cbcDecrypted.1) j =
      (sm4Dec s.sm4.rk (blockAt s.modeInput j)).xor (if j = 0 then s.sm4.cv else blockAt s.modeInput (j - 1)) := by
  rw [← length_toBlocks_modeInput] at hj
  obtain ⟨hchain, -⟩ := cbcDec_chain s.sm4.rk s.sm4.cv (toBlocks s.modeInput)
  rw [blockAt_ofBlocks _ _ (by rwa [State.cbcDecrypted, length_cbcDecBlocks])]
  simp only [getElem_toBlocks_blockAt, dite_eq_ite] at hchain
  exact hchain j hj

/-- CBCDEC leaves CV at its last input block (45_sm4.md R375). -/
theorem cbcDecrypted_cv {s : State} (h16 : s.len.toNat % 16 = 0) : s.cbcDecrypted.2 =
    if s.len.toNat = 0 then s.sm4.cv else blockAt s.modeInput (s.len.toNat / 16 - 1) := by
  obtain ⟨-, hlast⟩ := cbcDec_chain s.sm4.rk s.sm4.cv (toBlocks s.modeInput)
  simp only [getElem_toBlocks_blockAt, dite_eq_ite, length_toBlocks_modeInput] at hlast
  exact hlast.trans (if_congr (by omega) rfl rfl)

section
variable {s : State} (hr : ModeRegions s s.len.toNat) (h16 : s.len.toNat % 16 = 0)
include hr h16

theorem exec_cbcdec_plain : exec (.cbcdec false) s =
    .next (s.modeOutput (ofBlocks s.cbcDecrypted.1) s.cbcDecrypted.2 s.len.toNat).done :=
  cbcdec_ok false s hr h16 nofun

variable (h0 : s.len.toNat ≠ 0)
include h0

theorem exec_cbcdec_validPadding (hv : valid7 (ofBlocks s.cbcDecrypted.1) = true) : exec (.cbcdec true) s =
    .next (s.modeOutput (strip7 (ofBlocks s.cbcDecrypted.1) ++
        List.replicate (s.len.toNat - (strip7 (ofBlocks s.cbcDecrypted.1)).length) 0)
      s.cbcDecrypted.2 (strip7 (ofBlocks s.cbcDecrypted.1)).length).done :=
  (cbcdec_ok true s hr h16 fun _ => h0).trans (congrArg Host.Outcome.next (if_pos hv))

theorem exec_cbcdec_invalidPadding (hv : valid7 (ofBlocks s.cbcDecrypted.1) = false) : exec (.cbcdec true) s =
    .next ((s.modeOutput (List.replicate s.len.toNat 0) s.sm4.cv 0).raise .validation) :=
  (cbcdec_ok true s hr h16 fun _ => h0).trans (congrArg Host.Outcome.next (if_neg (ne_true_of_eq_false hv)))

end

/-- The stripped string fits OUTLEN (45_sm4.md R375). -/
theorem toNat_strippedLen {s : State} (hr : ModeRegions s s.len.toNat) (h16 : s.len.toNat % 16 = 0) :
    (BitVec.ofNat 32 (strip7 (ofBlocks s.cbcDecrypted.1)).length).toNat =
      (strip7 (ofBlocks s.cbcDecrypted.1)).length := by
  have hle := length_strip7_le (ofBlocks s.cbcDecrypted.1)
  rw [length_cbcDecrypted h16] at hle
  obtain ⟨-, ⟨-, hn⟩, -⟩ := hr
  rw [BitVec.toNat_ofNat]
  omega

/-- Settles O58: with PAD the padding of the decrypted string decides between success and VALIDATION. -/
theorem cbcDecryption : Obligations.CbcDecryption := by
  intro pad s c hc hr h16 h0
  obtain rfl : c = s.modeInput := hc
  have hlen := length_cbcDecrypted h16
  have hcv := cbcDecrypted_cv h16
  cases pad with
  | false =>
    refine ⟨_, _, exec_cbcdec_plain hr h16, onlySm4_out s _ _ _ _ _, rfl, kept_out _ _ _ _ _ rfl hlen, hlen,
      fun _ => blockAt_cbcDecrypted s,
      fun _ => ⟨completed_complete _ _ _, BitVec.ofNat_toNat _ _, holdsAt_written s _ _ _ rfl⟩, nofun, nofun, ?_⟩
    simpa using hcv
  | true =>
    cases hv : valid7 (ofBlocks s.cbcDecrypted.1) with
    | true =>
      refine ⟨_, _, exec_cbcdec_validPadding hr h16 (h0 rfl) hv, onlySm4_out s _ _ _ _ _, rfl,
        kept_out _ _ _ _ _ rfl ?_, hlen, fun _ => blockAt_cbcDecrypted s, nofun,
        fun _ _ => ⟨completed_complete _ _ _, toNat_strippedLen hr h16, holdsAt_written s _ _ _ rfl⟩,
        fun _ h => absurd (hv.symm.trans h) nofun, ?_⟩
      · have hle := length_strip7_le (ofBlocks s.cbcDecrypted.1)
        rw [List.length_append, List.length_replicate]
        omega
      · simpa [hv] using hcv
    | false =>
      refine ⟨_, _, exec_cbcdec_invalidPadding hr h16 (h0 rfl) hv, onlySm4_out s _ _ _ _ _, rfl,
        kept_out _ _ _ _ _ rfl List.length_replicate, hlen, fun _ => blockAt_cbcDecrypted s, nofun,
        fun _ h => absurd (hv.symm.trans h) nofun,
        fun _ _ => ⟨completed_complete _ _ _, rfl, holdsAt_written s _ _ _ rfl⟩, ?_⟩
      simp [hv]

/-! ### Decryption of what was encrypted -/

theorem Block.xor_xor_cancel_right (x y : Block) : (x.xor y).xor y = x := by
  simp [Block.xor]

/-- CBC decryption from the same chaining value undoes CBC encryption (45_sm4.md R390). -/
theorem cbcDecBlocks_cbcEncBlocks (rk : Vector Word 32) (prev : Block) (ms : List Block) :
    (cbcDecBlocks rk prev (cbcEncBlocks rk prev ms).1).1 = ms := by
  induction ms generalizing prev with
  | nil => rfl
  | cons m ms ih => simp only [cbcEncBlocks, cbcDecBlocks, sm4Dec_sm4Enc, Block.xor_xor_cancel_right, ih]

/-- What a successful ECBENC leaves (45_sm4.md R365): whole blocks, their ciphertext at DST, and its length. -/
theorem ecbenc_written {s t : State} (h : exec .ecbenc s = .next t) (ok : t.status.err = false) :
    s.len.toNat % 16 = 0 ∧ t.outlen = s.len ∧
      HoldsAt t s.dst.toNat (ofBlocks ((toBlocks s.modeInput).map (sm4Enc s.sm4.rk))) := by
  obtain ⟨hr, hb⟩ := checks_regions (exec_mode_ok (i := .ecbenc) rfl h ok)
  have h16 := blockLength_of_checks (by simp) hb
  rw [ecb_ok .ecbenc sm4Enc s (.inl ⟨rfl, rfl⟩) hr h16] at h
  cases h
  exact ⟨h16, BitVec.ofNat_toNat _ _, holdsAt_written s _ _ _ rfl⟩

/-- What a successful CBCENC leaves (45_sm4.md R370): whole blocks, their ciphertext at DST, and its length. -/
theorem cbcenc_written {s t : State} {pad : Bool} (h : exec (.cbcenc pad) s = .next t) (ok : t.status.err = false) :
    (s.cbcMessage pad).length % 16 = 0 ∧ t.outlen.toNat = (s.cbcMessage pad).length ∧
      HoldsAt t s.dst.toNat (ofBlocks (cbcEncBlocks s.sm4.rk s.sm4.cv (toBlocks (s.cbcMessage pad))).1) := by
  have hc := exec_mode_ok (i := .cbcenc pad) rfl h ok
  obtain ⟨hr, hb⟩ := checks_regions hc
  rw [cbcenc_ok hc] at h
  cases h
  refine ⟨?_, hr.toNat_outlen.trans (length_cbcMessage s pad).symm, holdsAt_written s _ _ _ rfl⟩
  rw [length_cbcMessage]
  refine cbcEncLen_mod fun hpad => ?_
  subst hpad
  exact blockLength_of_checks (by simp) hb

section
variable {s t u : State} (hdbuf : u.dbuf = t.dbuf) (hsrc : u.src = s.dst)
include hdbuf hsrc

/-- The output of a mode command, read from where it was written. -/
theorem modeInput_of_written {out : List Byte} (hheld : HoldsAt t s.dst.toNat out)
    (hlen : u.len.toNat = out.length) : u.modeInput = out := by
  refine memRead_holds (fun i hi => ?_) hlen
  rw [hdbuf, hsrc]
  exact hheld i hi

/-- ECBDEC gives back the input of a successful ECBENC (45_sm4.md R390). -/
theorem ecbdec_restores {v : State} (h : exec .ecbenc s = .next t) (ok : t.status.err = false)
    (hrk : u.sm4.rk = s.sm4.rk) (hlen : u.len = t.outlen) (hr : ModeRegions u u.len.toNat)
    (hv : exec .ecbdec u = .next v) :
    v.status.err = false ∧ v.outlen = s.len ∧ HoldsAt v u.dst.toNat s.modeInput := by
  obtain ⟨h16, hout, hheld⟩ := ecbenc_written h ok
  rw [hout] at hlen
  have hblocks := length_modeBlocks h16
  have hin := modeInput_of_written hdbuf hsrc hheld (by rw [length_ofBlocks, List.length_map, hblocks, hlen])
  have hback : ofBlocks ((toBlocks u.modeInput).map (sm4Dec u.sm4.rk)) = s.modeInput := by
    have hundo : sm4Dec s.sm4.rk ∘ sm4Enc s.sm4.rk = id := funext (sm4Dec_sm4Enc _)
    rw [hin, toBlocks_ofBlocks, List.map_map, hrk, hundo, List.map_id,
      ofBlocks_toBlocks (by rwa [State.modeInput, State.length_memRead])]
  rw [ecb_ok .ecbdec sm4Dec u (.inr ⟨rfl, rfl⟩) hr (by rwa [hlen]), hback] at hv
  cases hv
  exact ⟨rfl, (BitVec.ofNat_toNat _ _).trans hlen, holdsAt_written u _ _ _ rfl⟩

/-- CBCDEC gives back the input of a successful CBCENC of the same mode (45_sm4.md R390). -/
theorem cbcdec_restores {v : State} {pad : Bool} (h : exec (.cbcenc pad) s = .next t) (ok : t.status.err = false)
    (hrk : u.sm4.rk = s.sm4.rk) (hcv : u.sm4.cv = s.sm4.cv) (hlen : u.len = t.outlen)
    (hr : ModeRegions u u.len.toNat) (hv : exec (.cbcdec pad) u = .next v) :
    v.status.err = false ∧ v.outlen.toNat = s.len.toNat ∧ HoldsAt v u.dst.toNat s.modeInput := by
  obtain ⟨h16, hout, hheld⟩ := cbcenc_written h ok
  rw [← hlen] at hout
  have hin := modeInput_of_written hdbuf hsrc hheld
    (by rw [hout, length_ofBlocks, length_cbcEncBlocks, length_toBlocks]; omega)
  have hback : ofBlocks u.cbcDecrypted.1 = s.cbcMessage pad := by
    rw [State.cbcDecrypted, hin, toBlocks_ofBlocks, hrk, hcv, cbcDecBlocks_cbcEncBlocks, ofBlocks_toBlocks h16]
  rw [← hout] at h16
  cases pad with
  | false =>
    rw [exec_cbcdec_plain hr h16, hback] at hv
    cases hv
    exact ⟨rfl, hr.toNat_outlen.trans (hout.trans (length_cbcMessage s false)), holdsAt_written u _ _ _ rfl⟩
  | true =>
    have h0 : u.len.toNat ≠ 0 := by
      rw [hout, length_cbcMessage, cbcEncLen, if_pos rfl]
      omega
    have hmsg : s.cbcMessage true = pad7 s.modeInput := rfl
    have hstrip := toNat_strippedLen hr h16
    rw [exec_cbcdec_validPadding hr h16 h0 (by rw [hback, hmsg, valid7_pad7])] at hv
    rw [hback, hmsg, strip7_pad7] at hv hstrip
    cases hv
    exact ⟨rfl, hstrip.trans (State.length_memRead _ _ _), holdsAt_append_left (holdsAt_written u _ _ _ rfl)⟩

end

/-- Settles O60: ECBDEC and CBCDEC read the ciphertext blocks back and undo them. -/
theorem decryptionRestoresTheMessage : Obligations.DecryptionRestoresTheMessage := by
  intro i j s t u v m hij hlen hm h ok hrk hcv hdbuf hsrc hulen hr hv
  obtain rfl : s.modeInput = m := memRead_holds hm hlen.symm
  rw [hlen]
  obtain ⟨rfl, rfl⟩ | ⟨pad, rfl, rfl⟩ := hij
  · obtain ⟨herr, hout, hheld⟩ := ecbdec_restores hdbuf hsrc h ok hrk hulen hr hv
    exact ⟨herr, congrArg BitVec.toNat hout, hheld⟩
  · exact cbcdec_restores hdbuf hsrc h ok hrk hcv hulen hr hv

end Sys2Proof.Machine
end

section
/-! The exceptional ends of a step (60_exceptions.md R400-R429): the idle engine, the errors a completion reports, and a
host access that falls in the engine's step. -/
namespace Sys2Proof.Machine

/-! ### The engine's step -/

/-- The idle engine keeps the state (60_exceptions.md R429). -/
theorem engineStep_idle {s : State} (hp : s.phase = .idle) : engineStep s = .next s := by
  rw [engineStep, if_pos hp]

/-- Settles O6: the engine moves on its turn, listed or not, and idle it keeps the state. -/
theorem idleEngineKeepsEverything : Obligations.IdleEngineKeepsEverything := by
  refine fun s hp => ⟨fun h => ?_, fun ts h => ?_⟩
  · rw [step_no_turns h, engineStep_idle hp]
  · rw [step_engine h, engineStep_idle (s := { s with turns := ts }) hp]

/-- The error a result carries is one of its command's row (60_exceptions.md R404). -/
theorem Result.code_mem {s u : State} {i : Instr} {code : ErrCode} (h : Result s i code u) :
    code = .none ∨ code ∈ errorsOf i := by
  cases h with
  | badPadding => exact .inr (by simp [errorsOf])
  | badMode _ _ _ hc | error _ _ _ _ hc => exact .inr hc
  | _ => exact .inl rfl

/-- A command that does not wait completes, with an error of its row or none (40_control.md R175). -/
theorem exec_completes {i : Instr} {s t : State} (h : exec i s = .next t) (ht : t.phase = .idle) :
    ∃ code vok, Completed t code vok ∧ (code = .none ∨ code ∈ errorsOf i) := by
  cases exec_finishes h with
  | completes u code vok hu => exact ⟨code, vok, completed_complete u code vok, hu.code_mem⟩
  | waits _ hw =>
    rw [hw.phase] at ht
    cases ht

/-- The engine's step that ends a running command completes it, or completes its ILLEGAL word (40_control.md R172,
R175; 30_encoding.md R149). -/
theorem engineStep_completes {s t : State} (hp : s.phase ≠ .idle) (h : engineStep s = .next t)
    (ht : t.phase = .idle) :
    (∃ i code vok, decode s.cmdl = .ok i ∧ Completed t code vok ∧ (code = .none ∨ code ∈ errorsOf i)) ∨
    ∃ r, decode s.cmdl = .error r ∧ Completed t .illegalCmd false := by
  cases hd : decode s.cmdl with
  | ok i =>
    rw [engineStep_running hp hd] at h
    obtain ⟨code, vok, hc, hmem⟩ := exec_completes h ht
    exact .inl ⟨i, code, vok, rfl, hc, hmem⟩
  | error r =>
    rw [engineStep_illegal hp hd] at h
    cases h
    exact .inr ⟨r, rfl, completed_complete s .illegalCmd false⟩

/-- Where no turn or the engine's is listed, the engine moves (log entry 1). -/
theorem step_engine_moves {s : State} (h : s.turns = [] ∨ ∃ ts, s.turns = .engine :: ts) :
    ∃ ts, step s = engineStep { s with turns := ts } := by
  rcases h with h | ⟨ts, h⟩
  · exact ⟨s.turns, step_no_turns h⟩
  · exact ⟨ts, step_engine h⟩

/-- ERR says whether a completion reports an error (40_control.md R175). -/
theorem Completed.err_iff {t : State} {code : ErrCode} {vok : Bool} (h : Completed t code vok) :
    t.status.err = true ↔ t.status.errcode ≠ .none := by
  rw [h.err, h.errcode, decide_eq_true_iff]

/-- Settles O28: by the two ways in which the engine's step completes. -/
theorem errorCodesPerCommand : Obligations.ErrorCodesPerCommand := by
  intro s t hp hturns hstep ht
  obtain ⟨ts, hengine⟩ := step_engine_moves hturns
  rw [hengine] at hstep
  rcases engineStep_completes (s := { s with turns := ts }) hp hstep ht with ⟨i, code, vok, hd, hc, hmem⟩ | ⟨r, hd, hc⟩
  · refine ⟨fun j hj => ?_, fun r hr => ?_, hc.err_iff⟩
    · cases hd.symm.trans hj
      rw [hc.errcode]
      exact hmem
    · cases hd.symm.trans hr
  · refine ⟨fun i hi => ?_, fun _ _ => hc.errcode, hc.err_iff⟩
    cases hd.symm.trans hi

/-! ### A host access and the engine's step in one step -/

/-- The step of a listed joint turn. -/
theorem step_both (s : State) (a : Access) (ts : List Turn) :
    step { s with turns := .both a :: ts } = jointStep { s with turns := ts } a := rfl

/-- While a command runs, its step follows the access (log entry 10). -/
theorem jointStep_running {s : State} (hp : s.phase ≠ .idle) (a : Access) :
    jointStep s a = engineStep (s.busAccess a) := by
  rw [jointStep, if_neg hp]

/-- An access that leaves the engine idle is the whole of a joint step. -/
theorem jointStep_of_idle {s : State} {a : Access} (h : (s.busAccess a).phase = .idle) :
    jointStep s a = .next (s.busAccess a) := by
  by_cases hp : s.phase = .idle
  · rw [jointStep, if_pos hp]
  · rw [jointStep_running hp, engineStep_idle h]

/-- A soft reset leaves the engine idle (70_reset_and_hazards.md R451). -/
@[simp] theorem State.softReset_phase (s : State) : s.softReset.phase = .idle := by
  unfold State.softReset
  split <;> rfl

/-- A write of CTRL with SRST leaves the engine idle (20_memory.md R122). -/
theorem busAccess_srst_phase (s : State) {v : Word} (h1 : v.getLsbD 1 = true) :
    (s.busAccess (.wr 0x004 v)).phase = .idle := by
  rw [busAccess_wr s (by omega) (by omega), regAt_eq_ctrl.mpr rfl, hostWrite_ctrl, State.writeCtrl, if_pos h1]
  exact s.softReset_phase

/-- A write of IRQSTAT leaves the engine's phase (10_state.md R46). -/
theorem busAccess_irqstat_phase (s : State) (v : Word) : (s.busAccess (.wr 0x010 v)).phase = s.phase := by
  rw [busAccess_wr s (by omega) (by omega), regAt_eq_irqstat.mpr rfl, hostWrite_irqstat, State.writeIrqstat]
  split <;> rfl

/-- Settles O8: after SRST the engine is idle, and after a write of IRQSTAT the command's completion sets DONE. -/
theorem simultaneousEvents : Obligations.SimultaneousEvents := by
  refine ⟨fun s ts v h1 => ?srst, fun s t ts v hp hstep ht => ?irqstat⟩
  case srst =>
    rw [step_both, step_host rfl]
    exact jointStep_of_idle (busAccess_srst_phase _ h1)
  case irqstat =>
    rw [step_both, jointStep_running (s := { s with turns := ts }) hp] at hstep
    have hp' := (busAccess_irqstat_phase { s with turns := ts } v).trans_ne hp
    rcases engineStep_completes hp' hstep ht with ⟨_, _, _, -, hc, -⟩ | ⟨_, -, hc⟩
    · exact hc.irqDone
    · exact hc.irqDone

end Sys2Proof.Machine
end

section
/-! Reset, and the hazards of a running command: the state after either reset, and what an access does while BUSY = 1
(70_reset_and_hazards.md R450-R462). -/
namespace Sys2Proof.Machine

/-! ### The hardware reset -/

/-- Each word of a zero operand register is 0. -/
@[simp] theorem word256_zero (j : Fin 8) : word256 0 j = 0 := by
  simp [word256]

/-- Each word of the zero V is 0 (10_state.md R53). -/
@[simp] theorem Sm3Words.word_zero (i : Fin 8) : Sm3Words.zero.word i = 0 := by
  fin_cases i <;> rfl

/-- Each word of a zero key or CV is 0 (10_state.md R54, R55). -/
@[simp] theorem Block.word_zero (i : Fin 4) : Block.zero.word i = 0 := by
  fin_cases i <;> rfl

/-- From 0x040 up to DBUF every register word is 0 after reset (10_state.md R32). -/
theorem regRead_reset_regAbove {off : Nat} (h : off < 0x1000) : State.reset.regRead (regAbove off) = 0 := by
  unfold regAbove
  split_ifs
  · rfl
  · exact Sm3Words.word_zero _
  · exact Block.word_zero _
  · exact Block.word_zero _
  · exact Vector.getElem_replicate _
  · show word256 (Opnds.reset.get _) _ = 0
    rw [Opnds.get_reset, word256_zero]
  · rfl

/-- The reset column of R32 below DBUF: ID and RETRY alone are not 0. -/
theorem regRead_reset {off : Nat} (h : off < 0x1000) : State.reset.regRead (regAt off) =
    if off = 0x000 then 0x534D0100 else if off = 0x024 then 0x10 else 0 := by
  unfold regAt
  split
  case h_15 =>
    rw [if_neg ‹¬ off = 0x000›, if_neg ‹¬ off = 0x024›]
    exact regRead_reset_regAbove h
  all_goals rfl

/-- The step of the reset input. -/
theorem step_hardReset {s : State} {ts : List Turn} (h : s.turns = .hardReset :: ts) :
    step s = .next { s with turns := ts }.hardReset := by
  rw [step, h]
  rfl

/-- Settles O9: the registers offset by offset, and the reset input by `step_hardReset`. -/
theorem hardResetState : Obligations.HardResetState :=
  ⟨fun _ h _ => regRead_reset h, Memory.read_nil, rfl, rfl, rfl, rfl, rfl, fun _ _ h => step_hardReset h⟩

/-- Settles O23: a reset with an empty DBUF is the reset state. -/
theorem resetMeetsTheInvariant : Obligations.ResetMeetsTheInvariant :=
  inv_of_cleared State.reset none Memory.wf_nil

/-! ### The soft reset -/

/-- A running mode command whose checks passed has its output region aborted (70_reset_and_hazards.md R451). -/
theorem abortedRegion_some {s : State} {i : Instr} {n : Nat} (hp : s.phase ≠ .idle) (hi : decode s.cmdl = .ok i)
    (hn : modeOutLen i s.len.toNat = some n) (hc : modeChecks i n s = .none) :
    s.abortedRegion = some (s.dst.toNat, n) := by
  simp only [State.abortedRegion, if_neg hp, hi, hn, if_pos hc]

/-- The aborted region becomes unspecified (log entry 7). -/
theorem softReset_of_some {s : State} {x l : Nat} (h : s.abortedRegion = some (x, l)) :
    s.softReset = { s.cleared with dbuf := Memory.forget s.dbuf x l } := by
  rw [State.softReset, h]

/-- A soft reset that aborts no output region keeps DBUF. -/
theorem softReset_of_none {s : State} (h : s.abortedRegion = none) : s.softReset = s.cleared := by
  rw [State.softReset, h]

/-- A soft reset clears everything but DBUF and the model's own fields (70_reset_and_hazards.md R451). -/
theorem softReset_eq_cleared (s : State) : s.softReset = { s.cleared with dbuf := s.softReset.dbuf } := by
  cases h : s.abortedRegion with
  | none => rw [softReset_of_none h]
  | some r => rw [softReset_of_some h]

/-- The coming turns have no part in a soft reset. -/
theorem softReset_turns (s : State) (ts : List Turn) :
    { s with turns := ts }.softReset = { s.softReset with turns := ts } := by
  cases h : s.abortedRegion with
  | none => rw [softReset_of_none h, softReset_of_none (s := { s with turns := ts }) h]; rfl
  | some r => rw [softReset_of_some h, softReset_of_some (s := { s with turns := ts }) h]; rfl

/-- A listed write of CTRL with SRST is the soft reset, busy or idle, whatever its other bits (20_memory.md R122). -/
theorem step_srst {s : State} {ts : List Turn} {v : Word} (hw : HostWrites s 0x004 v ts)
    (h1 : v.getLsbD 1 = true) :
    step s = .next { s.softReset with turns := ts, resp := some ⟨false, 0⟩ } := by
  rw [step_write hw (by omega) (by omega), regAt_eq_ctrl.mpr rfl, hostWrite_ctrl, State.writeCtrl, if_pos h1,
    softReset_turns]

/-- Settles O10: the soft reset clears all but DBUF, and DBUF by the region it aborts. -/
theorem softResetClears : Obligations.SoftResetClears := by
  intro s ts v hw h1
  refine ⟨_, step_srst hw h1, ?cleared, fun i n hp hi hn hc a => ?aborted, fun hno => ?kept⟩
  case cleared =>
    rw [softReset_eq_cleared s]
    rfl
  case aborted =>
    rw [softReset_of_some (abortedRegion_some hp hi hn hc)]
    exact Memory.read_forget s.dbuf _ _ a
  case kept =>
    rw [softReset_of_none (abortedRegion_none hno)]
    rfl

/-! ### Accesses while a command runs -/

/-- A busy write of CTRL without SRST stores IE, and its START is ignored (70_reset_and_hazards.md R461). -/
theorem writeCtrl_busy {s : State} {v : Word} (hb : s.status.busy = true) (h1 : v.getLsbD 1 = false) :
    s.writeCtrl v = { s with ie := v.getLsbD 2 } := by
  rw [State.writeCtrl, h1, hb, Bool.not_true, Bool.and_false]
  rfl

/-- A busy write of any register but CTRL and IRQSTAT is lost (70_reset_and_hazards.md R460). -/
theorem hostWrite_busy {s : State} {r : Reg} (v : Word) (hb : s.status.busy = true) (hc : r ≠ .ctrl)
    (hi : r ≠ .irqstat) : s.hostWrite r v = { s with resp := some ⟨false, 0⟩ } := by
  rw [State.hostWrite, writeEffect_other s v hc hi, if_pos hb]

/-- Settles O11: by the register that stands at the offset. -/
theorem busyWritesAreLost : Obligations.BusyWritesAreLost := by
  intro s ts off v hw hb hlt h4
  refine ⟨fun hc hi => ?lost, ?ie, ?srst, ?irqstat⟩
  case lost =>
    rw [step_write hw hlt h4, hostWrite_busy (s := { s with turns := ts }) v hb (mt regAt_eq_ctrl.mp hc)
      (mt regAt_eq_irqstat.mp hi)]
    rfl
  case ie =>
    rintro rfl h1
    rw [step_write hw hlt h4, regAt_eq_ctrl.mpr rfl, hostWrite_ctrl,
      writeCtrl_busy (s := { s with turns := ts }) hb h1]
    rfl
  case srst =>
    rintro rfl h1
    exact step_srst hw h1
  case irqstat =>
    rintro rfl
    obtain ⟨hclear, -, -⟩ := interruptFlagAndOutput
    have hdone : (if v.getLsbD 0 then false else s.irqDone) = (s.irqDone && !v.getLsbD 0) := by
      cases v.getLsbD 0 <;> simp
    rw [← hdone]
    exact hclear s ts v hw

/-- A busy read of a register that the command may write returns the coming free value and uses it up
(70_reset_and_hazards.md R462). -/
theorem hostRead_free {s : State} {r : Reg} (hb : s.status.busy = true) (hr : r.exactWhileBusy = false) :
    s.hostRead r = { s.drew 1 with resp := some ⟨false, Config.freeWord s.draws⟩ } := by
  rw [State.hostRead, if_pos (by rw [hb, hr]; rfl)]

/-- Settles O18: the free reads by `regAt_free`, the exact ones by the register that stands at the offset. -/
theorem busyReadsAreFreeOrExact : Obligations.BusyReadsAreFreeOrExact := by
  intro s ts off hr hb h4
  refine ⟨fun hfree => ?free, ?id, ?ctrl, ?cmd, ?status, ?irqstat, ?src, ?dst, ?len, ?retry⟩
  case free =>
    rw [step_read hr (by omega) h4, hostRead_free (s := { s with turns := ts }) hb (regAt_free h4 hfree)]
    rfl
  case id | cmd | status | src | dst | len | retry =>
    rintro rfl
    exact step_read_exact hr (by omega) h4 rfl
  case ctrl =>
    rintro rfl
    rw [← ctrlWord_eq]
    exact step_read_exact hr (by omega) h4 rfl
  case irqstat =>
    rintro rfl
    rw [← irqstatWord_eq]
    exact step_read_exact hr (by omega) h4 rfl

end Sys2Proof.Machine
end
